-- ==== Sys2Proof/Word.lean ====
section
/-! DEFINITION. The words of XTSU: bytes, 128-bit blocks and tweaks, 32-bit registers and command words
(spec/00_scope.md R9). -/

namespace Sys2Proof

/-- One byte of the buffer (20_memory.md R60). -/
abbrev Byte := BitVec 8

/-- A 128-bit value: a block, a tweak, a sector index or the data of a host transaction (00_scope.md R9, R10). -/
abbrev Block := BitVec 128

/-- A 32-bit value: OFF, LEN, a command word (00_scope.md R9). -/
abbrev Word := BitVec 32

/-- A sub-key as the host binds it at the cipher, a byte sequence (00_scope.md R8, 45_host_sequences.md R190). -/
abbrev Key := List Byte

/-- The block width `W` in bytes (00_scope.md R7). -/
abbrev blockWidth : Nat := 16

end Sys2Proof
end

