-- ==== Sys2Proof/Syntax.lean ====
section
/-! DEFINITION. The nine commands of XTSU, one constructor per row of spec/opcode_table.json
(30_encoding.md R94). -/

namespace Sys2Proof

/-- A command (30_encoding.md R94). Operands other than `rem` are the registers (10_state.md R26). -/
inductive Instr where
  /-- NOP: nothing (46_system.md R214). -/
  | nop
  /-- DOUBLE: (T, CF) <- Double(T) (40_gf_arithmetic.md R114). -/
  | double
  /-- HALVE: T <- Halve(T, CF) (40_gf_arithmetic.md R115). -/
  | halve
  /-- TWGEN: T <- EncryptBlock(K2, SIDX) (41_tweak_generator.md R131). -/
  | twgen
  /-- XEXE: XEX-encrypt the block at OFF (42_block_transform.md R141). -/
  | xexe
  /-- XEXD: XEX-decrypt the block at OFF (42_block_transform.md R142). -/
  | xexd
  /-- CTSSWAP rem: swap `rem` bytes at OFF with `rem` bytes at OFF + 16 (44_ciphertext_stealing.md R181). -/
  | ctsswap (rem : BitVec 4)
  /-- SECTE: encrypt the sector [OFF, OFF + LEN) (43_sector_processor.md R166). -/
  | secte
  /-- SECTD: decrypt the sector [OFF, OFF + LEN) (43_sector_processor.md R167). -/
  | sectd
deriving DecidableEq, Repr

end Sys2Proof
end

