-- ==== Sys2Proof/WellFormed.lean ====
section
/-! DEFINITION. Which terms of `Instr` a command word stands for: the immediate of CTSSWAP is 1 to 15
(30_encoding.md R93, R98); a command with no immediate has nothing to check. -/

namespace Sys2Proof

/-- The check on the immediate of CTSSWAP: `rem = 0` is reserved (30_encoding.md R92, R98). -/
def remInRange (rem : BitVec 4) : Bool := rem != 0#4

/-- Well-formed commands: the terms that some legal command word encodes (30_encoding.md R97). -/
def Instr.wf : Instr → Bool
  | .nop => true
  | .double => true
  | .halve => true
  | .twgen => true
  | .xexe => true
  | .xexd => true
  | .ctsswap rem => remInRange rem
  | .secte => true
  | .sectd => true

end Sys2Proof
end

