-- ==== Sys2Proof/Decode.lean ====
section
/-! DEFINITION. The command words: the decoder of 30_encoding.md R95, total on every 32-bit word and
rejecting by name, and the encoder of R91, R92, R94, R102. -/

namespace Sys2Proof

/-- Why a command word is reserved (30_encoding.md R96). -/
inductive Reserved where
  /-- A bit of 31:12 is not 0. -/
  | highBits
  /-- Opcode 0x07 or 0x0A to 0xFF. -/
  | opcode
  /-- A C0 opcode with bits 11:8 not 0. -/
  | immediate
  /-- CTSSWAP with `rem = 0` (R98). -/
  | swapOfZero
deriving DecidableEq, Repr

/-- The opcode of a command (30_encoding.md R94). -/
def opcode : Instr → BitVec 8
  | .nop => 0x00#8
  | .double => 0x01#8
  | .halve => 0x02#8
  | .twgen => 0x03#8
  | .xexe => 0x04#8
  | .xexd => 0x05#8
  | .ctsswap _ => 0x06#8
  | .secte => 0x08#8
  | .sectd => 0x09#8

/-- The field 11:8 of a command word: `rem` in format C1, 0 in format C0 (30_encoding.md R91, R92). -/
def immediate : Instr → BitVec 4
  | .ctsswap rem => rem
  | .nop | .double | .halve | .twgen | .xexe | .xexd | .secte | .sectd => 0#4

/-- The commands of format C0 by opcode (30_encoding.md R94). -/
def c0Command (opc : BitVec 8) : Option Instr :=
  if opc = 0x00#8 then some .nop
  else if opc = 0x01#8 then some .double
  else if opc = 0x02#8 then some .halve
  else if opc = 0x03#8 then some .twgen
  else if opc = 0x04#8 then some .xexe
  else if opc = 0x05#8 then some .xexd
  else if opc = 0x08#8 then some .secte
  else if opc = 0x09#8 then some .sectd
  else none

/-- The decoding procedure of 30_encoding.md R95. -/
def decode (w : Word) : Except Reserved Instr :=
  let opc := w.extractLsb' 0 8
  let imm := w.extractLsb' 8 4
  if w.extractLsb' 12 20 ≠ 0#20 then .error .highBits
  else if opc = 0x06#8 then
    if imm = 0#4 then .error .swapOfZero else .ok (.ctsswap imm)
  else
    match c0Command opc with
    | none => .error .opcode
    | some i => if imm = 0#4 then .ok i else .error .immediate

/-- The word of a command: bits 31:12 zero, `rem` or zero in 11:8, the opcode in 7:0 (30_encoding.md R91,
R92, R102). -/
def encode (i : Instr) : Word := 0#20 ++ immediate i ++ opcode i

/-- One row of the opcode map of 30_encoding.md R94: a word `w` selects the row when `w &&& mask = pattern`. -/
structure OpcodeRow where
  mask : Word
  pattern : Word
deriving DecidableEq, Repr

/-- The row of a command in the opcode map of 30_encoding.md R94. -/
def opcodeRow : Instr → OpcodeRow
  | .nop => ⟨0xFFFFFFFF#32, 0x00000000#32⟩
  | .double => ⟨0xFFFFFFFF#32, 0x00000001#32⟩
  | .halve => ⟨0xFFFFFFFF#32, 0x00000002#32⟩
  | .twgen => ⟨0xFFFFFFFF#32, 0x00000003#32⟩
  | .xexe => ⟨0xFFFFFFFF#32, 0x00000004#32⟩
  | .xexd => ⟨0xFFFFFFFF#32, 0x00000005#32⟩
  | .ctsswap _ => ⟨0xFFFFF0FF#32, 0x00000006#32⟩
  | .secte => ⟨0xFFFFFFFF#32, 0x00000008#32⟩
  | .sectd => ⟨0xFFFFFFFF#32, 0x00000009#32⟩

/-- The command a table word decodes to: a command is one 32-bit word, and bits above `nbits` are 0. -/
def decodeTableWord (nbits w : Nat) : Option Instr :=
  (decode (BitVec.ofNat 32 (w % 2 ^ nbits))).toOption

end Sys2Proof
end

