-- ==== Sys2Proof/Config.lean ====
section
/-! DEFINITION. What the spec leaves to the platform and has no register for: the external cipher's two
functions, the key lengths it takes, and the free values (00_scope.md R8, 93_implementation_defined.md).
None of the constants has a body: nothing can be proved about the value of one. The parameters that are
plain data (BUF_BYTES, which cipher is attached, the keys) are fields of State. -/

namespace Sys2Proof.Config

/-- `EncryptBlock(key, block)` of the external cipher (00_scope.md R13). A 16-byte block is the 128-bit
value whose byte 0 is the first byte of the sequence (10_state.md R53). -/
opaque encryptBlock : Key → Block → Block

/-- `DecryptBlock(key, block)` of the external cipher (00_scope.md R13). -/
opaque decryptBlock : Key → Block → Block

/-- `ValidKeyLen`: which sub-key lengths the external cipher takes (45_host_sequences.md R191, 93 U21). -/
opaque validKeyLen : Nat → Bool

/-- Free values for T after a completed sector command, by the number of the instance and of the draw
(10_state.md R27, 93 U3; log 9). -/
opaque freeTweak : Nat → Nat → Block

/-- Free values for CF after a completed sector command (10_state.md R27, 93 U4; log 9). -/
opaque freeCarry : Nat → Nat → Bool

/-- Free values for host reads that return "an unspecified value" (10_state.md R22, R39, 93 U3, U5; log 10). -/
opaque freeRead : Nat → Nat → Block

/-- Free bytes of the buffer range of a command that reset ended, by the number of the instance, of the
draw and the address (70_reset_and_hazards.md R262, 93 U8; log 11). -/
opaque freeByte : Nat → Nat → Nat → Byte

/-- BUF_BYTES in `State.reset`: the largest value 00_scope.md R8 allows. DESIGN CHOICE (log 3). -/
abbrev resetBufBytes : Nat := 2 ^ 32

/-- What a byte of the buffer that nothing has written reads as. DESIGN CHOICE (log 5). -/
abbrev unlistedByte : Byte := 0#8

end Sys2Proof.Config
end

