-- ==== Sys2Proof/Machine/State.lean ====
section
/-! DEFINITION. The state of XTSU (spec/10_state.md, 20_memory.md R60), the platform's parameters, what the
host does next, and the reasons a step of the model can stop. -/

namespace Sys2Proof.Machine

/-- The direction of a command, and the `op` line of the cipher port: 0 = ENC, 1 = DEC (10_state.md R42, R53). -/
inductive Dir where
  | enc
  | dec
deriving DecidableEq, Repr

/-- KSEL of the cipher port: K1, the data sub-key, or K2, the tweak sub-key (10_state.md R53). -/
inductive KeySel where
  | k1
  | k2
deriving DecidableEq, Repr

/-- A request on the cipher port (10_state.md R53). -/
structure CipherRequest where
  ksel : KeySel
  op : Dir
  x : Block
deriving DecidableEq, Repr

/-- The cipher attached to the cipher port, a parameter (00_scope.md R8, R13; log 4, log 22). -/
inductive CipherUnit where
  /-- The external cipher, uninterpreted: `Config.encryptBlock` and `Config.decryptBlock`. -/
  | external
  /-- The toy cipher of 95_test_vectors.md section 2, no part of the hardware. -/
  | toy128
deriving DecidableEq, Repr

/-- PHASE, what sequences a command (10_state.md R40). -/
inductive Phase where
  | idle
  | pNop
  | pDouble
  | pHalve
  | pTwgen
  | pXex
  | pSwap
  | sBodyX
  | sBodyD
  | sLast
  | sE1
  | sE2
  | sE3
  | sE4
  | sD1
  | sD2
  | sD3
  | sD4
  | sD5
deriving DecidableEq, Repr

/-- The errors XTSU records in STATUS (60_exceptions.md R230). -/
inductive ErrorCause where
  | sectorTooShort
  | illegalCommand
  | tweakInvalid
  | bufferRange
deriving DecidableEq, Repr

/-- One transaction on the buffer port or the cipher port, as 42_block_transform.md R143 numbers them. -/
inductive PortEvent where
  /-- `MemRead(addr, n)` and the bytes it returned (20_memory.md R62). -/
  | memRead (addr : Nat) (data : List Byte)
  /-- `MemWrite(addr, n, data)` (20_memory.md R63). -/
  | memWrite (addr : Nat) (data : List Byte)
  /-- A request on the cipher port (10_state.md R53). -/
  | request (r : CipherRequest)
  /-- The answer to the outstanding request. -/
  | answer (y : Block)
deriving DecidableEq, Repr

/-- What the host or another agent does next (log 2). Each is one turn; between two turns of the host the
sequencer takes a step only on `pass` and `wait`. -/
inductive HostAction where
  /-- No transaction: the sequencer's turn. -/
  | pass
  /-- A write of a command word to CMD together with every step of the run it starts, as one transition
  (46_system.md R218). -/
  | command (w : Word)
  /-- A host write `(idx, wdata)` (46_system.md R210); index 0 starts a command, which then runs step by step. -/
  | write (idx : BitVec 4) (wdata : Block)
  /-- A host read `(idx)` (46_system.md R211). -/
  | read (idx : BitVec 4)
  /-- WAIT: read STATUS until DONE = 1 (45_host_sequences.md R203). -/
  | wait
  /-- A read of buffer bytes by an agent other than XTSU (20_memory.md R61, R79). -/
  | bufRead (addr n : Nat)
  /-- A write of buffer bytes by an agent other than XTSU (20_memory.md R61, R79). -/
  | bufWrite (addr : Nat) (data : List Byte)
  /-- The host binds K1 and K2 at the cipher (45_host_sequences.md R190, 70_reset_and_hazards.md R265). -/
  | bindKeys (k1 k2 : Key)
  /-- The reset input is asserted (70_reset_and_hazards.md R260). -/
  | reset
deriving DecidableEq, Repr

/-- The buffer's contents: bytes by address, addresses strictly rising, no byte equal to the unlisted one. -/
abbrev Memory := List Host.Cell

/-- Everything a step reads or writes. The first group is XTSU's own (10_state.md R20 to R42, R50), then the
buffer, then what the platform and the host fix outside XTSU, then the model's own fields (log 2, 9, 16). -/
structure State where
  /-- T, the tweak register (10_state.md R21). -/
  t : Block
  /-- TV, tweak valid (R22). -/
  tv : Bool
  /-- SIDX, the sector index (R24). -/
  sidx : Block
  /-- OFF (R23). -/
  off : Word
  /-- LEN (R25). -/
  len : Word
  /-- CF, the carry flag (R28). -/
  cf : Bool
  /-- DONE, STATUS bit 1 (R31). -/
  done : Bool
  /-- ERR, STATUS bit 2 (R32). -/
  err : Bool
  /-- ECODE, STATUS bits 11:8 (R32). -/
  ecode : BitVec 4
  /-- PHASE (R40); BUSY is `phase ≠ idle`. -/
  phase : Phase
  /-- N, the number of full blocks (R41). -/
  n : BitVec 28
  /-- REM, the bytes of the tail, or CTSSWAP's immediate (R41). -/
  rem : BitVec 4
  /-- J, the block counter (R41). -/
  j : BitVec 28
  /-- OPL, the latched opcode (R42). -/
  opl : BitVec 8
  /-- DIRL, the latched direction (R42). -/
  dirl : Dir
  /-- The request on the cipher port that waits for its answer (R50, R56). -/
  inflight : Option CipherRequest
  /-- The buffer (20_memory.md R60). -/
  mem : Memory
  /-- BUF_BYTES (00_scope.md R8). -/
  bufBytes : Nat
  /-- The cipher attached to the cipher port (00_scope.md R8). -/
  cipher : CipherUnit
  /-- K1, the data sub-key bound at the cipher (00_scope.md R8). -/
  k1 : Key
  /-- K2, the tweak sub-key bound at the cipher (00_scope.md R8). -/
  k2 : Key
  /-- What the host and the other agents do next, oldest first. -/
  inbox : List HostAction
  /-- The answer of the last host read. -/
  rdata : Block
  /-- The bytes the last buffer read of another agent returned. -/
  bdata : List Byte
  /-- What happened on the buffer port and the cipher port, newest first. -/
  portLog : List PortEvent
  /-- How many free values have been drawn. -/
  draws : Nat
  /-- The number of the instance (log 17); it only picks the free values the instance draws. -/
  unitNo : Nat
deriving DecidableEq, Repr

/-- The reasons the model stops where the spec defines no next state. -/
inductive Fault where
  /-- Raised by `memRead`, `memWrite` and by a buffer access of another agent: an address at or above
  BUF_BYTES, which does not exist (20_memory.md R60, R62, R63). No command that passed its checks raises it
  (R64). Safe (log 14). -/
  | outsideBuffer
  /-- Raised by `cipherAnswer` when no request is outstanding (10_state.md R53). No state reaches it: every
  step that takes an answer has just made the request. Safe (log 15). -/
  | noCipherRequest
deriving DecidableEq, Repr

/-- The runs the model gives no meaning. -/
inductive Refusal where
  /-- Raised by `exec` for a command whose meaning is not written; no arm of this model raises it. Safe. -/
  | notModelled (mnemonic : String)
  /-- Raised when an agent other than XTSU reads or writes a byte of the running command's range while
  BUSY = 1, two busy instances included (20_memory.md R79, 93 U6). Safe (log 12). -/
  | bufferRace
  /-- Raised when a binding changes the keys while BUSY = 1 (70_reset_and_hazards.md R275, 93 U9). Safe
  (log 13). -/
  | keysChangedWhileBusy
  /-- Raised by `UnitSystem.step` for an instance number the system does not have. Safe (log 17). -/
  | noSuchUnit
deriving DecidableEq, Repr

/-- BUSY, STATUS bit 0: `BUSY = (PHASE != IDLE)` (10_state.md R30, R40). -/
def State.busy (s : State) : Bool := s.phase != .idle

/-- The machine right after reset (10_state.md R56, 70_reset_and_hazards.md R260). The values of T, of the
latches, of the platform's parameters and of the model's own fields are the model's (log 3, 4, 6, 7, 9, 16). -/
def State.reset : State where
  t := 0#128
  tv := false
  sidx := 0#128
  off := 0#32
  len := 0#32
  cf := false
  done := false
  err := false
  ecode := 0#4
  phase := .idle
  n := 0#28
  rem := 0#4
  j := 0#28
  opl := 0#8
  dirl := .enc
  inflight := none
  mem := []
  bufBytes := Config.resetBufBytes
  cipher := .external
  k1 := []
  k2 := []
  inbox := []
  rdata := 0#128
  bdata := []
  portLog := []
  draws := 0
  unitNo := 0

end Sys2Proof.Machine
end

