-- ==== Sys2Proof/Machine/Ops.lean ====
section
/-! DEFINITION. The named operations over the buffer and the ports, the byte order, and the one way a command
ends in an error (00_scope.md R10 to R12, 20_memory.md R60 to R68, 60_exceptions.md R241). -/

namespace Sys2Proof.Machine

/-- An operation of the sequencer: a value and the next state, or the fault that stops the model. -/
abbrev Result (α : Type) := Except Fault α

/-! ### Byte order (00_scope.md R10, R11, 20_memory.md R65) -/

/-- `le(b)` as an integer: the sum of `b[i] * 2^(8i)` (00_scope.md R11). -/
def leValue : List Byte → Nat
  | [] => 0
  | b :: bs => b.toNat + 256 * leValue bs

/-- `le(b)` of a 16-byte sequence as a 128-bit value (00_scope.md R11). -/
def leBlock (bs : List Byte) : Block := BitVec.ofNat 128 (leValue bs)

/-- Byte `i` of a 128-bit value, `v[8i+7 : 8i]` (00_scope.md R10). -/
def byteOf (v : Block) (i : Nat) : Byte := v.extractLsb' (8 * i) 8

/-- `bytes_16(v)`: the 16-byte sequence whose byte `i` is `v[8i+7 : 8i]` (00_scope.md R11). -/
def blockBytes (v : Block) : List Byte := (List.range blockWidth).map (byteOf v)

/-! ### The buffer as data (20_memory.md R60; log 5) -/

/-- The canonical form: every listed address is at least `lo`, addresses rise strictly, and no listed byte is
the one an unlisted address reads as. -/
def Memory.wfFrom : Nat → Memory → Bool
  | _, [] => true
  | lo, (a, b) :: m => decide (lo ≤ a) && b != Config.unlistedByte && Memory.wfFrom (a + 1) m

/-- The canonical form of the buffer's contents. -/
def Memory.wf (m : Memory) : Bool := Memory.wfFrom 0 m

/-- Every listed address is below `limit`. -/
def Memory.below (limit : Nat) (m : Memory) : Bool := m.all fun c => decide (c.1 < limit)

/-- The byte at an address. -/
def Memory.read : Memory → Nat → Byte
  | [], _ => Config.unlistedByte
  | (x, v) :: m, a => if a = x then v else Memory.read m a

/-- A cell put in front, unless its byte is the one an unlisted address reads as. -/
def Memory.consCell (a : Nat) (b : Byte) (m : Memory) : Memory :=
  if b = Config.unlistedByte then m else (a, b) :: m

/-- One byte written, keeping the canonical form. -/
def Memory.write : Memory → Nat → Byte → Memory
  | [], a, b => Memory.consCell a b []
  | (x, v) :: m, a, b =>
    if a < x then Memory.consCell a b ((x, v) :: m)
    else if a = x then Memory.consCell a b m
    else (x, v) :: Memory.write m a b

/-- The `n` bytes at `a`, lowest address first (20_memory.md R62). -/
def Memory.readBytes (m : Memory) (a n : Nat) : List Byte := (List.range n).map fun i => m.read (a + i)

/-- A byte sequence written at `a`, lowest address first (20_memory.md R63). -/
def Memory.writeBytes : Memory → Nat → List Byte → Memory
  | m, _, [] => m
  | m, a, b :: bs => Memory.writeBytes (m.write a b) (a + 1) bs

/-! ### The buffer port (10_state.md R54, 20_memory.md R62, R63) -/

/-- An event put on the record of the ports (log 16). -/
def State.log (e : PortEvent) (s : State) : State := { s with portLog := e :: s.portLog }

/-- Whether the bytes `a .. a + n - 1` lie in the buffer, on unbounded integers (20_memory.md R64). -/
def inBuffer (s : State) (a n : Nat) : Bool := decide (a + n ≤ s.bufBytes)

/-- `MemRead(addr, n)` (20_memory.md R62). -/
def memRead (a n : Nat) (s : State) : Result (List Byte × State) :=
  if inBuffer s a n then
    let bs := s.mem.readBytes a n
    .ok (bs, s.log (.memRead a bs))
  else .error .outsideBuffer

/-- `MemWrite(addr, n, b)`, `n` the length of `b` (20_memory.md R63). -/
def memWrite (a : Nat) (bs : List Byte) (s : State) : Result State :=
  if inBuffer s a bs.length then
    .ok ({ s with mem := s.mem.writeBytes a bs }.log (.memWrite a bs))
  else .error .outsideBuffer

/-! ### Ending in an error (60_exceptions.md R230, R241, R242) -/

/-- ECODE of an error (60_exceptions.md R230). -/
def ErrorCause.code : ErrorCause → BitVec 4
  | .sectorTooShort => 1#4
  | .illegalCommand => 2#4
  | .tweakInvalid => 3#4
  | .bufferRange => 4#4

/-- Step 1 of acceptance: DONE, ERR and ECODE cleared (46_system.md R212). This is also the whole of recovery:
there is no return from an error, the next acceptance clears it (60_exceptions.md R244, R245). -/
def clearStatus (s : State) : State := { s with done := false, err := false, ecode := 0#4 }

/-- `raise <Error>`: the error completion, the one way a command ends in an error (60_exceptions.md R241).
BUSY stays 0, PHASE stays IDLE, nothing else changes (R242). -/
def raiseError (e : ErrorCause) (s : State) : State := { s with done := true, err := true, ecode := e.code }

/-! ### Composing outcomes -/

/-- Goes on from a next state; a fault or a refusal ends it. -/
def andThen {α β : Type} (o : Host.Outcome α Fault Refusal) (f : α → Host.Outcome β Fault Refusal) :
    Host.Outcome β Fault Refusal :=
  match o with
  | .next a => f a
  | .fault r => .fault r
  | .refused r => .refused r

/-- The outcome of an operation of the sequencer. -/
def toOutcome {α : Type} (r : Result α) : Host.Outcome α Fault Refusal :=
  match r with
  | .ok a => .next a
  | .error f => .fault f

end Sys2Proof.Machine
end

