-- ==== Sys2Proof/Machine/CipherPort.lean ====
section
/-! DEFINITION. The cipher port and the cipher behind it (00_scope.md R13, 10_state.md R50, R53,
95_test_vectors.md section 2). -/

namespace Sys2Proof.Machine

/-! ### TOY128 (95_test_vectors.md section 2; log 22)

Section 2 defines TOY128 for keys of 16 bytes. What it does with a key of another length is the model's choice:
`le(k)` of all its bytes, modulo 2^128, so that an empty key counts as 0 (DESIGN CHOICE, log 22). -/

/-- `rotl8` on a 128-bit value. -/
def toyRotl8 (v : Block) : Block := (v <<< 8) ||| (v >>> 120)

/-- `rotr8` on a 128-bit value. -/
def toyRotr8 (v : Block) : Block := (v >>> 8) ||| (v <<< 120)

/-- `TOY.EncryptBlock(k, b)` on 128-bit values; for a key that is not 16 bytes DESIGN CHOICE (log 22). -/
def toyEncrypt (k : Key) (b : Block) : Block := toyRotl8 (b + leBlock k)

/-- `TOY.DecryptBlock(k, c)` on 128-bit values; for a key that is not 16 bytes DESIGN CHOICE (log 22). -/
def toyDecrypt (k : Key) (c : Block) : Block := toyRotr8 c - leBlock k

/-! ### The attached cipher (00_scope.md R13) -/

/-- `EncryptBlock(k, x)` or `DecryptBlock(k, x)` of an attached cipher. -/
def CipherUnit.apply (c : CipherUnit) (op : Dir) (k : Key) (x : Block) : Block :=
  match c, op with
  | .external, .enc => Config.encryptBlock k x
  | .external, .dec => Config.decryptBlock k x
  | .toy128, .enc => toyEncrypt k x
  | .toy128, .dec => toyDecrypt k x

/-- The key a request selects (10_state.md R53). -/
def State.key (s : State) : KeySel → Key
  | .k1 => s.k1
  | .k2 => s.k2

/-- `Cipher(ksel, op, x)` as the keys are bound now (00_scope.md R12, R13). -/
def cipherFn (s : State) (ksel : KeySel) (op : Dir) (x : Block) : Block := s.cipher.apply op (s.key ksel) x

/-! ### The port (10_state.md R50, R53) -/

/-- A request is put on the cipher port. -/
def cipherRequest (r : CipherRequest) (s : State) : State := { s with inflight := some r }.log (.request r)

/-- The answer to the outstanding request arrives. -/
def cipherAnswer (s : State) : Result (Block × State) :=
  match s.inflight with
  | some r =>
    let y := cipherFn s r.ksel r.op r.x
    .ok (y, { s with inflight := none }.log (.answer y))
  | none => .error .noCipherRequest

/-- One transaction on the cipher port, request and answer inside one step (10_state.md R50; log 15). -/
def cipherCall (ksel : KeySel) (op : Dir) (x : Block) (s : State) : Result (Block × State) :=
  cipherAnswer (cipherRequest ⟨ksel, op, x⟩ s)

end Sys2Proof.Machine
end

