-- ==== Sys2Proof/Machine/Flags.lean ====
section
/-! DEFINITION. The status register, the flags, and how a command is accepted and ends (10_state.md R22, R27 to
R32, R36, 46_system.md R212, R216, 43_sector_processor.md R156, R168). -/

namespace Sys2Proof.Machine

/-! ### STATUS (10_state.md R36) -/

/-- A flag as a 128-bit value with the flag in bit `k`. -/
def flagBit (k : Nat) (f : Bool) : Block := if f then 1#128 <<< k else 0#128

/-- The value a read of STATUS returns: BUSY, DONE, ERR, TV in bits 0 to 3, ECODE in bits 11:8 (10_state.md R36). -/
def statusWord (s : State) : Block :=
  flagBit 0 s.busy ||| flagBit 1 s.done ||| flagBit 2 s.err ||| flagBit 3 s.tv |||
    (s.ecode.setWidth 128 <<< 8)

/-! ### Acceptance and completion -/

/-- The direction in an opcode: bit 0 of the opcode of XEXE, XEXD, SECTE, SECTD (30_encoding.md R93, 10_state.md
R42). -/
def opcodeDir (opc : BitVec 8) : Dir := if opc.getLsbD 0 then .dec else .enc

/-- The latches every acceptance loads: OPL, and PHASE to the command's first phase (46_system.md R212, R215). -/
def enterPhase (opc : BitVec 8) (p : Phase) (s : State) : State := { s with opl := opc, phase := p }

/-- As `enterPhase`, for the commands that have a direction: DIRL too (10_state.md R42; log 8). -/
def enterDirected (opc : BitVec 8) (p : Phase) (s : State) : State :=
  { s with opl := opc, dirl := opcodeDir opc, phase := p }

/-- A move to another phase. -/
def goto (p : Phase) (s : State) : State := { s with phase := p }

/-- Acceptance (46_system.md R212): a write to CMD while BUSY = 1 changes nothing; otherwise STATUS is cleared,
the first failing check ends the command in its error, and a command with no failing check is entered. -/
def accept (check : Option ErrorCause) (enter : State → State) (s : State) : State :=
  if s.busy then s
  else match check with
    | some e => raiseError e (clearStatus s)
    | none => enter (clearStatus s)

/-- `complete`: PHASE <- IDLE, BUSY <- 0, DONE <- 1 (46_system.md R216). -/
def complete (s : State) : State := { s with phase := .idle, done := true }

/-- T and CF after a sector command: any values, drawn afresh (10_state.md R27, 93 U3, U4; log 9). -/
def drawTweak (s : State) : State :=
  { s with t := Config.freeTweak s.unitNo s.draws, cf := Config.freeCarry s.unitNo s.draws, draws := s.draws + 1 }

/-- `finish` of a sector command: TV <- 0, T and CF unspecified, complete (43_sector_processor.md R156, R168). -/
def finish (s : State) : State := complete { drawTweak s with tv := false }

/-- A command run from acceptance to its end as one transition (46_system.md R217, R218): `accepted` is the
state its acceptance leaves, `run` its steps. A command written while BUSY = 1 is lost (R210, R219). -/
def runCommand (s accepted : State) (run : State → Result State) : Host.Outcome State Fault Refusal :=
  if s.busy then .next s
  else if accepted.busy then toOutcome (run accepted)
  else .next accepted

end Sys2Proof.Machine
end

