-- ==== Sys2Proof/Machine/Operands.lean ====
section
/-! DEFINITION. The operands of the commands: the addresses they form, the quantities the sequencer latches,
and the checks made at acceptance (10_state.md R23, R41, 43_sector_processor.md R151 to R153,
60_exceptions.md R231 to R237). -/

namespace Sys2Proof.Machine

/-! ### Derived quantities and addresses (43_sector_processor.md R151, R152) -/

/-- `N = LEN div 16`, the number of full blocks, 28 bits (10_state.md R41). -/
def blockCount (len : Word) : BitVec 28 := BitVec.ofNat 28 (len.toNat / 16)

/-- `REM = LEN mod 16`, the bytes of the tail, 4 bits (10_state.md R41). -/
def remainder (len : Word) : BitVec 4 := BitVec.ofNat 4 (len.toNat % 16)

/-- OFF as a buffer address: the operand of XEXE, XEXD and CTSSWAP (10_state.md R23). -/
def offAddr (s : State) : Nat := s.off.toNat

/-- The address of block `J`, `OFF + 16 * J` (43_sector_processor.md R152). -/
def bodyAddr (s : State) : Nat := s.off.toNat + 16 * s.j.toNat

/-- `A = OFF + 16 * (N - 1)`, the address of the last full block (43_sector_processor.md R152). -/
def lastAddr (s : State) : Nat := s.off.toNat + 16 * (s.n.toNat - 1)

/-! ### The checks of acceptance, in the order of 60_exceptions.md R237 -/

/-- DOUBLE, HALVE: TweakInvalid when TV = 0 (60_exceptions.md R233). -/
def tweakCheck (s : State) : Option ErrorCause := if s.tv then none else some .tweakInvalid

/-- XEXE, XEXD: TweakInvalid, then BufferRange (42_block_transform.md R141). -/
def blockCheck (s : State) : Option ErrorCause :=
  if !s.tv then some .tweakInvalid
  else if s.off.toNat + 16 > s.bufBytes then some .bufferRange
  else none

/-- CTSSWAP: IllegalCommand for `rem = 0` (30_encoding.md R96), then BufferRange (44_ciphertext_stealing.md
R181). -/
def swapCheck (rem : BitVec 4) (s : State) : Option ErrorCause :=
  if rem = 0#4 then some .illegalCommand
  else if s.off.toNat + 16 + rem.toNat > s.bufBytes then some .bufferRange
  else none

/-- SECTE, SECTD: SectorTooShort, then TweakInvalid, then BufferRange (43_sector_processor.md R153). -/
def sectorCheck (s : State) : Option ErrorCause :=
  if s.len.toNat < 16 then some .sectorTooShort
  else if !s.tv then some .tweakInvalid
  else if s.off.toNat + s.len.toNat > s.bufBytes then some .bufferRange
  else none

/-! ### The byte range a running command owns (10_state.md R26, 20_memory.md R61) -/

/-- The ranges `(start, length)` of the running command; none while idle or for a command that does not use
the buffer. -/
def ownedRanges (s : State) : List (Nat × Nat) :=
  match s.phase with
  | .idle | .pNop | .pDouble | .pHalve | .pTwgen => []
  | .pXex => [(s.off.toNat, 16)]
  | .pSwap => [(s.off.toNat, s.rem.toNat), (s.off.toNat + 16, s.rem.toNat)]
  | .sBodyX | .sBodyD | .sLast | .sE1 | .sE2 | .sE3 | .sE4 | .sD1 | .sD2 | .sD3 | .sD4 | .sD5 =>
    [(s.off.toNat, s.len.toNat)]

/-- Whether two ranges share a byte. -/
def rangesMeet (p q : Nat × Nat) : Bool :=
  decide (0 < p.2) && decide (0 < q.2) && decide (p.1 < q.1 + q.2) && decide (q.1 < p.1 + p.2)

/-- Whether the running command of `s` owns a byte of `a .. a + n - 1`. -/
def owns (s : State) (a n : Nat) : Bool := (ownedRanges s).any (rangesMeet (a, n))

end Sys2Proof.Machine
end

