-- ==== Sys2Proof/Machine/BlockTransform.lean ====
section
/-! DEFINITION. The XEX block transform and the commands XEXE and XEXD (42_block_transform.md). -/

namespace Sys2Proof.Machine

/-- `Xex(dir, t, p)` on 128-bit values, under K1 of the attached cipher (42_block_transform.md R140). -/
def xex (s : State) (dir : Dir) (t p : Block) : Block := cipherFn s .k1 dir (p ^^^ t) ^^^ t

/-- `XexAt(dir, a)`: read 16 bytes, xor T, one cipher request under K1, xor T, write in place
(42_block_transform.md R140, R143). -/
def xexAt (dir : Dir) (a : Nat) (s : State) : Result State := do
  let (p, s1) ← memRead a 16 s
  let (y, s2) ← cipherCall .k1 dir (leBlock p ^^^ s.t) s1
  memWrite a (blockBytes (y ^^^ s.t)) s2

/-- Acceptance of XEXE (42_block_transform.md R141). -/
def acceptXexe (s : State) : State := accept (blockCheck s) (enterDirected (opcode .xexe) .pXex) s

/-- Acceptance of XEXD (42_block_transform.md R142). -/
def acceptXexd (s : State) : State := accept (blockCheck s) (enterDirected (opcode .xexd) .pXex) s

/-- The step of P_XEX: `XexAt(DIRL, OFF)` (42_block_transform.md R141, R142). -/
def stepXex (s : State) : Result State := do
  let s1 ← xexAt s.dirl (offAddr s) s
  return complete s1

/-- XEXE (42_block_transform.md R141). -/
def execXexe (s : State) : Host.Outcome State Fault Refusal := runCommand s (acceptXexe s) stepXex

/-- XEXD (42_block_transform.md R142). -/
def execXexd (s : State) : Host.Outcome State Fault Refusal := runCommand s (acceptXexd s) stepXex

end Sys2Proof.Machine
end

