-- ==== Sys2Proof/Machine/Galois.lean ====
section
/-! DEFINITION. The arithmetic of GF(2^128) and the commands DOUBLE and HALVE (40_gf_arithmetic.md). -/

namespace Sys2Proof.Machine

/-- The reduction constant 0x87, xored in when the carry is set (00_scope.md R7, 40_gf_arithmetic.md R110). -/
def reduction (c : Bool) : Block := if c then 0x87#128 else 0#128

/-- `Double`: the shifted and reduced value, and the carry `t[127]` (40_gf_arithmetic.md R110). -/
def gfDouble (t : Block) : Block × Bool :=
  let c := t.getLsbD 127
  ((t <<< 1) ^^^ reduction c, c)

/-- `Halve` (40_gf_arithmetic.md R112). -/
def gfHalve (t : Block) (c : Bool) : Block :=
  ((t ^^^ reduction c) >>> 1) ||| (if c then 1#128 <<< 127 else 0#128)

/-- `T_j`, `j` applications of `Double` (40_gf_arithmetic.md R119). -/
def tweakAt (t0 : Block) : Nat → Block
  | 0 => t0
  | j + 1 => (gfDouble (tweakAt t0 j)).1

/-- The loop of 40_gf_arithmetic.md R111 over the bytes that are left: the shifted bytes and the last carry. -/
def shiftBytes : Bool → List Byte → List Byte × Bool
  | carry, [] => ([], carry)
  | carry, b :: bs =>
    let rest := shiftBytes (b.getLsbD 7) bs
    (((b <<< 1) ||| (if carry then 1#8 else 0#8)) :: rest.1, rest.2)

/-- `Double` byte by byte (40_gf_arithmetic.md R111). -/
def gfDoubleBytes (bs : List Byte) : List Byte × Bool :=
  match shiftBytes false bs with
  | (b :: rest, true) => ((b ^^^ 0x87#8) :: rest, true)
  | r => r

/-- `(T, CF) <- Double(T)` (40_gf_arithmetic.md R114, 43_sector_processor.md R156). -/
def doubleTweak (s : State) : State := { s with t := (gfDouble s.t).1, cf := (gfDouble s.t).2 }

/-- `T <- Halve(T, CF)` (40_gf_arithmetic.md R115, 43_sector_processor.md R156). -/
def halveTweak (s : State) : State := { s with t := gfHalve s.t s.cf }

/-- Acceptance of DOUBLE (40_gf_arithmetic.md R114). -/
def acceptDouble (s : State) : State := accept (tweakCheck s) (enterPhase (opcode .double) .pDouble) s

/-- The step of P_DOUBLE (40_gf_arithmetic.md R114). -/
def stepDouble (s : State) : Result State := .ok (complete (doubleTweak s))

/-- DOUBLE (40_gf_arithmetic.md R114). -/
def execDouble (s : State) : Host.Outcome State Fault Refusal := runCommand s (acceptDouble s) stepDouble

/-- Acceptance of HALVE (40_gf_arithmetic.md R115). -/
def acceptHalve (s : State) : State := accept (tweakCheck s) (enterPhase (opcode .halve) .pHalve) s

/-- The step of P_HALVE (40_gf_arithmetic.md R115). -/
def stepHalve (s : State) : Result State := .ok (complete (halveTweak s))

/-- HALVE (40_gf_arithmetic.md R115). -/
def execHalve (s : State) : Host.Outcome State Fault Refusal := runCommand s (acceptHalve s) stepHalve

end Sys2Proof.Machine
end

