-- ==== Sys2Proof/Machine/Stealing.lean ====
section
/-! DEFINITION. Ciphertext stealing: the byte swap and CTSSWAP (44_ciphertext_stealing.md). -/

namespace Sys2Proof.Machine

/-- `Swap(A, r)`: both reads before both writes (44_ciphertext_stealing.md R180). -/
def swapAt (a r : Nat) (s : State) : Result State := do
  let (h, s1) ← memRead a r s
  let (tail, s2) ← memRead (a + 16) r s1
  let s3 ← memWrite a tail s2
  memWrite (a + 16) h s3

/-- What acceptance of CTSSWAP latches: REM <- rem, OPL, PHASE (46_system.md R212, 10_state.md R41). -/
def enterSwap (rem : BitVec 4) (s : State) : State :=
  enterPhase (opcode (.ctsswap rem)) .pSwap { s with rem := rem }

/-- Acceptance of CTSSWAP (44_ciphertext_stealing.md R181). -/
def acceptCtsswap (rem : BitVec 4) (s : State) : State := accept (swapCheck rem s) (enterSwap rem) s

/-- The step of P_SWAP: `Swap(OFF, REM)` (44_ciphertext_stealing.md R181). -/
def stepSwap (s : State) : Result State := do
  let s1 ← swapAt (offAddr s) s.rem.toNat s
  return complete s1

/-- CTSSWAP rem (44_ciphertext_stealing.md R181). -/
def execCtsswap (rem : BitVec 4) (s : State) : Host.Outcome State Fault Refusal :=
  runCommand s (acceptCtsswap rem s) stepSwap

end Sys2Proof.Machine
end

