-- ==== Sys2Proof/Machine/Sector.lean ====
section
/-! DEFINITION. The sector processor: the big step as a function of the sector's bytes, the phases of the
sequencer, and the commands SECTE and SECTD (43_sector_processor.md). -/

namespace Sys2Proof.Machine

/-! ### The procedure as a function (43_sector_processor.md R154) -/

/-- Bytes 16j to 16j+15 of a byte sequence, as a block (43_sector_processor.md R154). -/
def blockAt (bs : List Byte) (j : Nat) : Block := leBlock ((bs.drop (16 * j)).take 16)

/-- The last full block and the tail (43_sector_processor.md R154): `last` is block N-1, `tail` the bytes after
it, `tPrev` is `T_(N-1)`, `tNext` is `T_N`. -/
def sectorEnd (E : Dir → Block → Block → Block) (dir : Dir) (tPrev tNext last : Block) (tail : List Byte) :
    List Byte :=
  if tail = [] then blockBytes (E dir tPrev last)
  else match dir with
    | .enc =>
      let cc := blockBytes (E .enc tPrev last)
      blockBytes (E .enc tNext (leBlock (tail ++ cc.drop tail.length))) ++ cc.take tail.length
    | .dec =>
      let pp := blockBytes (E .dec tNext last)
      blockBytes (E .dec tPrev (leBlock (tail ++ pp.drop tail.length))) ++ pp.take tail.length

/-- `SectorFn(dir, t0, s)` for a transform `E dir t p`, the `Xex` of the rule (43_sector_processor.md R154). -/
def sectorFn (E : Dir → Block → Block → Block) (dir : Dir) (t0 : Block) (bs : List Byte) : List Byte :=
  let N := bs.length / 16
  (List.range (N - 1)).flatMap (fun j => blockBytes (E dir (tweakAt t0 j) (blockAt bs j))) ++
    sectorEnd E dir (tweakAt t0 (N - 1)) (tweakAt t0 N) (blockAt bs (N - 1)) (bs.drop (16 * N))

/-! ### The phases (43_sector_processor.md R156) -/

/-- `TailEntry` (43_sector_processor.md R156). -/
def tailEntry (s : State) : Phase :=
  if s.rem = 0#4 then .sLast
  else match s.dirl with
    | .enc => .sE1
    | .dec => .sD1

/-- What acceptance of a sector command latches (43_sector_processor.md R156, 10_state.md R41, R42). -/
def enterSector (opc : BitVec 8) (s : State) : State :=
  let s1 := { s with
    n := blockCount s.len, rem := remainder s.len, j := 0#28, opl := opc, dirl := opcodeDir opc }
  goto (if 2 ≤ s1.n.toNat then .sBodyX else tailEntry s1) s1

/-- S_BODY_X: `XexAt(dir, OFF + 16 * J)`. -/
def stepBodyX (s : State) : Result State := do
  let s1 ← xexAt s.dirl (bodyAddr s) s
  return goto .sBodyD s1

/-- S_BODY_D: `(T, CF) <- Double(T)`, `J <- J + 1`, back to S_BODY_X while the new J is at most N - 2. -/
def stepBodyD (s : State) : Result State :=
  let s1 := { doubleTweak s with j := s.j + 1#28 }
  .ok (goto (if s1.j.toNat + 2 ≤ s1.n.toNat then .sBodyX else tailEntry s1) s1)

/-- S_LAST: `XexAt(dir, A)`, finish. -/
def stepLast (s : State) : Result State := do
  let s1 ← xexAt s.dirl (lastAddr s) s
  return finish s1

/-- S_E1: the canonical pass, `XexAt(ENC, A)` with `T_(N-1)`. -/
def stepE1 (s : State) : Result State := do
  let s1 ← xexAt .enc (lastAddr s) s
  return goto .sE2 s1

/-- S_E2: `(T, CF) <- Double(T)`. -/
def stepE2 (s : State) : Result State := .ok (goto .sE3 (doubleTweak s))

/-- S_E3: `Swap(A, REM)`. -/
def stepE3 (s : State) : Result State := do
  let s1 ← swapAt (lastAddr s) s.rem.toNat s
  return goto .sE4 s1

/-- S_E4: `XexAt(ENC, A)` with `T_N`, finish. -/
def stepE4 (s : State) : Result State := do
  let s1 ← xexAt .enc (lastAddr s) s
  return finish s1

/-- S_D1: `(T, CF) <- Double(T)`. -/
def stepD1 (s : State) : Result State := .ok (goto .sD2 (doubleTweak s))

/-- S_D2: `XexAt(DEC, A)` with `T_N`. -/
def stepD2 (s : State) : Result State := do
  let s1 ← xexAt .dec (lastAddr s) s
  return goto .sD3 s1

/-- S_D3: `T <- Halve(T, CF)`, which restores `T_(N-1)` (43_sector_processor.md R160, R174). -/
def stepD3 (s : State) : Result State := .ok (goto .sD4 (halveTweak s))

/-- S_D4: `Swap(A, REM)`. -/
def stepD4 (s : State) : Result State := do
  let s1 ← swapAt (lastAddr s) s.rem.toNat s
  return goto .sD5 s1

/-- S_D5: `XexAt(DEC, A)` with `T_(N-1)`, finish. -/
def stepD5 (s : State) : Result State := do
  let s1 ← xexAt .dec (lastAddr s) s
  return finish s1

/-- One step of a sector command (43_sector_processor.md R155, R156); in any other phase nothing happens. -/
def sectorStep (s : State) : Result State :=
  match s.phase with
  | .sBodyX => stepBodyX s
  | .sBodyD => stepBodyD s
  | .sLast => stepLast s
  | .sE1 => stepE1 s
  | .sE2 => stepE2 s
  | .sE3 => stepE3 s
  | .sE4 => stepE4 s
  | .sD1 => stepD1 s
  | .sD2 => stepD2 s
  | .sD3 => stepD3 s
  | .sD4 => stepD4 s
  | .sD5 => stepD5 s
  | .idle | .pNop | .pDouble | .pHalve | .pTwgen | .pXex | .pSwap => .ok s

/-- The steps of the end of a sector command, from TailEntry on (43_sector_processor.md R169). -/
def tailSteps (s : State) : Nat :=
  if s.rem = 0#4 then 1
  else match s.dirl with
    | .enc => 4
    | .dec => 5

/-- How many steps the running command still takes (43_sector_processor.md R169, 70_reset_and_hazards.md R278). -/
def stepsLeft (s : State) : Nat :=
  match s.phase with
  | .idle => 0
  | .pNop | .pDouble | .pHalve | .pTwgen | .pXex | .pSwap => 1
  | .sBodyX => 2 * (s.n.toNat - 1 - s.j.toNat) + tailSteps s
  | .sBodyD => 2 * (s.n.toNat - 1 - s.j.toNat) - 1 + tailSteps s
  | .sLast => 1
  | .sE1 => 4
  | .sE2 => 3
  | .sE3 => 2
  | .sE4 => 1
  | .sD1 => 5
  | .sD2 => 4
  | .sD3 => 3
  | .sD4 => 2
  | .sD5 => 1

/-- `k` steps of a sector command. -/
def sectorRun : Nat → State → Result State
  | 0, s => .ok s
  | k + 1, s => do
    let s1 ← sectorStep s
    sectorRun k s1

/-! ### The commands -/

/-- Acceptance of SECTE (43_sector_processor.md R153, R166). -/
def acceptSecte (s : State) : State := accept (sectorCheck s) (enterSector (opcode .secte)) s

/-- Acceptance of SECTD (43_sector_processor.md R153, R167). -/
def acceptSectd (s : State) : State := accept (sectorCheck s) (enterSector (opcode .sectd)) s

/-- SECTE (43_sector_processor.md R166). -/
def execSecte (s : State) : Host.Outcome State Fault Refusal :=
  runCommand s (acceptSecte s) fun s1 => sectorRun (stepsLeft s1) s1

/-- SECTD (43_sector_processor.md R167). -/
def execSectd (s : State) : Host.Outcome State Fault Refusal :=
  runCommand s (acceptSectd s) fun s1 => sectorRun (stepsLeft s1) s1

end Sys2Proof.Machine
end

