-- ==== Sys2Proof/Machine/System.lean ====
section
/-! DEFINITION. NOP (46_system.md R214), and the acceptance of a reserved word (30_encoding.md R96). -/

namespace Sys2Proof.Machine

/-- Acceptance of NOP: no check, phase P_NOP (46_system.md R214, R215). -/
def acceptNop (s : State) : State := accept none (enterPhase (opcode .nop) .pNop) s

/-- The step of P_NOP: `complete` (46_system.md R214). -/
def stepNop (s : State) : Result State := .ok (complete s)

/-- NOP (46_system.md R214). -/
def execNop (s : State) : Host.Outcome State Fault Refusal := runCommand s (acceptNop s) stepNop

/-- A write of a reserved word to CMD: the error IllegalCommand, before every other check (30_encoding.md R96,
60_exceptions.md R232, R237). -/
def acceptReserved (s : State) : State := accept (some .illegalCommand) id s

end Sys2Proof.Machine
end

