-- ==== Sys2Proof/Machine/TweakGen.lean ====
section
/-! DEFINITION. The tweak generator: TWGEN (41_tweak_generator.md). -/

namespace Sys2Proof.Machine

/-- `TweakGen(K2, s)` for the cipher and the keys as they are bound (41_tweak_generator.md R130): the index is
truncated to 128 bits. -/
def tweakGen (s : State) (sectorIndex : Nat) : Block := cipherFn s .k2 .enc (BitVec.ofNat 128 sectorIndex)

/-- Acceptance of TWGEN: no check (41_tweak_generator.md R131). -/
def acceptTwgen (s : State) : State := accept none (enterPhase (opcode .twgen) .pTwgen) s

/-- The step of P_TWGEN: one request `(K2, ENC, SIDX)`, the answer to T, TV <- 1 (41_tweak_generator.md R131,
R132). -/
def stepTwgen (s : State) : Result State := do
  let (y, s1) ← cipherCall .k2 .enc s.sidx s
  return complete { s1 with t := y, tv := true }

/-- TWGEN (41_tweak_generator.md R131). -/
def execTwgen (s : State) : Host.Outcome State Fault Refusal := runCommand s (acceptTwgen s) stepTwgen

end Sys2Proof.Machine
end

