-- ==== Sys2Proof/Machine/Dispatch.lean ====
section
/-! DEFINITION. The meaning of each command: its whole run, from the write to CMD to its end (46_system.md R218). -/

namespace Sys2Proof.Machine

def exec (i : Instr) (s : State) : Host.Outcome State Fault Refusal :=
  match i with
  | .nop => Sys2Proof.Machine.execNop s
  | .double => Sys2Proof.Machine.execDouble s
  | .halve => Sys2Proof.Machine.execHalve s
  | .twgen => Sys2Proof.Machine.execTwgen s
  | .xexe => Sys2Proof.Machine.execXexe s
  | .xexd => Sys2Proof.Machine.execXexd s
  | .ctsswap rem => Sys2Proof.Machine.execCtsswap rem s
  | .secte => Sys2Proof.Machine.execSecte s
  | .sectd => Sys2Proof.Machine.execSectd s

end Sys2Proof.Machine
end

