-- ==== Sys2Proof/Machine/Sequencer.lean ====
section
/-! DEFINITION. The sequencer: one step of whatever command is running, and the acceptance of a command word
without its steps (43_sector_processor.md R155, 46_system.md R212, R215). -/

namespace Sys2Proof.Machine

/-- One step of the running command (43_sector_processor.md R155, 46_system.md R215); an idle unit does
nothing. -/
def seqStep (s : State) : Result State :=
  match s.phase with
  | .idle => .ok s
  | .pNop => stepNop s
  | .pDouble => stepDouble s
  | .pHalve => stepHalve s
  | .pTwgen => stepTwgen s
  | .pXex => stepXex s
  | .pSwap => stepSwap s
  | .sBodyX | .sBodyD | .sLast | .sE1 | .sE2 | .sE3 | .sE4 | .sD1 | .sD2 | .sD3 | .sD4 | .sD5 => sectorStep s

/-- `k` steps of the sequencer. -/
def seqRun : Nat → State → Result State
  | 0, s => .ok s
  | k + 1, s => do
    let s1 ← seqStep s
    seqRun k s1

/-- Acceptance of a command (46_system.md R212). -/
def acceptInstr (i : Instr) (s : State) : State :=
  match i with
  | .nop => acceptNop s
  | .double => acceptDouble s
  | .halve => acceptHalve s
  | .twgen => acceptTwgen s
  | .xexe => acceptXexe s
  | .xexd => acceptXexd s
  | .ctsswap rem => acceptCtsswap rem s
  | .secte => acceptSecte s
  | .sectd => acceptSectd s

/-- Acceptance of a command word: decode, then the command's own acceptance (46_system.md R212). -/
def acceptWord (w : Word) (s : State) : State :=
  match decode w with
  | .ok i => acceptInstr i s
  | .error _ => acceptReserved s

end Sys2Proof.Machine
end

