-- ==== Sys2Proof/Machine/HostPort.lean ====
section
/-! DEFINITION. What the outside world does to XTSU: the register port, the buffer accesses of other agents,
the key bindings and the reset input (10_state.md R34 to R39, 46_system.md R210, R211, 20_memory.md R61, R79,
70_reset_and_hazards.md R260 to R262, R275). -/

namespace Sys2Proof.Machine

/-! ### The register port -/

/-- A host write `(idx, wdata)` (46_system.md R210). A write while BUSY = 1 changes nothing (10_state.md R39);
a write to CMD is the acceptance of a command (10_state.md R35). -/
def hostWrite (idx : BitVec 4) (wdata : Block) (s : State) : State :=
  if s.busy then s
  else match idx.toNat with
    | 0 => acceptWord (wdata.extractLsb' 0 32) s
    | 2 => { s with off := wdata.extractLsb' 0 32 }
    | 3 => { s with len := wdata.extractLsb' 0 32 }
    | 4 => { s with t := wdata, tv := true }
    | 5 => { s with sidx := wdata }
    | 6 => { s with cf := wdata.getLsbD 0 }
    | _ => s

/-- A host read whose answer is unspecified: a free value (10_state.md R22, R39; log 10). -/
def readUnspecified (s : State) : State :=
  { s with rdata := Config.freeRead s.unitNo s.draws, draws := s.draws + 1 }

/-- A host read `(idx)` (46_system.md R211); the answer is left in `rdata`. T and CF answer by BUSY alone, as R211 has
it, also where no read of STATUS has returned DONE = 1 yet (70_reset_and_hazards.md R274; DEDUCED, log 26). -/
def hostRead (idx : BitVec 4) (s : State) : State :=
  match idx.toNat with
  | 1 => { s with rdata := statusWord s }
  | 2 => { s with rdata := s.off.setWidth 128 }
  | 3 => { s with rdata := s.len.setWidth 128 }
  | 4 => if s.tv && !s.busy then { s with rdata := s.t } else readUnspecified s
  | 5 => { s with rdata := s.sidx }
  | 6 => if s.busy then readUnspecified s else { s with rdata := flagBit 0 s.cf }
  | _ => { s with rdata := 0#128 }

/-- A write of a command word to CMD and the whole run it starts (46_system.md R218). -/
def commandWord (w : Word) (s : State) : Host.Outcome State Fault Refusal :=
  match decode w with
  | .ok i => exec i s
  | .error _ => .next (acceptReserved s)

/-! ### The sequencer's turn -/

/-- The sequencer's turn: one step while BUSY = 1, nothing while idle (43_sector_processor.md R155,
70_reset_and_hazards.md R260; log 19). -/
def advance (s : State) : Host.Outcome State Fault Refusal := toOutcome (seqStep s)

/-- One poll of WAIT: a read of STATUS; while DONE = 0 the sequencer takes its turn and WAIT goes on
(45_host_sequences.md R203; log 18). -/
def waitTurn (s : State) : Host.Outcome State Fault Refusal :=
  let s1 := hostRead 1#4 s
  if s1.done then .next s1 else advance { s1 with inbox := .wait :: s1.inbox }

/-! ### Other agents on the buffer (20_memory.md R60, R61, R79; log 12, log 14) -/

/-- A read of buffer bytes by another agent. Once the command has completed (PHASE = IDLE) it returns the final bytes,
whether or not a read of STATUS has returned DONE = 1: 20_memory.md R78 and 70_reset_and_hazards.md R274 promise them
only after that read (DESIGN CHOICE, log 26). -/
def agentRead (a n : Nat) (s : State) : Host.Outcome State Fault Refusal :=
  if !inBuffer s a n then .fault .outsideBuffer
  else if owns s a n then .refused .bufferRace
  else .next { s with bdata := s.mem.readBytes a n }

/-- A write of buffer bytes by another agent. Once the command has completed it comes after all of the command's
accesses, whether or not a read of STATUS has returned DONE = 1 (20_memory.md R78, R81; DESIGN CHOICE, log 26). -/
def agentWrite (a : Nat) (bs : List Byte) (s : State) : Host.Outcome State Fault Refusal :=
  if !inBuffer s a bs.length then .fault .outsideBuffer
  else if owns s a bs.length then .refused .bufferRace
  else .next { s with mem := s.mem.writeBytes a bs }

/-! ### Keys and reset -/

/-- Whether a binding of these keys changes the keys of a running command. A binding of the very keys that are
bound changes nothing at the cipher, so R275 does not speak of it (70_reset_and_hazards.md R275, 93 U9; DEDUCED,
log 13). -/
def changesKeysWhileBusy (k1 k2 : Key) (s : State) : Bool := s.busy && !decide (k1 = s.k1 ∧ k2 = s.k2)

/-- The host binds the keys at the cipher (45_host_sequences.md R190, 70_reset_and_hazards.md R265, R275). A
binding of the keys that are bound already is allowed at any time (DEDUCED, log 13). -/
def bindKeys (k1 k2 : Key) (s : State) : Host.Outcome State Fault Refusal :=
  if changesKeysWhileBusy k1 k2 s then .refused .keysChangedWhileBusy else .next { s with k1 := k1, k2 := k2 }

/-- Free bytes written over `a .. a + n - 1` (70_reset_and_hazards.md R262, 93 U8). -/
def scrambleRange (u d : Nat) (m : Memory) (r : Nat × Nat) : Memory :=
  m.writeBytes r.1 ((List.range r.2).map fun i => Config.freeByte u d (r.1 + i))

/-- What reset leaves of the buffer: untouched (R261), but for the range of a command it ended, whose bytes may
hold any value (R262, 93 U8; log 11). -/
def resetMemory (s : State) : Memory := (ownedRanges s).foldl (scrambleRange s.unitNo s.draws) s.mem

/-- The reset input (70_reset_and_hazards.md R260 to R262): XTSU's state takes the values of `State.reset`; the
buffer, the keys, the platform's parameters and the host are not XTSU state. -/
def resetUnit (s : State) : State :=
  { State.reset with
    mem := resetMemory s
    bufBytes := s.bufBytes
    cipher := s.cipher
    k1 := s.k1
    k2 := s.k2
    inbox := s.inbox
    rdata := s.rdata
    bdata := s.bdata
    portLog := s.portLog
    draws := s.draws + 1
    unitNo := s.unitNo }

/-! ### The turns of the host and the other agents -/

/-- One action of the inbox, already taken off it (log 2). -/
def hostAct (a : HostAction) (s : State) : Host.Outcome State Fault Refusal :=
  match a with
  | .pass => advance s
  | .command w => commandWord w s
  | .write idx wdata => .next (hostWrite idx wdata s)
  | .read idx => .next (hostRead idx s)
  | .wait => waitTurn s
  | .bufRead a n => agentRead a n s
  | .bufWrite a bs => agentWrite a bs s
  | .bindKeys k1 k2 => bindKeys k1 k2 s
  | .reset => .next (resetUnit s)

/-- One step of the machine: the next action of the inbox, or the sequencer's turn when there is none. -/
def nextStep (s : State) : Host.Outcome State Fault Refusal :=
  match s.inbox with
  | [] => advance s
  | a :: rest => hostAct a { s with inbox := rest }

/-- `s` with a command word as the next thing the host does, and the unit ready to take it (log 2). -/
def placeCommand (w : Word) (s : State) : State := { s with inbox := .command w :: s.inbox, phase := .idle }

end Sys2Proof.Machine
end

