-- ==== Sys2Proof/Machine/Step.lean ====
section
/-! DEFINITION. One step of the machine, and how the host places a command word before it. -/

namespace Sys2Proof.Machine

/-- One step: the next action of the host, or the sequencer's turn (43_sector_processor.md R155, 46_system.md
R210). -/
def step (s : State) : Host.Outcome State Fault Refusal := nextStep s

/-- `s` with the command word `w` as what the next step takes (30_encoding.md R90: one 32-bit word; bits above
`nbits` are 0). XTSU has no fetch: the host writes command words (log 2). -/
def State.withFetchWord (s : State) (nbits w : Nat) : State := placeCommand (BitVec.ofNat 32 (w % 2 ^ nbits)) s

end Sys2Proof.Machine
end

