-- ==== Sys2Proof/Machine/HostSequences.lean ====
section
/-! DEFINITION. The Codec API as sequences of host transactions (45_host_sequences.md; log 21). -/

namespace Sys2Proof.Machine

/-- What a call of the Codec API returns (45_host_sequences.md R192, R194, R204, 60_exceptions.md R235, R236). -/
inductive CodecResult where
  | success
  | invalidKeyLength
  | invalidSectorSize
  | sectorTooShort
  /-- One of XTSU's own codes, for which the source has no name (R204). -/
  | commandFailed (code : BitVec 4)
deriving DecidableEq, Repr

/-- What a call ends with: its result and the machine's state. -/
abbrev CodecOutcome := Host.Outcome (CodecResult × State) Fault Refusal

/-! ### Keys (45_host_sequences.md R190, R191) -/

/-- K1 and K2: the first and the second half of the key (R190). -/
def splitKey (key : List Byte) : Key × Key := (key.take (key.length / 2), key.drop (key.length / 2))

/-- `ValidKeyLen(h)` of the attached cipher (R191): TOY128 takes 16-byte keys, the external cipher's lengths are
a parameter. -/
def validHalf (c : CipherUnit) (h : Nat) : Bool :=
  match c with
  | .external => Config.validKeyLen h
  | .toy128 => h == 16

/-- The check of the key: even length, each half a valid key (R191). -/
def keyValid (c : CipherUnit) (key : List Byte) : Bool :=
  key.length % 2 == 0 && validHalf c (key.length / 2)

/-! ### One sector (45_host_sequences.md R192, R193) -/

/-- The sector command of a direction (30_encoding.md R94). -/
def sectorCommand : Dir → Instr
  | .enc => .secte
  | .dec => .sectd

/-- `WAIT`: the sequencer runs until the command in hand is over, and the last read of STATUS is left in `rdata`
(30_encoding.md R104, R203). -/
def waitDone (s : State) : Host.Outcome State Fault Refusal :=
  andThen (toOutcome (seqRun (stepsLeft s) s)) fun s1 => .next (hostRead 1#4 s1)

/-- `RUN <command>`: the write to CMD, then WAIT (30_encoding.md R104). -/
def runAndWait (i : Instr) (s : State) : Host.Outcome State Fault Refusal :=
  andThen (commandWord (encode i) s) waitDone

/-- Whether an address fits OFF and a length fits LEN (10_state.md R23, R25, R192). -/
def fitsRegisters (addr length : Nat) : Bool := decide (addr < 2 ^ 32) && decide (length < 2 ^ 32)

/-- The error of a sector command on a region that OFF and LEN cannot express: as any array outside the buffer,
BufferRange, which is the last of the errors in the order of R237 (R192, 60_exceptions.md R237). -/
def unfitError (length : Nat) (s : State) : ErrorCause :=
  if length < 16 then .sectorTooShort else if !s.tv then .tweakInvalid else .bufferRange

/-- Step 6 of R192: the sector command on `length` bytes at `addr`, then WAIT. On a region that OFF and LEN cannot
express it ends in its error, as R192 says of an array outside the buffer. -/
def runSector (dir : Dir) (addr length : Nat) (s : State) : Host.Outcome State Fault Refusal :=
  if fitsRegisters addr length then runAndWait (sectorCommand dir) s
  else waitDone (accept (some (unfitError length s)) id s)

/-- Step 7 of R192: the error in STATUS, as the call reports it (R204). -/
def codecResult (s : State) : CodecResult :=
  if s.rdata.getLsbD 2 then
    if s.rdata.extractLsb' 8 4 = ErrorCause.code .sectorTooShort then .sectorTooShort
    else .commandFailed (s.rdata.extractLsb' 8 4)
  else .success

/-- Steps 2 to 6 of R192: one sector, its index reduced to 128 bits (R200). -/
def sectorCall (dir : Dir) (sectorIndex addr length : Nat) (s : State) : CodecOutcome :=
  andThen (runAndWait .twgen (hostWrite 5#4 (BitVec.ofNat 128 sectorIndex) s)) fun s1 =>
    andThen (runSector dir addr length
        (hostWrite 3#4 (BitVec.ofNat 128 length) (hostWrite 2#4 (BitVec.ofNat 128 addr) s1))) fun s2 =>
      .next (codecResult s2, s2)

/-- Step 1 of R192: the key check, the split and the bindings (R190, R191). -/
def withKeys (key : List Byte) (s : State) (body : State → CodecOutcome) : CodecOutcome :=
  if keyValid s.cipher key then andThen (bindKeys (splitKey key).1 (splitKey key).2 s) body
  else .next (.invalidKeyLength, s)

/-- `EncryptXtsSector` and `DecryptXtsSector` on `len` bytes at `base` (R192, R193). -/
def cryptSector (dir : Dir) (key : List Byte) (sectorIndex base len : Nat) (s : State) : CodecOutcome :=
  withKeys key s (sectorCall dir sectorIndex base len)

/-! ### Several sectors (45_host_sequences.md R194 to R202) -/

/-- `count = ceil(length / sectorSize)` (R194). -/
def sectorCount (length sectorSize : Nat) : Nat := (length + sectorSize - 1) / sectorSize

/-- `len_i` (R194, R196). -/
def sectorLength (length sectorSize i : Nat) : Nat :=
  if i + 1 < sectorCount length sectorSize then sectorSize else (length - 1) % sectorSize + 1

/-- Step 4 of R194 for the `k` sectors from number `i` on; the first error ends the call (R199). -/
def sectorLoop (dir : Dir) (start base length sectorSize : Nat) : Nat → Nat → State → CodecOutcome
  | 0, _, s => .next (.success, s)
  | k + 1, i, s =>
    andThen (sectorCall dir (start + i) (base + i * sectorSize) (sectorLength length sectorSize i) s) fun r =>
      if r.1 = .success then sectorLoop dir start base length sectorSize k (i + 1) r.2 else .next r

/-- `EncryptXts` and `DecryptXts` on `length` bytes at `base` (R194, R195): the key is checked before the sector
size (R238), and both before the keys are bound (R197). An empty array has no sector, and nothing changes, the
bindings included (R202). -/
def cryptSectors (dir : Dir) (key : List Byte) (start base length sectorSize : Nat) (s : State) : CodecOutcome :=
  if !keyValid s.cipher key then .next (.invalidKeyLength, s)
  else if sectorSize < 16 then .next (.invalidSectorSize, s)
  else if length = 0 then .next (.success, s)
  else withKeys key s (sectorLoop dir start base length sectorSize (sectorCount length sectorSize) 0)

end Sys2Proof.Machine
end

