-- ==== Sys2Proof/Machine/Units.lean ====
section
/-! DEFINITION. A system of several XTSU instances over one buffer (60_exceptions.md R247 to R249, 20_memory.md
R80; log 17). -/

namespace Sys2Proof.Machine

/-- NUM_UNITS instances and the buffer they share (60_exceptions.md R247, R248). The `mem` field of an
instance is not used: the buffer is `mem`. -/
structure UnitSystem where
  units : List State
  mem : Memory
deriving DecidableEq, Repr

/-- An instance with the shared buffer in its place. -/
def UnitSystem.unitView (y : UnitSystem) (u : State) : State := { u with mem := y.mem }

/-- The bytes a transaction on the buffer port touched. -/
def PortEvent.touches : PortEvent → List (Nat × Nat)
  | .memRead a bs => [(a, bs.length)]
  | .memWrite a bs => [(a, bs.length)]
  | .request _ => []
  | .answer _ => []

/-- The bytes the next action of an instance's host touches by itself. -/
def hostTouches (u : State) : List (Nat × Nat) :=
  match u.inbox with
  | .bufRead a n :: _ => [(a, n)]
  | .bufWrite a bs :: _ => [(a, bs.length)]
  | _ => []

/-- Whether a step of one instance, from `u` to `u1`, is an access to the range of the running command of
another instance `v`, or leaves the two with ranges that meet (20_memory.md R79, R80, 93 U6). -/
def races (u u1 v : State) : Bool :=
  let touched := hostTouches u ++ ((u1.portLog.take (u1.portLog.length - u.portLog.length)).flatMap PortEvent.touches)
  (ownedRanges v).any fun r => (touched ++ ownedRanges u1).any (rangesMeet r)

/-- The reset input: it reaches every instance (70_reset_and_hazards.md R260). -/
def UnitSystem.resetAll (y : UnitSystem) : UnitSystem where
  units := y.units.map fun u => { resetUnit (y.unitView u) with mem := u.mem }
  mem := y.units.foldl (fun m u => resetMemory { u with mem := m }) y.mem

/-- The keys at the cipher are shared: a binding reaches every instance, and is refused when it changes the keys
of a busy one; a binding of the keys that are bound already is allowed at any time (60_exceptions.md R248,
70_reset_and_hazards.md R275; DEDUCED, log 13). -/
def UnitSystem.bindAll (k1 k2 : Key) (y : UnitSystem) : Host.Outcome UnitSystem Fault Refusal :=
  if y.units.any (changesKeysWhileBusy k1 k2) then .refused .keysChangedWhileBusy
  else .next { y with units := y.units.map fun u => { u with k1 := k1, k2 := k2 } }

/-- One turn of instance `k`, in state `u`, that is its own; the other instances do not move (60_exceptions.md
R247). A turn that breaks exclusivity is refused (20_memory.md R80, 93 U6). -/
def UnitSystem.turn (k : Nat) (u : State) (y : UnitSystem) : Host.Outcome UnitSystem Fault Refusal :=
  andThen (nextStep (y.unitView u)) fun u1 =>
    if (y.units.eraseIdx k).any (races (y.unitView u) u1) then .refused .bufferRace
    else .next { units := y.units.set k { u1 with mem := u.mem }, mem := u1.mem }

/-- One step of instance `k`: a turn of its own, or an action that reaches the whole system. -/
def UnitSystem.step (k : Nat) (y : UnitSystem) : Host.Outcome UnitSystem Fault Refusal :=
  match y.units[k]? with
  | none => .refused .noSuchUnit
  | some u =>
    match u.inbox with
    | .reset :: rest => .next (UnitSystem.resetAll { y with units := y.units.set k { u with inbox := rest } })
    | .bindKeys k1 k2 :: rest => UnitSystem.bindAll k1 k2 { y with units := y.units.set k { u with inbox := rest } }
    | [] | .pass :: _ | .command _ :: _ | .write _ _ :: _ | .read _ :: _ | .wait :: _ | .bufRead _ _ :: _
    | .bufWrite _ _ :: _ => UnitSystem.turn k u y

/-- The steps of a schedule, a list of instance numbers. -/
def UnitSystem.run : List Nat → UnitSystem → Host.Outcome UnitSystem Fault Refusal
  | [], y => .next y
  | k :: ks, y => andThen (UnitSystem.step k y) (UnitSystem.run ks)

end Sys2Proof.Machine
end

