-- ==== Sys2Proof/Safety.lean ====
section
/-! DEFINITION. What counts as a legal state of the machine, and the conditions statements are made under. -/

namespace Sys2Proof.Machine

/-- A state is quiescent when PHASE = IDLE (46_system.md R217). -/
def State.quiescent (s : State) : Prop := s.phase = .idle

/-- `DecryptBlock` and `EncryptBlock` of the attached cipher are inverses for every key: the assumption of
00_scope.md R13 about the collaborator, used only by the round-trip statements. -/
def CipherUnit.Correct (c : CipherUnit) : Prop :=
  ∀ (k : Key) (x : Block), c.apply .dec k (c.apply .enc k x) = x ∧ c.apply .enc k (c.apply .dec k x) = x

/-- The latches of a running command agree with the command and its operands (10_state.md R41, R42, 43_sector_processor.md
R153, R156, R157; 20_memory.md R64). -/
def LatchesOk (s : State) : Prop :=
  match s.phase with
  | .idle => True
  | .pNop => s.opl = opcode .nop
  | .pDouble => s.opl = opcode .double ∧ s.tv = true
  | .pHalve => s.opl = opcode .halve ∧ s.tv = true
  | .pTwgen => s.opl = opcode .twgen
  | .pXex => (s.opl = opcode .xexe ∨ s.opl = opcode .xexd) ∧ s.dirl = opcodeDir s.opl ∧ s.tv = true ∧
      s.off.toNat + 16 ≤ s.bufBytes
  | .pSwap => s.opl = opcode (.ctsswap s.rem) ∧ s.rem ≠ 0#4 ∧ s.off.toNat + 16 + s.rem.toNat ≤ s.bufBytes
  | p => (s.opl = opcode .secte ∨ s.opl = opcode .sectd) ∧ s.dirl = opcodeDir s.opl ∧ s.tv = true ∧
      16 ≤ s.len.toNat ∧ s.off.toNat + s.len.toNat ≤ s.bufBytes ∧ s.n = blockCount s.len ∧ s.rem = remainder s.len ∧
      (if p = .sBodyX ∨ p = .sBodyD then s.j.toNat + 2 ≤ s.n.toNat
        else s.j.toNat + 1 = s.n.toNat ∧
          (if p = .sLast then s.rem = 0#4
            else s.rem ≠ 0#4 ∧ (s.dirl = .enc ↔ p = .sE1 ∨ p = .sE2 ∨ p = .sE3 ∨ p = .sE4)))

/-- The invariant of the machine: every step keeps it. -/
structure State.Inv (s : State) : Prop where
  /-- The buffer's contents are in canonical form. -/
  memWf : s.mem.wf = true
  /-- No byte outside the buffer is listed (20_memory.md R60). -/
  memBelow : s.mem.below s.bufBytes = true
  /-- 16 <= BUF_BYTES <= 2^32 (00_scope.md R8). -/
  bufBytesOk : 16 ≤ s.bufBytes ∧ s.bufBytes ≤ 2 ^ 32
  /-- BUSY = 1 only with DONE = 0 and ERR = 0, and ERR = 1 only with DONE = 1 (10_state.md R31, R32, R36). -/
  statusOk : (s.busy = true → s.done = false ∧ s.err = false) ∧ (s.err = true → s.done = true)
  /-- ECODE is non-zero exactly when ERR = 1, and 5 to 15 are never produced (10_state.md R36, 60_exceptions.md
  R230). -/
  ecodeOk : (s.ecode ≠ 0#4 ↔ s.err = true) ∧ s.ecode.toNat ≤ 4
  /-- Between two steps no request is outstanding (10_state.md R50). -/
  inflightOk : s.inflight = none
  /-- The latches of a running command agree with its operands. -/
  latchesOk : LatchesOk s

/-! ### The errors of a command (60_exceptions.md R230 to R237) -/

/-- Whether a cause of 60_exceptions.md R231 to R234 applies to a command, whatever else is wrong. -/
def causeApplies (i : Instr) (s : State) : ErrorCause → Bool
  | .illegalCommand => !i.wf
  | .sectorTooShort =>
    match i with
    | .secte | .sectd => decide (s.len.toNat < 16)
    | .nop | .double | .halve | .twgen | .xexe | .xexd | .ctsswap _ => false
  | .tweakInvalid =>
    match i with
    | .double | .halve | .xexe | .xexd | .secte | .sectd => !s.tv
    | .nop | .twgen | .ctsswap _ => false
  | .bufferRange =>
    match i with
    | .xexe | .xexd => decide (s.off.toNat + 16 > s.bufBytes)
    | .ctsswap rem => decide (s.off.toNat + 16 + rem.toNat > s.bufBytes)
    | .secte | .sectd => decide (s.off.toNat + s.len.toNat > s.bufBytes)
    | .nop | .double | .halve | .twgen => false

/-- The order of 60_exceptions.md R237. -/
def errorOrder : List ErrorCause := [.illegalCommand, .sectorTooShort, .tweakInvalid, .bufferRange]

/-- The error a command ends in, if any: the first that applies (60_exceptions.md R237). -/
def firstCause (i : Instr) (s : State) : Option ErrorCause := errorOrder.find? (causeApplies i s)

/-! ### What a command stores, and what happened on the ports -/

/-- The byte ranges `(start, length)` a command stores to, by the address its meaning uses (10_state.md R26). -/
def storedRanges (i : Instr) (s : State) : List (Nat × Nat) :=
  match i with
  | .nop | .double | .halve | .twgen => []
  | .xexe | .xexd => [(offAddr s, blockWidth)]
  | .ctsswap rem => [(offAddr s, rem.toNat), (offAddr s + blockWidth, rem.toNat)]
  | .secte | .sectd => [(offAddr s, s.len.toNat)]

/-- Whether an address lies in one of the ranges. -/
def inRanges (rs : List (Nat × Nat)) (a : Nat) : Bool := rs.any fun r => decide (r.1 ≤ a) && decide (a < r.1 + r.2)

/-- The requests in a record of the ports, in its order. -/
def requestsOf (log : List PortEvent) : List CipherRequest :=
  log.filterMap fun e => match e with
    | .request r => some r
    | .memRead _ _ | .memWrite _ _ | .answer _ => none

/-- A transaction on a port without its data: its kind, and where it goes. -/
inductive PortShape where
  | read (addr n : Nat)
  | write (addr n : Nat)
  | request (ksel : KeySel) (op : Dir)
  | answer
deriving DecidableEq, Repr

/-- The shape of a transaction. -/
def PortEvent.shape : PortEvent → PortShape
  | .memRead a bs => .read a bs.length
  | .memWrite a bs => .write a bs.length
  | .request r => .request r.ksel r.op
  | .answer _ => .answer

/-- The transactions of `XexAt(dir, a)`, oldest first (42_block_transform.md R143). -/
def xexShapes (dir : Dir) (a : Nat) : List PortShape := [.read a 16, .request .k1 dir, .answer, .write a 16]

/-- The transactions of `Swap(a, r)`, oldest first: both reads before both writes (20_memory.md R71, R72). -/
def swapShapes (a r : Nat) : List PortShape := [.read a r, .read (a + 16) r, .write a r, .write (a + 16) r]

/-- `t` is `s` but for the latches N, REM, J, OPL and DIRL, which may hold any value after a command (10_state.md R41,
R42, 93 U14). -/
def SameButLatches (s t : State) : Prop :=
  ∃ n rem j opl dirl, t = { s with n := n, rem := rem, j := j, opl := opl, dirl := dirl }

/-- What no command changes: the operands only the host writes (10_state.md R23 to R25), the platform's
parameters, the keys and the model's own record of the host. -/
def hostSideSame (s t : State) : Prop :=
  t.sidx = s.sidx ∧ t.off = s.off ∧ t.len = s.len ∧ t.bufBytes = s.bufBytes ∧ t.cipher = s.cipher ∧ t.k1 = s.k1 ∧
    t.k2 = s.k2 ∧ t.inbox = s.inbox ∧ t.rdata = s.rdata ∧ t.bdata = s.bdata ∧ t.unitNo = s.unitNo

end Sys2Proof.Machine
end

