-- ==== Sys2Proof/Certificates/Slice0/Obligations.lean ====
section
/-! DEFINITION. The statements about XTSU that the provers are given. Where a statement rests on a choice of the
model and not on a rule of spec/, its docstring names the log entry. -/

open Sys2Proof Sys2Proof.Machine

/-! ### Encoding (30_encoding.md) -/

/-- Words written out from 30_encoding.md R94, R96, R102 (95_test_vectors.md W1 to W21) decode as they stand. -/
def Obligations.WordsOfTheOpcodeMapDecode : Prop :=
  decode 0x00000000#32 = .ok .nop ∧ decode 0x00000001#32 = .ok .double ∧ decode 0x00000002#32 = .ok .halve ∧
  decode 0x00000003#32 = .ok .twgen ∧ decode 0x00000004#32 = .ok .xexe ∧ decode 0x00000005#32 = .ok .xexd ∧
  decode 0x00000406#32 = .ok (.ctsswap 4#4) ∧ decode 0x00000F06#32 = .ok (.ctsswap 15#4) ∧
  decode 0x00000008#32 = .ok .secte ∧ decode 0x00000009#32 = .ok .sectd ∧
  decode 0x00000006#32 = .error .swapOfZero ∧ decode 0x00000007#32 = .error .opcode ∧
  decode 0x000000FF#32 = .error .opcode ∧ decode 0x00000101#32 = .error .immediate ∧
  decode 0x00001406#32 = .error .highBits ∧ decode 0x80000000#32 = .error .highBits

/-- Every well-formed command is read back from its word, with every value of the immediate. -/
def Obligations.DecodeOfEncodeIsTheCommand : Prop :=
  ∀ i : Instr, i.wf = true → decode (encode i) = .ok i

/-- Every legal word is the word of the command it decodes to, and that command is well formed: no bit is
dropped or ignored. -/
def Obligations.EncodeOfDecodeIsTheWord : Prop :=
  ∀ (w : Word) (i : Instr), decode w = .ok i → i.wf = true ∧ encode i = w

/-- 30_encoding.md R95: the decoding procedure, case by case, on every word. -/
def Obligations.DecodingFollowsTheFiveCases : Prop :=
  ∀ w : Word,
    (w.extractLsb' 12 20 ≠ 0#20 → ∃ e, decode w = .error e) ∧
    (w.extractLsb' 12 20 = 0#20 → w.extractLsb' 0 8 = 0x06#8 →
      (w.extractLsb' 8 4 ≠ 0#4 → decode w = .ok (.ctsswap (w.extractLsb' 8 4))) ∧
      (w.extractLsb' 8 4 = 0#4 → ∃ e, decode w = .error e)) ∧
    (∀ p ∈ [(0x00#8, Instr.nop), (0x01#8, .double), (0x02#8, .halve), (0x03#8, .twgen), (0x04#8, .xexe),
        (0x05#8, .xexd), (0x08#8, .secte), (0x09#8, .sectd)],
      w.extractLsb' 12 20 = 0#20 → w.extractLsb' 0 8 = p.1 →
        (w.extractLsb' 8 4 = 0#4 → decode w = .ok p.2) ∧ (w.extractLsb' 8 4 ≠ 0#4 → ∃ e, decode w = .error e)) ∧
    (w.extractLsb' 0 8 = 0x07#8 ∨ 0x0A#8 ≤ w.extractLsb' 0 8 → ∃ e, decode w = .error e)

/-- 30_encoding.md R97: the legal words are 8 of format C0 and 15 of CTSSWAP. -/
def Obligations.LegalWordsAreTwentyThree : Prop :=
  ∃ c0 c1 : List Word, c0.length = 8 ∧ c1.length = 15 ∧ (c0 ++ c1).Nodup ∧
    (∀ w : Word, w ∈ c0 ↔ ∃ i, decode w = .ok i ∧ ∀ rem, i ≠ .ctsswap rem) ∧
    ∀ w : Word, w ∈ c1 ↔ ∃ rem, decode w = .ok (.ctsswap rem)

/-- 30_encoding.md R96: the reserved words are those listed, and a write of one to CMD while BUSY = 0 ends at once
in IllegalCommand and changes nothing else, whether or not the run is taken as one transition. -/
def Obligations.ReservedWordsEndInIllegalCommand : Prop :=
  ∀ w : Word,
    ((∃ e, decode w = .error e) ↔
      w.extractLsb' 12 20 ≠ 0#20 ∨ w.extractLsb' 0 8 = 0x07#8 ∨ 0x0A#8 ≤ w.extractLsb' 0 8 ∨
      (w.extractLsb' 0 8 ≠ 0x06#8 ∧ w.extractLsb' 8 4 ≠ 0#4) ∨
      (w.extractLsb' 0 8 = 0x06#8 ∧ w.extractLsb' 8 4 = 0#4)) ∧
    ∀ (s : State) (rest : List HostAction), s.phase = .idle → (∃ e, decode w = .error e) →
      step { s with inbox := .command w :: rest } =
        .next { s with inbox := rest, done := true, err := true, ecode := 2#4 } ∧
      step { s with inbox := .write 0#4 (w.setWidth 128) :: rest } =
        .next { s with inbox := rest, done := true, err := true, ecode := 2#4 }

/-! ### The step and the register port (46_system.md, 10_state.md) -/

/-- A step runs the decoded command: the action is taken off the inbox, and the rest is `exec`. The command word
the host places is the one that runs next (log 2). -/
def Obligations.StepRunsTheDecodedCommand : Prop :=
  (∀ (s : State) (w : Word) (i : Instr) (rest : List HostAction), decode w = .ok i →
    step { s with inbox := .command w :: rest } = exec i { s with inbox := rest }) ∧
  ∀ (s : State) (i : Instr), i.wf = true →
    step (s.withFetchWord 32 (encode i).toNat) = exec i { s with phase := .idle }

/-- The sequencer moves on a turn with no transaction, and on an empty inbox; an idle unit stays as it is (log 19). -/
def Obligations.TurnsWithoutTransactionRunTheSequencer : Prop :=
  ∀ (s : State) (rest : List HostAction),
    (s.inbox = [] → step s = toOutcome (seqStep s)) ∧
    step { s with inbox := .pass :: rest } = toOutcome (seqStep { s with inbox := rest }) ∧
    (s.phase = .idle → seqStep s = .ok s)

/-- 46_system.md R212, R215: what acceptance leaves when no check fails. That DIRL keeps its value for the five
commands without a direction is the model's choice (log 8). -/
def Obligations.AcceptanceLatchesTheCommand : Prop :=
  ∀ (i : Instr) (s : State), s.phase = .idle → firstCause i s = none →
    let n := s.len.toNat / 16
    let first := fun (end0 end1 : Phase) =>
      if 2 ≤ n then Phase.sBodyX else if s.len.toNat % 16 = 0 then end0 else end1
    let s1 := { s with done := false, err := false, ecode := 0#4, opl := opcode i }
    acceptInstr i s = match i with
      | .nop => { s1 with phase := .pNop }
      | .double => { s1 with phase := .pDouble }
      | .halve => { s1 with phase := .pHalve }
      | .twgen => { s1 with phase := .pTwgen }
      | .xexe => { s1 with phase := .pXex, dirl := .enc }
      | .xexd => { s1 with phase := .pXex, dirl := .dec }
      | .ctsswap rem => { s1 with phase := .pSwap, rem := rem }
      | .secte => { s1 with
          phase := first .sLast .sE1, dirl := .enc, n := BitVec.ofNat 28 n
          rem := BitVec.ofNat 4 (s.len.toNat % 16), j := 0#28 }
      | .sectd => { s1 with
          phase := first .sLast .sD1, dirl := .dec, n := BitVec.ofNat 28 n
          rem := BitVec.ofNat 4 (s.len.toNat % 16), j := 0#28 }

/-- 10_state.md R39: while BUSY = 1 a write is lost, STATUS, OFF, LEN and SIDX read as they are, T and CF read as
some value; a command written then is lost too (46_system.md R219). That the values of T and CF are
`Config.freeRead` is the form the model gives "unspecified" (log 10), and that `exec` answers the same state is its
reading of R39 for a whole command (log 25). -/
def Obligations.HostAccessesWhileBusy : Prop :=
  ∀ s : State, s.busy = true →
    (∀ (idx : BitVec 4) (wdata : Block), hostWrite idx wdata s = s) ∧
    (∀ i : Instr, exec i s = .next s) ∧
    hostRead 1#4 s = { s with rdata := statusWord s } ∧
    hostRead 2#4 s = { s with rdata := s.off.setWidth 128 } ∧
    hostRead 3#4 s = { s with rdata := s.len.setWidth 128 } ∧
    hostRead 5#4 s = { s with rdata := s.sidx } ∧
    ∀ idx ∈ [4#4, 6#4], (hostRead idx s).rdata = Config.freeRead s.unitNo s.draws

/-- 46_system.md R210: a host write, index by index; while BUSY = 1 it changes nothing. -/
def Obligations.HostWriteSetsTheNamedRegister : Prop :=
  ∀ (s : State) (d : Block),
    (s.busy = true → ∀ idx : BitVec 4, hostWrite idx d s = s) ∧
    (s.busy = false →
      hostWrite 0#4 d s = acceptWord (d.extractLsb' 0 32) s ∧
      hostWrite 2#4 d s = { s with off := d.extractLsb' 0 32 } ∧
      hostWrite 3#4 d s = { s with len := d.extractLsb' 0 32 } ∧
      hostWrite 4#4 d s = { s with t := d, tv := true } ∧
      hostWrite 5#4 d s = { s with sidx := d } ∧
      hostWrite 6#4 d s = { s with cf := d.getLsbD 0 } ∧
      ∀ idx : BitVec 4, idx = 1#4 ∨ 7#4 ≤ idx → hostWrite idx d s = s)

/-- 46_system.md R211: a host read, index by index, unspecified answers as free values (log 10); no read changes any
state but the answer and the model's own count of free values. That indices 4 and 6 answer T and CF while BUSY = 0
also before a read of STATUS has returned DONE = 1, where 70_reset_and_hazards.md R274 defines nothing, is the
model's reading of R211 (log 26, DEDUCED). -/
def Obligations.HostReadReturnsTheNamedRegister : Prop :=
  ∀ s : State,
    (hostRead 0#4 s).rdata = 0#128 ∧
    (hostRead 1#4 s).rdata = statusWord s ∧
    (hostRead 2#4 s).rdata.toNat = s.off.toNat ∧
    (hostRead 3#4 s).rdata.toNat = s.len.toNat ∧
    (hostRead 4#4 s).rdata =
      (if s.tv = true ∧ s.busy = false then s.t else Config.freeRead s.unitNo s.draws) ∧
    (hostRead 5#4 s).rdata = s.sidx ∧
    (s.busy = false → (hostRead 6#4 s).rdata.toNat = s.cf.toNat) ∧
    (s.busy = true → (hostRead 6#4 s).rdata = Config.freeRead s.unitNo s.draws) ∧
    (∀ idx : BitVec 4, 7#4 ≤ idx → (hostRead idx s).rdata = 0#128) ∧
    ∀ idx : BitVec 4, ∃ d k, hostRead idx s = { s with rdata := d, draws := k }

/-- 10_state.md R36: the bits of STATUS. -/
def Obligations.StatusBitsAreWhereTheMapPutsThem : Prop :=
  ∀ s : State,
    (statusWord s).getLsbD 0 = s.busy ∧ (statusWord s).getLsbD 1 = s.done ∧ (statusWord s).getLsbD 2 = s.err ∧
    (statusWord s).getLsbD 3 = s.tv ∧ (∀ k, 4 ≤ k → k < 8 → (statusWord s).getLsbD k = false) ∧
    (∀ k, k < 4 → (statusWord s).getLsbD (8 + k) = s.ecode.getLsbD k) ∧
    ∀ k, 12 ≤ k → (statusWord s).getLsbD k = false

/-! ### Reset (10_state.md R56, 70_reset_and_hazards.md) -/

/-- 10_state.md R56: the values the spec gives after reset, the buffer and the keys untouched, and how SECTE,
SECTD and a command that reads T then end. Nothing is said of the values of T and the latches (log 6, log 7). -/
def Obligations.ResetLeavesTheValuesOfTheSpec : Prop :=
  (let t := State.reset
   t.tv = false ∧ t.sidx = 0#128 ∧ t.off = 0#32 ∧ t.len = 0#32 ∧ t.cf = false ∧
   t.busy = false ∧ t.done = false ∧ t.err = false ∧ t.ecode = 0#4 ∧ t.phase = .idle ∧ t.inflight = none) ∧
  (∀ s : State, s.busy = false →
    let t := resetUnit s
    t.tv = false ∧ t.sidx = 0#128 ∧ t.off = 0#32 ∧ t.len = 0#32 ∧ t.cf = false ∧
    t.busy = false ∧ t.done = false ∧ t.err = false ∧ t.ecode = 0#4 ∧ t.phase = .idle ∧ t.inflight = none ∧
    t.mem = s.mem ∧ t.k1 = s.k1 ∧ t.k2 = s.k2) ∧
  exec .secte State.reset = .next { State.reset with done := true, err := true, ecode := 1#4 } ∧
  exec .sectd State.reset = .next { State.reset with done := true, err := true, ecode := 1#4 } ∧
  ∀ i ∈ [Instr.double, .halve, .xexe, .xexd],
    exec i State.reset = .next { State.reset with done := true, err := true, ecode := 3#4 }

/-- 70_reset_and_hazards.md R262, 93 U8: reset while BUSY = 1 ends the command; only bytes of its range may have
changed. -/
def Obligations.ResetWhileBusyLosesOnlyTheCommandRange : Prop :=
  ∀ (s : State) (rest : List HostAction), s.Inv → s.busy = true →
    ∃ t, step { s with inbox := .reset :: rest } = .next t ∧ t.phase = .idle ∧ t.done = false ∧ t.err = false ∧
      t.ecode = 0#4 ∧ t.tv = false ∧ t.cf = false ∧ t.sidx = 0#128 ∧ t.off = 0#32 ∧ t.len = 0#32 ∧
      t.inflight = none ∧ t.k1 = s.k1 ∧ t.k2 = s.k2 ∧
      ∀ a, owns s a 1 = false → t.mem.read a = s.mem.read a

/-! ### Field arithmetic (40_gf_arithmetic.md) -/

/-- 40_gf_arithmetic.md R110: Double bit by bit, multiplication by x modulo x^128 + x^7 + x^2 + x + 1. -/
def Obligations.DoubleIsMultiplicationByX : Prop :=
  ∀ t : Block, (gfDouble t).2 = t.getLsbD 127 ∧
    ∀ k, k < 128 → (gfDouble t).1.getLsbD k =
      ((decide (0 < k) && t.getLsbD (k - 1)) ^^ (t.getLsbD 127 && decide (k ∈ [0, 1, 2, 7])))

/-- 40_gf_arithmetic.md R111: the byte form and the value form agree on every tweak. -/
def Obligations.ByteFormOfDoubleAgrees : Prop :=
  ∀ t : Block, gfDoubleBytes (blockBytes t) = (blockBytes (gfDouble t).1, (gfDouble t).2)

/-- 40_gf_arithmetic.md R116: Halve undoes Double. -/
def Obligations.HalveUndoesDouble : Prop :=
  ∀ t : Block, gfHalve (gfDouble t).1 (gfDouble t).2 = t

/-- 40_gf_arithmetic.md R117: Double after Halve replaces bit 0 by the carry; the pairs with `t[0] = c` are the
outputs of Double, and on them Halve is the inverse on both sides. -/
def Obligations.DoubleOfHalveReplacesBitZero : Prop :=
  (∀ (t : Block) (c : Bool), (gfDouble (gfHalve t c)).2 = c ∧
    ∀ k, k < 128 → (gfDouble (gfHalve t c)).1.getLsbD k = if k = 0 then c else t.getLsbD k) ∧
  (∀ (t : Block) (c : Bool), gfDouble (gfHalve t c) = (t, c) ↔ t.getLsbD 0 = c) ∧
  (∀ (t : Block) (c : Bool), (∃ u, gfDouble u = (t, c)) ↔ t.getLsbD 0 = c) ∧
  ∀ (t : Block) (c : Bool) (u : Block), gfDouble u = (t, c) → gfHalve t c = u

/-- The laws of 40_gf_arithmetic.md R113 that say what Double computes: linear, Double(0) = (0, 0), bit 0 of the
result is the carry. -/
def Obligations.DoubleIsLinear : Prop :=
  (∀ a b : Block, (gfDouble (a ^^^ b)).1 = (gfDouble a).1 ^^^ (gfDouble b).1 ∧
    (gfDouble (a ^^^ b)).2 = (a.getLsbD 127 ^^ b.getLsbD 127)) ∧
  gfDouble 0#128 = (0#128, false) ∧
  ∀ t : Block, (gfDouble t).1.getLsbD 0 = (gfDouble t).2

/-! ### The buffer and the ports (20_memory.md) -/

/-- 20_memory.md R62, R63: the two primitives inside the buffer. -/
def Obligations.BufferPrimitivesReadAndWriteTheNamedBytes : Prop :=
  ∀ (s : State) (a : Nat), s.mem.wf = true →
    (∀ n, a + n ≤ s.bufBytes → ∃ bs e, memRead a n s = .ok (bs, { s with portLog := e :: s.portLog }) ∧
      bs.length = n ∧ ∀ i (h : i < bs.length), bs[i] = s.mem.read (a + i)) ∧
    ∀ bs : List Byte, a + bs.length ≤ s.bufBytes → ∃ m e,
      memWrite a bs s = .ok { s with mem := m, portLog := e :: s.portLog } ∧ m.wf = true ∧
      ∀ x, m.read x = if h : a ≤ x ∧ x < a + bs.length then bs[x - a] else s.mem.read x

/-! ### The commands -/

/-- 46_system.md R214: NOP is one step, and it writes STATUS and nothing else; of the latches nothing is said after
the command has ended (93 U14). -/
def Obligations.NopWritesOnlyStatus : Prop :=
  encode .nop = 0x00000000#32 ∧ ∀ s : State, s.phase = .idle →
    (acceptInstr .nop s).phase = .pNop ∧ stepsLeft (acceptInstr .nop s) = 1 ∧
    ∃ t, exec .nop s = .next t ∧ SameButLatches { s with done := true, err := false, ecode := 0#4 } t

/-- 40_gf_arithmetic.md R114: DOUBLE, with a valid tweak and without. -/
def Obligations.DoubleWritesTheTweakAndTheCarry : Prop :=
  encode .double = 0x00000001#32 ∧ ∀ s : State, s.phase = .idle →
    (s.tv = true → (acceptInstr .double s).phase = .pDouble ∧ stepsLeft (acceptInstr .double s) = 1 ∧
      ∃ t, exec .double s = .next t ∧ SameButLatches { s with
        t := (gfDouble s.t).1, cf := (gfDouble s.t).2, done := true, err := false, ecode := 0#4 } t) ∧
    (s.tv = false → exec .double s = .next { s with done := true, err := true, ecode := 3#4 })

/-- 40_gf_arithmetic.md R115: HALVE, with a valid tweak and without. -/
def Obligations.HalveWritesTheTweakOnly : Prop :=
  encode .halve = 0x00000002#32 ∧ ∀ s : State, s.phase = .idle →
    (s.tv = true → (acceptInstr .halve s).phase = .pHalve ∧ stepsLeft (acceptInstr .halve s) = 1 ∧
      ∃ t, exec .halve s = .next t ∧ SameButLatches { s with
        t := gfHalve s.t s.cf, done := true, err := false, ecode := 0#4 } t) ∧
    (s.tv = false → exec .halve s = .next { s with done := true, err := true, ecode := 3#4 })

/-- 41_tweak_generator.md R131: TWGEN makes one request `(K2, ENC, SIDX)` and leaves the answer in T. -/
def Obligations.TwgenEncryptsTheSectorIndexUnderKeyTwo : Prop :=
  encode .twgen = 0x00000003#32 ∧ ∀ s : State, s.phase = .idle →
    (acceptInstr .twgen s).phase = .pTwgen ∧ stepsLeft (acceptInstr .twgen s) = 1 ∧
    ∃ t, exec .twgen s = .next t ∧ SameButLatches { s with
      t := cipherFn s .k2 .enc s.sidx, tv := true, done := true, err := false, ecode := 0#4, inflight := none
      portLog := .answer (cipherFn s .k2 .enc s.sidx) :: .request ⟨.k2, .enc, s.sidx⟩ :: s.portLog } t

/-- 42_block_transform.md R141, R142: XEXE and XEXD transform the block at OFF in place under K1, with the four port
events in order; T, TV, CF, OFF and every other byte stay. Their two errors, in order. -/
def Obligations.XexCommandsTransformTheBlockAtOff : Prop :=
  encode .xexe = 0x00000004#32 ∧ encode .xexd = 0x00000005#32 ∧
  ∀ p ∈ [(Instr.xexe, Dir.enc), (Instr.xexd, Dir.dec)], ∀ s : State, s.phase = .idle →
    (s.tv = false → exec p.1 s = .next { s with done := true, err := true, ecode := 3#4 }) ∧
    (s.tv = true → s.bufBytes < s.off.toNat + 16 →
      exec p.1 s = .next { s with done := true, err := true, ecode := 4#4 }) ∧
    (s.tv = true → s.off.toNat + 16 ≤ s.bufBytes → s.mem.wf = true →
      let before := s.mem.readBytes (offAddr s) 16
      let x := leBlock before ^^^ s.t
      let y := cipherFn s .k1 p.2 x
      (acceptInstr p.1 s).phase = .pXex ∧ (acceptInstr p.1 s).dirl = p.2 ∧ stepsLeft (acceptInstr p.1 s) = 1 ∧
      ∃ m t, exec p.1 s = .next t ∧ SameButLatches { s with
          mem := m, done := true, err := false, ecode := 0#4, inflight := none
          portLog := .memWrite (offAddr s) (blockBytes (y ^^^ s.t)) :: .answer y :: .request ⟨.k1, p.2, x⟩ ::
            .memRead (offAddr s) before :: s.portLog } t ∧
        m.wf = true ∧ m.readBytes (offAddr s) 16 = blockBytes (y ^^^ s.t) ∧
        ∀ a, ¬(offAddr s ≤ a ∧ a < offAddr s + 16) → m.read a = s.mem.read a)

/-- 42_block_transform.md R145: with a correct cipher the two transforms undo each other for the same tweak, and on
the machine XEXD undoes XEXE at the same place, and the other way round. -/
def Obligations.XexdUndoesXexe : Prop :=
  ∀ p ∈ [(Instr.xexe, Instr.xexd), (Instr.xexd, Instr.xexe)], ∀ s : State, s.cipher.Correct →
    (∀ t x : Block, xex s .dec t (xex s .enc t x) = x ∧ xex s .enc t (xex s .dec t x) = x) ∧
    (s.phase = .idle → s.tv = true → s.off.toNat + 16 ≤ s.bufBytes → s.mem.wf = true →
      ∃ t u, exec p.1 s = .next t ∧ exec p.2 t = .next u ∧ u.mem = s.mem ∧ u.t = s.t ∧ u.tv = true)

/-- 44_ciphertext_stealing.md R180, R181: CTSSWAP exchanges the two ranges and moves no other byte; T is not read,
so TV does not matter. Its one error. -/
def Obligations.CtsswapExchangesHeadAndTail : Prop :=
  ∀ rem : BitVec 4, rem ≠ 0#4 → (encode (.ctsswap rem)).toNat = rem.toNat * 256 + 6 ∧
    ∀ s : State, s.phase = .idle →
      (s.bufBytes < s.off.toNat + 16 + rem.toNat →
        exec (.ctsswap rem) s = .next { s with done := true, err := true, ecode := 4#4 }) ∧
      (s.off.toNat + 16 + rem.toNat ≤ s.bufBytes → s.mem.wf = true →
        let head := s.mem.readBytes (offAddr s) rem.toNat
        let tail := s.mem.readBytes (offAddr s + 16) rem.toNat
        (acceptInstr (.ctsswap rem) s).phase = .pSwap ∧ stepsLeft (acceptInstr (.ctsswap rem) s) = 1 ∧
        ∃ m t, exec (.ctsswap rem) s = .next t ∧ SameButLatches { s with
            mem := m, done := true, err := false, ecode := 0#4
            portLog := .memWrite (offAddr s + 16) head :: .memWrite (offAddr s) tail ::
              .memRead (offAddr s + 16) tail :: .memRead (offAddr s) head :: s.portLog } t ∧
          m.wf = true ∧
          ∀ a, m.read a =
            if offAddr s ≤ a ∧ a < offAddr s + rem.toNat then s.mem.read (a + 16)
            else if offAddr s + 16 ≤ a ∧ a < offAddr s + 16 + rem.toNat then s.mem.read (a - 16)
            else s.mem.read a)

/-- 43_sector_processor.md R154, R166, R167: a sector command that passes its checks leaves `SectorFn` of the region,
TV = 0, the rest of the buffer, OFF, LEN and SIDX as they were. T, CF and the latches are not described here: the
first two are free values, the latches hold any value after the command (93 U14). -/
def Obligations.SectorCommandsComputeSectorFn : Prop :=
  ∀ p ∈ [(Instr.secte, Dir.enc), (Instr.sectd, Dir.dec)], ∀ s : State,
    s.phase = .idle → 16 ≤ s.len.toNat → s.tv = true → s.off.toNat + s.len.toNat ≤ s.bufBytes → s.mem.wf = true →
      ∃ t, exec p.1 s = .next t ∧
        t.mem.readBytes (offAddr s) s.len.toNat =
          sectorFn (xex s) p.2 s.t (s.mem.readBytes (offAddr s) s.len.toNat) ∧
        (∀ a, ¬(offAddr s ≤ a ∧ a < offAddr s + s.len.toNat) → t.mem.read a = s.mem.read a) ∧
        t.mem.wf = true ∧ t.tv = false ∧ t.phase = .idle ∧ t.done = true ∧ t.err = false ∧ t.ecode = 0#4 ∧
        t.inflight = none ∧ hostSideSame s t

/-- After a completed sector command T and CF are free values, and the model's count of them moves on (10_state.md
R27; log 9). -/
def Obligations.SectorCommandsLeaveTweakAndCarryFree : Prop :=
  ∀ i ∈ [Instr.secte, Instr.sectd], ∀ s t : State, s.phase = .idle → exec i s = .next t → t.err = false →
    t.t = Config.freeTweak s.unitNo s.draws ∧ t.cf = Config.freeCarry s.unitNo s.draws ∧ t.draws = s.draws + 1

/-- 43_sector_processor.md R170: the round trip of `SectorFn`, both ways, for inverse transforms. -/
def Obligations.SectorFnRoundTrip : Prop :=
  ∀ (s : State) (t0 : Block) (bs : List Byte), s.cipher.Correct → 16 ≤ bs.length →
    sectorFn (xex s) .dec t0 (sectorFn (xex s) .enc t0 bs) = bs ∧
    sectorFn (xex s) .enc t0 (sectorFn (xex s) .dec t0 bs) = bs

/-- What 43_sector_processor.md R172 says of the phases, as it shows in the state: with REM = 0 no phase of the
stealing end is ever entered, every buffer access is one of 16 bytes (a swap would be of REM bytes), and while the
command runs T is what J doublings leave of the initial tweak. -/
def Obligations.AlignedSectorsNeverSteal : Prop :=
  ∀ i ∈ [Instr.secte, Instr.sectd], ∀ s : State, s.phase = .idle → firstCause i s = none →
    s.len.toNat % 16 = 0 →
      ∀ (k : Nat) (u : State), seqRun k (acceptInstr i s) = .ok u →
        u.phase ∈ [Phase.sBodyX, .sBodyD, .sLast, .idle] ∧
        (∃ new, u.portLog = new ++ s.portLog ∧
          ∀ e ∈ new, ∀ a l, e.shape = .read a l ∨ e.shape = .write a l → l = 16) ∧
        (u.busy = true → u.t = tweakAt s.t u.j.toNat)

/-- 43_sector_processor.md R160, R174: on the decrypt stealing path the halving restores the tweak the doubling
replaced. -/
def Obligations.HalveRestoresTheTweakOnTheStealingPath : Prop :=
  ∀ s : State, s.Inv → s.phase = .sD1 →
    ∃ u, seqRun 3 s = .ok u ∧ u.phase = .sD4 ∧ u.t = s.t ∧ u.cf = s.t.getLsbD 127

/-- 43_sector_processor.md R169, R166, R167: a completed sector command makes N requests, or N + 1 with REM > 0,
all of them `(K1, dir)`. -/
def Obligations.SectorCommandsRequestOncePerTransform : Prop :=
  ∀ p ∈ [(Instr.secte, Dir.enc), (Instr.sectd, Dir.dec)], ∀ s t : State, s.phase = .idle →
    firstCause p.1 s = none → exec p.1 s = .next t →
      ∃ new, t.portLog = new ++ s.portLog ∧
        (requestsOf new).length = s.len.toNat / 16 + (if s.len.toNat % 16 = 0 then 0 else 1) ∧
        ∀ r ∈ requestsOf new, r.ksel = .k1 ∧ r.op = p.2

/-- 43_sector_processor.md R173, 20_memory.md R71, R72: the transactions of a sector command on both ports, oldest
first, each with its kind: a read, a request under K1 in its direction, the answer and a write for each full block in
turn, and on the stealing path the two reads and then the two writes of the swap, and the last block a second time. -/
def Obligations.SectorCommandsAccessTheBlocksInOrder : Prop :=
  ∀ p ∈ [(Instr.secte, Dir.enc), (Instr.sectd, Dir.dec)], ∀ s : State, s.phase = .idle → firstCause p.1 s = none →
    let n := s.len.toNat / 16
    let r := s.len.toNat % 16
    let a := offAddr s + 16 * (n - 1)
    ∃ t new, exec p.1 s = .next t ∧ t.portLog = new ++ s.portLog ∧
      new.reverse.map PortEvent.shape =
        (List.range n).flatMap (fun j => xexShapes p.2 (offAddr s + 16 * j)) ++
        if r = 0 then [] else swapShapes a r ++ xexShapes p.2 a

/-! ### Errors (60_exceptions.md) -/

/-- 60_exceptions.md R231: SectorTooShort, whatever else is wrong, in both directions. -/
def Obligations.ShortSectorsAreRejectedInBothDirections : Prop :=
  ∀ i ∈ [Instr.secte, Instr.sectd], ∀ s : State, s.phase = .idle → s.len.toNat < 16 →
    exec i s = .next { s with done := true, err := true, ecode := 1#4 }

/-- 60_exceptions.md R234, 20_memory.md R64: BufferRange, on sums that do not wrap. -/
def Obligations.RangeErrorsUseUnboundedSums : Prop :=
  (∀ i ∈ [Instr.xexe, Instr.xexd], ∀ s : State, s.phase = .idle → s.tv = true → s.bufBytes < s.off.toNat + 16 →
    exec i s = .next { s with done := true, err := true, ecode := 4#4 }) ∧
  (∀ (rem : BitVec 4) (s : State), s.phase = .idle → rem ≠ 0#4 → s.bufBytes < s.off.toNat + 16 + rem.toNat →
    exec (.ctsswap rem) s = .next { s with done := true, err := true, ecode := 4#4 }) ∧
  ∀ i ∈ [Instr.secte, Instr.sectd], ∀ s : State, s.phase = .idle → s.tv = true → 16 ≤ s.len.toNat →
    s.bufBytes < s.off.toNat + s.len.toNat → exec i s = .next { s with done := true, err := true, ecode := 4#4 }

/-- 60_exceptions.md R237, R241, R242, 46_system.md R217: from every idle state a command answers; it ends in the
first error that applies, with STATUS changed and nothing else, and completes without error when none applies. The
case IllegalCommand is met only by the term `ctsswap 0`, which no word decodes to: that it ends so is the model's
reading (log 24, DEDUCED). -/
def Obligations.CommandsEndInTheirFirstErrorOrComplete : Prop :=
  ∀ (i : Instr) (s : State), s.phase = .idle →
    match firstCause i s with
    | some e => exec i s = .next { s with done := true, err := true, ecode := e.code }
    | none => ∃ t, exec i s = .next t ∧ t.phase = .idle ∧ t.done = true ∧ t.err = false ∧ t.ecode = 0#4

/-! ### Frames and whole-machine rules -/

/-- No command changes SIDX, OFF, LEN (10_state.md R23 to R25), the platform's parameters or the keys. -/
def Obligations.CommandsLeaveTheHostSideAlone : Prop :=
  ∀ (i : Instr) (s t : State), exec i s = .next t → hostSideSame s t

/-- 10_state.md R26: every byte outside what the command stores to is unchanged; a command that stores nothing
leaves every byte. -/
def Obligations.CommandsStoreOnlyToTheirRanges : Prop :=
  ∀ (i : Instr) (s t : State), s.mem.wf = true → exec i s = .next t →
    t.mem.wf = true ∧ ∀ a, inRanges (storedRanges i s) a = false → t.mem.read a = s.mem.read a

/-- 10_state.md R22, R29: what a command does to T, TV and CF, by command; an error leaves all three. -/
def Obligations.CommandsKeepTheFlagsTheyDoNotName : Prop :=
  ∀ (i : Instr) (s t : State), s.phase = .idle → exec i s = .next t →
    (t.err = true → t.t = s.t ∧ t.tv = s.tv ∧ t.cf = s.cf) ∧
    (i ∉ [Instr.double, .secte, .sectd] → t.cf = s.cf) ∧
    (i ∉ [Instr.twgen, .secte, .sectd] → t.tv = s.tv) ∧
    (i ∉ [Instr.double, .halve, .twgen, .secte, .sectd] → t.t = s.t) ∧
    (i = .twgen → t.tv = true) ∧ (i ∈ [Instr.secte, .sectd] → t.err = false → t.tv = false)

/-- 10_state.md R22 over every step of the machine: TV rises only by a write of T or a TWGEN that completes, and
falls only by reset or a sector command that completes. -/
def Obligations.TweakValidityChangesOnlyByItsFourEvents : Prop :=
  ∀ s t : State, step s = .next t → s.tv ≠ t.tv →
    (t.tv = true ∧ ((∃ d rest, s.inbox = .write 4#4 d :: rest) ∨
      t.done = true ∧ t.phase = .idle ∧
        (s.phase = .pTwgen ∨ ∃ w rest, s.inbox = .command w :: rest ∧ decode w = .ok .twgen))) ∨
    (t.tv = false ∧ ((∃ rest, s.inbox = .reset :: rest) ∨
      t.done = true ∧ t.phase = .idle ∧
        (s.phase ∈ [Phase.sLast, .sE4, .sD5] ∨
          ∃ w rest, s.inbox = .command w :: rest ∧ (decode w = .ok .secte ∨ decode w = .ok .sectd))))

/-- 41_tweak_generator.md R132, 10_state.md R53: no step asks the cipher to decrypt under K2. -/
def Obligations.NoStepDecryptsUnderKeyTwo : Prop :=
  ∀ s t : State, step s = .next t →
    ∃ new, t.portLog = new ++ s.portLog ∧ ∀ r ∈ requestsOf new, r.ksel = .k2 → r.op = .enc

/-- 20_memory.md R61: a step of the sequencer writes no byte outside the running command's range. -/
def Obligations.SequencerWritesOnlyItsRange : Prop :=
  ∀ s t : State, s.Inv → seqStep s = .ok t → ∀ a, owns s a 1 = false → t.mem.read a = s.mem.read a

/-- 20_memory.md R61: bytes outside a command's range are never read: two states that differ only in such bytes
give results that differ only in such bytes. -/
def Obligations.CommandsReadNothingOutsideTheirRanges : Prop :=
  ∀ (i : Instr) (s t : State) (m : Memory), s.mem.wf = true → m.wf = true →
    (∀ a, inRanges (storedRanges i s) a = true → m.read a = s.mem.read a) → exec i s = .next t →
      ∃ m1, exec i { s with mem := m } = .next { t with mem := m1 } ∧
        ∀ a, inRanges (storedRanges i s) a = true → m1.read a = t.mem.read a

/-! ### Invariants, and the sequencer's runs -/

/-- The state after reset meets the invariant. -/
def Obligations.ResetMeetsTheInvariant : Prop := State.reset.Inv

/-- Every step keeps the invariant. -/
def Obligations.EveryStepKeepsTheInvariant : Prop :=
  ∀ s t : State, s.Inv → step s = .next t → t.Inv

/-- From a state that meets the invariant a step faults only where another agent names bytes outside the buffer
(20_memory.md R64, 46_system.md R215: no error can arise in a step; log 14). -/
def Obligations.LegalStatesFaultOnlyByForeignAddresses : Prop :=
  ∀ (s : State) (f : Fault), s.Inv → step s = .fault f →
    f = .outsideBuffer ∧ ∃ rest, (∃ a n, s.inbox = .bufRead a n :: rest ∧ s.bufBytes < a + n) ∨
      ∃ a bs, s.inbox = .bufWrite a bs :: rest ∧ s.bufBytes < a + bs.length

/-- A step is refused only while BUSY = 1, and only for another agent in the running command's range or a binding
that changes the keys (20_memory.md R79, 70_reset_and_hazards.md R275, 93 U6, U9; log 12, log 13). -/
def Obligations.StepsAreRefusedOnlyForHostViolations : Prop :=
  ∀ (s : State) (r : Refusal), step s = .refused r → s.busy = true ∧ ∃ rest,
    (r = .bufferRace ∧ ((∃ a n, s.inbox = .bufRead a n :: rest ∧ owns s a n = true) ∨
      ∃ a bs, s.inbox = .bufWrite a bs :: rest ∧ owns s a bs.length = true)) ∨
    (r = .keysChangedWhileBusy ∧ ∃ k1 k2, s.inbox = .bindKeys k1 k2 :: rest ∧ ¬(k1 = s.k1 ∧ k2 = s.k2))

/-- 43_sector_processor.md R155, R169, 70_reset_and_hazards.md R278: from every state that meets the invariant the
running command completes after exactly `stepsLeft` steps and not before, and for a sector command just accepted
that number is the one of R169. -/
def Obligations.RunningCommandsCompleteOnTime : Prop :=
  (∀ s : State, s.Inv → s.busy = true →
    (∃ t, seqRun (stepsLeft s) s = .ok t ∧ t.phase = .idle ∧ t.done = true) ∧
    ∀ k, k < stepsLeft s → ∃ u, seqRun k s = .ok u ∧ u.busy = true) ∧
  ∀ p ∈ [(Instr.secte, 4), (Instr.sectd, 5)], ∀ s : State, s.phase = .idle → firstCause p.1 s = none →
    stepsLeft (acceptInstr p.1 s) =
      2 * (s.len.toNat / 16 - 1) + if s.len.toNat % 16 = 0 then 1 else p.2

/-- 46_system.md R218: the big step and the small steps agree: a command word written to CMD, followed by enough
turns of the sequencer, leaves the state that the command as one transition leaves. -/
def Obligations.SmallStepsAgreeWithTheBigStep : Prop :=
  ∀ (i : Instr) (s t : State) (rest : List HostAction) (k : Nat), i.wf = true → s.phase = .idle →
    exec i { s with inbox := rest } = .next t → stepsLeft (acceptInstr i s) ≤ k →
      Host.Core.run Sys2Proof.core (k + 1)
        { s with inbox := .write 0#4 ((encode i).setWidth 128) :: (List.replicate k .pass ++ rest) } = .next t

/-- 45_host_sequences.md R203: WAIT after a command word ends with a STATUS read of the state the command leaves. -/
def Obligations.WaitEndsWithTheStatusOfTheCommand : Prop :=
  ∀ (i : Instr) (s t : State) (rest : List HostAction), i.wf = true → s.phase = .idle →
    exec i { s with inbox := rest } = .next t →
      Host.Core.run Sys2Proof.core (stepsLeft (acceptInstr i s) + 2)
        { s with inbox := .write 0#4 ((encode i).setWidth 128) :: .wait :: rest } =
          .next { t with rdata := statusWord t }

/-! ### Host sequences (45_host_sequences.md) -/

/-- 45_host_sequences.md R191, R197: a bad key or a sector size below one block is rejected with nothing changed,
the key first (60_exceptions.md R238), in every state. That both checks come before the empty array, for which R202
raises no error, is the model's reading of the order of R194 (log 21, DEDUCED). -/
def Obligations.CodecRejectsBadKeysAndSizesFirst : Prop :=
  ∀ (dir : Dir) (key : List Byte) (start base len size : Nat) (s : State),
    (keyValid s.cipher key = false →
      cryptSector dir key start base len s = .next (.invalidKeyLength, s) ∧
      cryptSectors dir key start base len size s = .next (.invalidKeyLength, s)) ∧
    (keyValid s.cipher key = true → size < 16 →
      cryptSectors dir key start base len size s = .next (.invalidSectorSize, s))

/-- 45_host_sequences.md R196: the lengths of the sectors sum to the length, all but the last are `sectorSize`, the
last is 1 to `sectorSize`. -/
def Obligations.SectorsPartitionTheBuffer : Prop :=
  ∀ length size : Nat, 1 ≤ length → 1 ≤ size →
    1 ≤ sectorCount length size ∧
    ((List.range (sectorCount length size)).map (sectorLength length size)).sum = length ∧
    (∀ i, i + 1 < sectorCount length size → sectorLength length size i = size) ∧
    1 ≤ sectorLength length size (sectorCount length size - 1) ∧
    sectorLength length size (sectorCount length size - 1) ≤ size

/-- 45_host_sequences.md R192, R193: a single-sector call on a region inside the buffer leaves `SectorFn` under the
halves of the key, with the tweak TWGEN makes of the index; on an array that LEN or OFF cannot express or that does
not lie inside the buffer it ends in BufferRange, ECODE 4, and leaves the buffer. -/
def Obligations.SingleSectorCallsComputeSectorFn : Prop :=
  ∀ (dir : Dir) (key : List Byte) (index base len : Nat) (s : State), keyValid s.cipher key = true →
    s.phase = .idle → 16 ≤ len →
      (len < 2 ^ 32 → base < 2 ^ 32 → base + len ≤ s.bufBytes → s.mem.wf = true →
        let s1 := { s with k1 := (splitKey key).1, k2 := (splitKey key).2 }
        ∃ t, cryptSector dir key index base len s = .next (.success, t) ∧
          t.mem.readBytes base len = sectorFn (xex s1) dir (tweakGen s1 index) (s.mem.readBytes base len) ∧
          ∀ a, ¬(base ≤ a ∧ a < base + len) → t.mem.read a = s.mem.read a) ∧
      (2 ^ 32 ≤ len ∨ 2 ^ 32 ≤ base ∨ s.bufBytes < base + len →
        ∃ t, cryptSector dir key index base len s = .next (.commandFailed 4#4, t) ∧ t.mem = s.mem)

/-- 45_host_sequences.md R202, 60_exceptions.md R231: a single-sector call on fewer than 16 bytes returns
SectorTooShort and leaves the buffer; a multi-sector call on an empty array succeeds and changes nothing, in every
state. That SectorTooShort comes before BufferRange on a short array whose address OFF cannot express, and that the
checks of the key and the sector size come before the empty array, are the model's reading (log 21). -/
def Obligations.ShortAndEmptyCallsLeaveTheBuffer : Prop :=
  ∀ (dir : Dir) (key : List Byte) (index base : Nat) (s : State), keyValid s.cipher key = true →
    (s.phase = .idle → ∀ len, len < 16 →
      ∃ t, cryptSector dir key index base len s = .next (.sectorTooShort, t) ∧ t.mem = s.mem) ∧
    ∀ size, 16 ≤ size → cryptSectors dir key index base 0 size s = .next (.success, s)

/-- 45_host_sequences.md R201: a multi-sector call whose sectors all have a block is the single-sector function
applied to each sector with its own index. -/
def Obligations.MultiSectorCallsTreatSectorsIndependently : Prop :=
  ∀ (dir : Dir) (key : List Byte) (start base length size : Nat) (s : State), keyValid s.cipher key = true →
    s.phase = .idle → 16 ≤ size → 1 ≤ length → 16 ≤ (length - 1) % size + 1 → length < 2 ^ 32 →
    base + length ≤ 2 ^ 32 → base + length ≤ s.bufBytes → s.mem.wf = true →
      let s1 := { s with k1 := (splitKey key).1, k2 := (splitKey key).2 }
      ∃ t, cryptSectors dir key start base length size s = .next (.success, t) ∧ t.mem.wf = true ∧
        (∀ i, i < sectorCount length size →
          t.mem.readBytes (base + i * size) (sectorLength length size i) =
            sectorFn (xex s1) dir (tweakGen s1 (start + i))
              (s.mem.readBytes (base + i * size) (sectorLength length size i))) ∧
        ∀ a, ¬(base ≤ a ∧ a < base + length) → t.mem.read a = s.mem.read a

/-- 45_host_sequences.md R199: when only the last sector is too short, the call returns SectorTooShort, the sectors
before it are transformed, and it and every byte outside the array are unchanged. -/
def Obligations.FailedCallsLeaveEarlierSectorsTransformed : Prop :=
  ∀ (dir : Dir) (key : List Byte) (start base length size : Nat) (s : State), keyValid s.cipher key = true →
    s.phase = .idle → 16 ≤ size → 1 ≤ length → (length - 1) % size + 1 < 16 → length < 2 ^ 32 →
    base + length ≤ 2 ^ 32 → base + length ≤ s.bufBytes → s.mem.wf = true →
      let s1 := { s with k1 := (splitKey key).1, k2 := (splitKey key).2 }
      let last := base + (sectorCount length size - 1) * size
      ∃ t, cryptSectors dir key start base length size s = .next (.sectorTooShort, t) ∧
        (∀ i, i + 1 < sectorCount length size →
          t.mem.readBytes (base + i * size) size =
            sectorFn (xex s1) dir (tweakGen s1 (start + i)) (s.mem.readBytes (base + i * size) size)) ∧
        ∀ a, ¬(base ≤ a ∧ a < last) → t.mem.read a = s.mem.read a

/-- 45_host_sequences.md R205: with a correct cipher the decrypting call undoes the encrypting call, for one sector. -/
def Obligations.DecryptCallUndoesEncryptCall : Prop :=
  ∀ (key : List Byte) (index base len : Nat) (s : State), keyValid s.cipher key = true → s.cipher.Correct →
    s.phase = .idle → 16 ≤ len → len < 2 ^ 32 → base < 2 ^ 32 → base + len ≤ s.bufBytes → s.mem.wf = true →
      ∃ t u, cryptSector .enc key index base len s = .next (.success, t) ∧
        cryptSector .dec key index base len t = .next (.success, u) ∧ u.mem = s.mem

/-! ### Several instances (60_exceptions.md R247 to R249, 20_memory.md R80) -/

/-- 20_memory.md R80: steps of the sequencers of two instances whose running commands own disjoint ranges commute:
either order leaves the same system, buffer included. -/
def Obligations.StepsOfDisjointInstancesCommute : Prop :=
  ∀ (y : UnitSystem) (p q : Nat) (u v : State), p ≠ q → y.units[p]? = some u → y.units[q]? = some v →
    u.inbox = [] → v.inbox = [] → (y.unitView u).Inv → (y.unitView v).Inv →
    (∀ a, ¬(owns u a 1 = true ∧ owns v a 1 = true)) →
      ∀ z1 z2, UnitSystem.run [p, q] y = .next z1 → UnitSystem.run [q, p] y = .next z2 → z1 = z2
end

