-- ==== Sys2Proof/Laws/Bytes.lean ====
section
/-! SUPPORT. The laws of the byte order (00_scope.md R10, R11), and the bits of the constants of the field
arithmetic (40_gf_arithmetic.md R110, R112). -/

namespace Sys2Proof.Machine

@[simp] theorem length_blockBytes (v : Block) : (blockBytes v).length = 16 := by simp [blockBytes]

theorem getElem_blockBytes (v : Block) (i : Nat) (h : i < (blockBytes v).length) :
    (blockBytes v)[i] = byteOf v i := by simp [blockBytes]

theorem leValue_lt (bs : List Byte) : leValue bs < 2 ^ (8 * bs.length) := by
  induction bs with
  | nil => simp [leValue]
  | cons b bs ih =>
    have := b.isLt
    simp only [leValue, List.length_cons, Nat.mul_add, Nat.pow_add]
    omega

theorem testBit_leValue (bs : List Byte) (k : Nat) :
    (leValue bs).testBit k = if h : k / 8 < bs.length then (bs[k / 8]).getLsbD (k % 8) else false := by
  induction bs generalizing k with
  | nil => simp [leValue]
  | cons b bs ih =>
    simp only [leValue, List.length_cons]
    have e : b.toNat + 256 * leValue bs = 2 ^ 8 * leValue bs + b.toNat := by omega
    rw [e, Nat.testBit_two_pow_mul_add _ b.isLt]
    split
    · rename_i hk
      have h0 : k / 8 = 0 := by omega
      have h1 : k % 8 = k := by omega
      simp only [h0, h1, List.getElem_cons_zero, BitVec.getLsbD]
      simp
    · rename_i hk
      have h0 : k / 8 = (k - 8) / 8 + 1 := by omega
      have h1 : (k - 8) % 8 = k % 8 := by omega
      rw [ih, h1]
      simp only [h0, List.getElem_cons_succ]
      split <;> rename_i h2
      · rw [dif_pos (by omega)]
      · rw [dif_neg (by omega)]

theorem getLsbD_leBlock (bs : List Byte) (k : Nat) (hk : k < 128) :
    (leBlock bs).getLsbD k = if h : k / 8 < bs.length then (bs[k / 8]).getLsbD (k % 8) else false := by
  rw [leBlock, BitVec.getLsbD_ofNat, testBit_leValue]
  simp [hk]

theorem getLsbD_byteOf (v : Block) (i k : Nat) (hk : k < 8) : (byteOf v i).getLsbD k = v.getLsbD (8 * i + k) := by
  simp [byteOf, hk]

@[simp] theorem leBlock_blockBytes (v : Block) : leBlock (blockBytes v) = v := by
  refine BitVec.eq_of_getLsbD_eq fun k hk => ?_
  rw [getLsbD_leBlock _ _ hk, dif_pos (by simp; omega), getElem_blockBytes, getLsbD_byteOf _ _ _ (by omega)]
  congr 1
  omega

theorem byteOf_leBlock (bs : List Byte) (i : Nat) (hi : i < bs.length) (h16 : i < 16) :
    byteOf (leBlock bs) i = bs[i] := by
  refine BitVec.eq_of_getLsbD_eq fun k hk => ?_
  have e : (8 * i + k) / 8 = i := by omega
  have e' : (8 * i + k) % 8 = k := by omega
  rw [getLsbD_byteOf _ _ _ hk, getLsbD_leBlock _ _ (by omega), dif_pos (by omega)]
  simp only [e, e']

theorem blockBytes_leBlock (bs : List Byte) (h : bs.length = 16) : blockBytes (leBlock bs) = bs := by
  refine List.ext_getElem (by simp [h]) fun i h1 h2 => ?_
  rw [getElem_blockBytes, byteOf_leBlock bs i h2 (by omega)]

/-! ### The constants of the field arithmetic -/

theorem getLsbD_reduction (c : Bool) (k : Nat) :
    (reduction c).getLsbD k = (c && (k == 0 || k == 1 || k == 2 || k == 7)) := by
  cases c
  · simp [reduction]
  · by_cases hk : k < 8
    · interval_cases k <;> rfl
    · have : (0x87#128).getLsbD k = false := by
        rw [show (0x87#128) = BitVec.ofNat 128 0x87 from rfl, BitVec.getLsbD_ofNat]
        have : Nat.testBit 0x87 k = false := Nat.testBit_lt_two_pow (lt_of_lt_of_le (by norm_num : 0x87 < 2 ^ 8) (Nat.pow_le_pow_right (by norm_num) (by omega)))
        simp [this]
      simp only [reduction, if_true, this]
      have h0 : k ≠ 0 := by omega
      have h1 : k ≠ 1 := by omega
      have h2 : k ≠ 2 := by omega
      have h7 : k ≠ 7 := by omega
      simp [h0, h1, h2, h7]

theorem getLsbD_top (c : Bool) (k : Nat) : (if c then 1#128 <<< 127 else 0#128).getLsbD k = (c && k == 127) := by
  cases c
  · simp
  · simp only [if_true, Bool.true_and]
    by_cases h : k < 128
    · interval_cases k <;> rfl
    · rw [BitVec.getLsbD_of_ge _ _ (by omega)]
      simp; omega

end Sys2Proof.Machine
end

