-- ==== Sys2Proof/Laws/Memory.lean ====
section
/-! SUPPORT. The laws of the buffer's contents: every operation keeps the canonical form, a read after a write,
and canonical contents with the same reads are equal (log 5). -/

namespace Sys2Proof.Machine

theorem Memory.read_consCell (a : Nat) (b : Byte) (m : Memory) (x : Nat) (h : b = Config.unlistedByte → m.read a = b) :
    (Memory.consCell a b m).read x = if x = a then b else m.read x := by
  unfold Memory.consCell
  split
  · split
    · subst_vars; exact h rfl
    · rfl
  · rfl

theorem Memory.read_eq_unlisted_of_wfFrom {lo a : Nat} {m : Memory} (h : Memory.wfFrom lo m = true) (ha : a < lo) :
    m.read a = Config.unlistedByte := by
  induction m generalizing lo with
  | nil => rfl
  | cons c m ih =>
    obtain ⟨x, v⟩ := c
    simp only [Memory.wfFrom, Bool.and_eq_true, decide_eq_true_eq] at h
    simp only [Memory.read]
    rw [if_neg (by omega)]
    exact ih h.2 (by omega)

theorem Memory.wfFrom_mono {lo lo' : Nat} {m : Memory} (h : Memory.wfFrom lo m = true) (hl : lo' ≤ lo) :
    Memory.wfFrom lo' m = true := by
  cases m with
  | nil => rfl
  | cons c m =>
    obtain ⟨x, v⟩ := c
    simp only [Memory.wfFrom, Bool.and_eq_true, decide_eq_true_eq] at h ⊢
    exact ⟨⟨by omega, h.1.2⟩, h.2⟩

theorem Memory.wfFrom_consCell {lo a : Nat} {b : Byte} {m : Memory} (h : Memory.wfFrom (a + 1) m = true)
    (hl : lo ≤ a) : Memory.wfFrom lo (Memory.consCell a b m) = true := by
  unfold Memory.consCell
  split
  · exact Memory.wfFrom_mono h (by omega)
  · rename_i hb
    simp only [Memory.wfFrom, Bool.and_eq_true, decide_eq_true_eq, bne_iff_ne]
    exact ⟨⟨hl, hb⟩, h⟩

theorem Memory.wfFrom_write {lo a : Nat} {b : Byte} {m : Memory} (h : Memory.wfFrom lo m = true) (hl : lo ≤ a) :
    Memory.wfFrom lo (m.write a b) = true := by
  induction m generalizing lo with
  | nil => exact Memory.wfFrom_consCell rfl hl
  | cons c m ih =>
    obtain ⟨x, v⟩ := c
    have h' := h
    simp only [Memory.wfFrom, Bool.and_eq_true, decide_eq_true_eq] at h
    simp only [Memory.write]
    split
    · refine Memory.wfFrom_consCell ?_ hl
      simp only [Memory.wfFrom, Bool.and_eq_true, decide_eq_true_eq]
      exact ⟨⟨by omega, h.1.2⟩, h.2⟩
    · split
      · exact Memory.wfFrom_consCell (Memory.wfFrom_mono h.2 (by omega)) hl
      · simp only [Memory.wfFrom, Bool.and_eq_true, decide_eq_true_eq]
        exact ⟨h.1, ih h.2 (by omega)⟩

theorem Memory.wf_write {m : Memory} (a : Nat) (b : Byte) (h : m.wf = true) : (m.write a b).wf = true :=
  Memory.wfFrom_write h (Nat.zero_le a)

theorem Memory.read_write_from {lo : Nat} {m : Memory} (a : Nat) (b : Byte) (x : Nat)
    (h : Memory.wfFrom lo m = true) : (m.write a b).read x = if x = a then b else m.read x := by
  induction m generalizing lo with
  | nil => exact Memory.read_consCell a b [] x (fun hb => hb.symm)
  | cons c m ih =>
    obtain ⟨y, v⟩ := c
    have h' := h
    simp only [Memory.wfFrom, Bool.and_eq_true, decide_eq_true_eq] at h
    simp only [Memory.write]
    split
    · rename_i hlt
      refine Memory.read_consCell a b _ x fun hb => ?_
      simp only [Memory.read]
      rw [if_neg (by omega), hb]
      exact Memory.read_eq_unlisted_of_wfFrom h.2 (by omega)
    · split
      · subst_vars
        rw [Memory.read_consCell _ _ _ _ fun hb => by
          rw [hb]; exact Memory.read_eq_unlisted_of_wfFrom h.2 (by omega)]
        simp only [Memory.read]
        split <;> rfl
      · simp only [Memory.read, ih h.2]
        split
        · subst_vars; rw [if_neg (by omega)]
        · rfl

theorem Memory.read_write {m : Memory} (a : Nat) (b : Byte) (x : Nat) (h : m.wf = true) :
    (m.write a b).read x = if x = a then b else m.read x := Memory.read_write_from a b x h

theorem Memory.wf_writeBytes {m : Memory} (a : Nat) (bs : List Byte) (h : m.wf = true) :
    (m.writeBytes a bs).wf = true := by
  induction bs generalizing m a with
  | nil => exact h
  | cons b bs ih => exact ih (a + 1) (Memory.wf_write a b h)

theorem Memory.read_writeBytes {m : Memory} (a : Nat) (bs : List Byte) (x : Nat) (h : m.wf = true) :
    (m.writeBytes a bs).read x = if h : a ≤ x ∧ x < a + bs.length then bs[x - a] else m.read x := by
  induction bs generalizing m a with
  | nil => simp [Memory.writeBytes]
  | cons b bs ih =>
    simp only [Memory.writeBytes, ih (a + 1) (Memory.wf_write a b h), Memory.read_write a b x h, List.length_cons]
    by_cases h1 : x = a
    · subst h1
      simp
    · by_cases h2 : a ≤ x ∧ x < a + (bs.length + 1)
      · have e : x - a = (x - (a + 1)) + 1 := by omega
        rw [dif_pos (by omega), dif_pos h2]
        simp only [e, List.getElem_cons_succ]
      · rw [dif_neg (by omega), dif_neg h2, if_neg h1]

/-- Canonical memories are determined by their reads. -/
theorem Memory.ext_from {lo : Nat} {m m' : Memory} (h : Memory.wfFrom lo m = true) (h' : Memory.wfFrom lo m' = true)
    (hr : ∀ a, m.read a = m'.read a) : m = m' := by
  induction m generalizing lo m' with
  | nil =>
    cases m' with
    | nil => rfl
    | cons c m' =>
      obtain ⟨x, v⟩ := c
      simp only [Memory.wfFrom, Bool.and_eq_true, bne_iff_ne] at h'
      have := hr x
      simp only [Memory.read, if_true] at this
      exact absurd this.symm h'.1.2
  | cons c m ih =>
    obtain ⟨x, v⟩ := c
    have hc := h
    simp only [Memory.wfFrom, Bool.and_eq_true, bne_iff_ne, decide_eq_true_eq] at h
    cases m' with
    | nil =>
      have := hr x
      simp only [Memory.read, if_true] at this
      exact absurd this h.1.2
    | cons c' m' =>
      obtain ⟨y, w⟩ := c'
      have hc' := h'
      simp only [Memory.wfFrom, Bool.and_eq_true, bne_iff_ne, decide_eq_true_eq] at h'
      have hxy : x = y := by
        by_contra hne
        rcases Nat.lt_or_gt_of_ne hne with hlt | hgt
        · have := hr x
          simp only [Memory.read, if_true, if_neg hne] at this
          rw [Memory.read_eq_unlisted_of_wfFrom h'.2 (by omega)] at this
          exact h.1.2 this
        · have := hr y
          simp only [Memory.read, if_true, if_neg (Ne.symm hne)] at this
          rw [Memory.read_eq_unlisted_of_wfFrom h.2 (by omega)] at this
          exact h'.1.2 this.symm
      subst hxy
      have hv : v = w := by simpa [Memory.read] using hr x
      subst hv
      congr 1
      refine ih h.2 h'.2 fun a => ?_
      by_cases ha : a = x
      · subst ha
        rw [Memory.read_eq_unlisted_of_wfFrom h.2 (by omega), Memory.read_eq_unlisted_of_wfFrom h'.2 (by omega)]
      · simpa [Memory.read, ha] using hr a

theorem Memory.ext_read {m m' : Memory} (h : m.wf = true) (h' : m'.wf = true) (hr : ∀ a, m.read a = m'.read a) :
    m = m' := Memory.ext_from h h' hr

theorem Memory.below_consCell {limit a : Nat} {b : Byte} {m : Memory} (ha : a < limit)
    (h : Memory.below limit m = true) : Memory.below limit (Memory.consCell a b m) = true := by
  unfold Memory.consCell
  split
  · exact h
  · simpa [Memory.below, ha] using h

theorem Memory.below_write {limit a : Nat} {b : Byte} {m : Memory} (ha : a < limit)
    (h : Memory.below limit m = true) : Memory.below limit (m.write a b) = true := by
  induction m with
  | nil => exact Memory.below_consCell ha h
  | cons c m ih =>
    obtain ⟨x, v⟩ := c
    have hm : Memory.below limit m = true := by
      simp [Memory.below] at h ⊢
      exact h.2
    have hx : x < limit := by simp [Memory.below] at h; exact h.1
    simp only [Memory.write]
    split
    · exact Memory.below_consCell ha h
    · split
      · exact Memory.below_consCell ha hm
      · have := ih hm
        simp only [Memory.below, List.all_cons, Bool.and_eq_true, decide_eq_true_eq] at this ⊢
        exact ⟨hx, this⟩

theorem Memory.below_writeBytes {limit a : Nat} {bs : List Byte} {m : Memory} (ha : a + bs.length ≤ limit)
    (h : Memory.below limit m = true) : Memory.below limit (m.writeBytes a bs) = true := by
  induction bs generalizing m a with
  | nil => exact h
  | cons b bs ih =>
    simp only [List.length_cons] at ha
    exact ih (by omega) (Memory.below_write (by omega) h)

@[simp] theorem Memory.length_readBytes (m : Memory) (a n : Nat) : (m.readBytes a n).length = n := by
  simp [Memory.readBytes]

theorem Memory.getElem_readBytes (m : Memory) (a n i : Nat) (h : i < (m.readBytes a n).length) :
    (m.readBytes a n)[i] = m.read (a + i) := by
  simp [Memory.readBytes]

end Sys2Proof.Machine
end

