-- ==== Sys2Proof/Laws/State.lean ====
section
/-! SUPPORT. What each named update does to each field of State: one lemma a field, true by rfl, so that no later
proof unfolds a record update. -/

namespace Sys2Proof.Machine

variable (s : State)

/-! ### `State.log` -/

@[simp] theorem State.log_t (e : PortEvent) : (s.log e).t = s.t := rfl
@[simp] theorem State.log_tv (e : PortEvent) : (s.log e).tv = s.tv := rfl
@[simp] theorem State.log_sidx (e : PortEvent) : (s.log e).sidx = s.sidx := rfl
@[simp] theorem State.log_off (e : PortEvent) : (s.log e).off = s.off := rfl
@[simp] theorem State.log_len (e : PortEvent) : (s.log e).len = s.len := rfl
@[simp] theorem State.log_cf (e : PortEvent) : (s.log e).cf = s.cf := rfl
@[simp] theorem State.log_done (e : PortEvent) : (s.log e).done = s.done := rfl
@[simp] theorem State.log_err (e : PortEvent) : (s.log e).err = s.err := rfl
@[simp] theorem State.log_ecode (e : PortEvent) : (s.log e).ecode = s.ecode := rfl
@[simp] theorem State.log_phase (e : PortEvent) : (s.log e).phase = s.phase := rfl
@[simp] theorem State.log_n (e : PortEvent) : (s.log e).n = s.n := rfl
@[simp] theorem State.log_rem (e : PortEvent) : (s.log e).rem = s.rem := rfl
@[simp] theorem State.log_j (e : PortEvent) : (s.log e).j = s.j := rfl
@[simp] theorem State.log_opl (e : PortEvent) : (s.log e).opl = s.opl := rfl
@[simp] theorem State.log_dirl (e : PortEvent) : (s.log e).dirl = s.dirl := rfl
@[simp] theorem State.log_inflight (e : PortEvent) : (s.log e).inflight = s.inflight := rfl
@[simp] theorem State.log_mem (e : PortEvent) : (s.log e).mem = s.mem := rfl
@[simp] theorem State.log_bufBytes (e : PortEvent) : (s.log e).bufBytes = s.bufBytes := rfl
@[simp] theorem State.log_cipher (e : PortEvent) : (s.log e).cipher = s.cipher := rfl
@[simp] theorem State.log_k1 (e : PortEvent) : (s.log e).k1 = s.k1 := rfl
@[simp] theorem State.log_k2 (e : PortEvent) : (s.log e).k2 = s.k2 := rfl
@[simp] theorem State.log_inbox (e : PortEvent) : (s.log e).inbox = s.inbox := rfl
@[simp] theorem State.log_rdata (e : PortEvent) : (s.log e).rdata = s.rdata := rfl
@[simp] theorem State.log_bdata (e : PortEvent) : (s.log e).bdata = s.bdata := rfl
@[simp] theorem State.log_portLog (e : PortEvent) : (s.log e).portLog = e :: s.portLog := rfl
@[simp] theorem State.log_draws (e : PortEvent) : (s.log e).draws = s.draws := rfl
@[simp] theorem State.log_unitNo (e : PortEvent) : (s.log e).unitNo = s.unitNo := rfl

/-! ### `clearStatus` -/

@[simp] theorem clearStatus_t : (clearStatus s).t = s.t := rfl
@[simp] theorem clearStatus_tv : (clearStatus s).tv = s.tv := rfl
@[simp] theorem clearStatus_sidx : (clearStatus s).sidx = s.sidx := rfl
@[simp] theorem clearStatus_off : (clearStatus s).off = s.off := rfl
@[simp] theorem clearStatus_len : (clearStatus s).len = s.len := rfl
@[simp] theorem clearStatus_cf : (clearStatus s).cf = s.cf := rfl
@[simp] theorem clearStatus_done : (clearStatus s).done = false := rfl
@[simp] theorem clearStatus_err : (clearStatus s).err = false := rfl
@[simp] theorem clearStatus_ecode : (clearStatus s).ecode = 0#4 := rfl
@[simp] theorem clearStatus_phase : (clearStatus s).phase = s.phase := rfl
@[simp] theorem clearStatus_n : (clearStatus s).n = s.n := rfl
@[simp] theorem clearStatus_rem : (clearStatus s).rem = s.rem := rfl
@[simp] theorem clearStatus_j : (clearStatus s).j = s.j := rfl
@[simp] theorem clearStatus_opl : (clearStatus s).opl = s.opl := rfl
@[simp] theorem clearStatus_dirl : (clearStatus s).dirl = s.dirl := rfl
@[simp] theorem clearStatus_inflight : (clearStatus s).inflight = s.inflight := rfl
@[simp] theorem clearStatus_mem : (clearStatus s).mem = s.mem := rfl
@[simp] theorem clearStatus_bufBytes : (clearStatus s).bufBytes = s.bufBytes := rfl
@[simp] theorem clearStatus_cipher : (clearStatus s).cipher = s.cipher := rfl
@[simp] theorem clearStatus_k1 : (clearStatus s).k1 = s.k1 := rfl
@[simp] theorem clearStatus_k2 : (clearStatus s).k2 = s.k2 := rfl
@[simp] theorem clearStatus_inbox : (clearStatus s).inbox = s.inbox := rfl
@[simp] theorem clearStatus_rdata : (clearStatus s).rdata = s.rdata := rfl
@[simp] theorem clearStatus_bdata : (clearStatus s).bdata = s.bdata := rfl
@[simp] theorem clearStatus_portLog : (clearStatus s).portLog = s.portLog := rfl
@[simp] theorem clearStatus_draws : (clearStatus s).draws = s.draws := rfl
@[simp] theorem clearStatus_unitNo : (clearStatus s).unitNo = s.unitNo := rfl

/-! ### `raiseError` -/

@[simp] theorem raiseError_t (e : ErrorCause) : (raiseError e s).t = s.t := rfl
@[simp] theorem raiseError_tv (e : ErrorCause) : (raiseError e s).tv = s.tv := rfl
@[simp] theorem raiseError_sidx (e : ErrorCause) : (raiseError e s).sidx = s.sidx := rfl
@[simp] theorem raiseError_off (e : ErrorCause) : (raiseError e s).off = s.off := rfl
@[simp] theorem raiseError_len (e : ErrorCause) : (raiseError e s).len = s.len := rfl
@[simp] theorem raiseError_cf (e : ErrorCause) : (raiseError e s).cf = s.cf := rfl
@[simp] theorem raiseError_done (e : ErrorCause) : (raiseError e s).done = true := rfl
@[simp] theorem raiseError_err (e : ErrorCause) : (raiseError e s).err = true := rfl
@[simp] theorem raiseError_ecode (e : ErrorCause) : (raiseError e s).ecode = e.code := rfl
@[simp] theorem raiseError_phase (e : ErrorCause) : (raiseError e s).phase = s.phase := rfl
@[simp] theorem raiseError_n (e : ErrorCause) : (raiseError e s).n = s.n := rfl
@[simp] theorem raiseError_rem (e : ErrorCause) : (raiseError e s).rem = s.rem := rfl
@[simp] theorem raiseError_j (e : ErrorCause) : (raiseError e s).j = s.j := rfl
@[simp] theorem raiseError_opl (e : ErrorCause) : (raiseError e s).opl = s.opl := rfl
@[simp] theorem raiseError_dirl (e : ErrorCause) : (raiseError e s).dirl = s.dirl := rfl
@[simp] theorem raiseError_inflight (e : ErrorCause) : (raiseError e s).inflight = s.inflight := rfl
@[simp] theorem raiseError_mem (e : ErrorCause) : (raiseError e s).mem = s.mem := rfl
@[simp] theorem raiseError_bufBytes (e : ErrorCause) : (raiseError e s).bufBytes = s.bufBytes := rfl
@[simp] theorem raiseError_cipher (e : ErrorCause) : (raiseError e s).cipher = s.cipher := rfl
@[simp] theorem raiseError_k1 (e : ErrorCause) : (raiseError e s).k1 = s.k1 := rfl
@[simp] theorem raiseError_k2 (e : ErrorCause) : (raiseError e s).k2 = s.k2 := rfl
@[simp] theorem raiseError_inbox (e : ErrorCause) : (raiseError e s).inbox = s.inbox := rfl
@[simp] theorem raiseError_rdata (e : ErrorCause) : (raiseError e s).rdata = s.rdata := rfl
@[simp] theorem raiseError_bdata (e : ErrorCause) : (raiseError e s).bdata = s.bdata := rfl
@[simp] theorem raiseError_portLog (e : ErrorCause) : (raiseError e s).portLog = s.portLog := rfl
@[simp] theorem raiseError_draws (e : ErrorCause) : (raiseError e s).draws = s.draws := rfl
@[simp] theorem raiseError_unitNo (e : ErrorCause) : (raiseError e s).unitNo = s.unitNo := rfl

/-! ### `enterPhase` -/

@[simp] theorem enterPhase_t (o : BitVec 8) (p : Phase) : (enterPhase o p s).t = s.t := rfl
@[simp] theorem enterPhase_tv (o : BitVec 8) (p : Phase) : (enterPhase o p s).tv = s.tv := rfl
@[simp] theorem enterPhase_sidx (o : BitVec 8) (p : Phase) : (enterPhase o p s).sidx = s.sidx := rfl
@[simp] theorem enterPhase_off (o : BitVec 8) (p : Phase) : (enterPhase o p s).off = s.off := rfl
@[simp] theorem enterPhase_len (o : BitVec 8) (p : Phase) : (enterPhase o p s).len = s.len := rfl
@[simp] theorem enterPhase_cf (o : BitVec 8) (p : Phase) : (enterPhase o p s).cf = s.cf := rfl
@[simp] theorem enterPhase_done (o : BitVec 8) (p : Phase) : (enterPhase o p s).done = s.done := rfl
@[simp] theorem enterPhase_err (o : BitVec 8) (p : Phase) : (enterPhase o p s).err = s.err := rfl
@[simp] theorem enterPhase_ecode (o : BitVec 8) (p : Phase) : (enterPhase o p s).ecode = s.ecode := rfl
@[simp] theorem enterPhase_phase (o : BitVec 8) (p : Phase) : (enterPhase o p s).phase = p := rfl
@[simp] theorem enterPhase_n (o : BitVec 8) (p : Phase) : (enterPhase o p s).n = s.n := rfl
@[simp] theorem enterPhase_rem (o : BitVec 8) (p : Phase) : (enterPhase o p s).rem = s.rem := rfl
@[simp] theorem enterPhase_j (o : BitVec 8) (p : Phase) : (enterPhase o p s).j = s.j := rfl
@[simp] theorem enterPhase_opl (o : BitVec 8) (p : Phase) : (enterPhase o p s).opl = o := rfl
@[simp] theorem enterPhase_dirl (o : BitVec 8) (p : Phase) : (enterPhase o p s).dirl = s.dirl := rfl
@[simp] theorem enterPhase_inflight (o : BitVec 8) (p : Phase) : (enterPhase o p s).inflight = s.inflight := rfl
@[simp] theorem enterPhase_mem (o : BitVec 8) (p : Phase) : (enterPhase o p s).mem = s.mem := rfl
@[simp] theorem enterPhase_bufBytes (o : BitVec 8) (p : Phase) : (enterPhase o p s).bufBytes = s.bufBytes := rfl
@[simp] theorem enterPhase_cipher (o : BitVec 8) (p : Phase) : (enterPhase o p s).cipher = s.cipher := rfl
@[simp] theorem enterPhase_k1 (o : BitVec 8) (p : Phase) : (enterPhase o p s).k1 = s.k1 := rfl
@[simp] theorem enterPhase_k2 (o : BitVec 8) (p : Phase) : (enterPhase o p s).k2 = s.k2 := rfl
@[simp] theorem enterPhase_inbox (o : BitVec 8) (p : Phase) : (enterPhase o p s).inbox = s.inbox := rfl
@[simp] theorem enterPhase_rdata (o : BitVec 8) (p : Phase) : (enterPhase o p s).rdata = s.rdata := rfl
@[simp] theorem enterPhase_bdata (o : BitVec 8) (p : Phase) : (enterPhase o p s).bdata = s.bdata := rfl
@[simp] theorem enterPhase_portLog (o : BitVec 8) (p : Phase) : (enterPhase o p s).portLog = s.portLog := rfl
@[simp] theorem enterPhase_draws (o : BitVec 8) (p : Phase) : (enterPhase o p s).draws = s.draws := rfl
@[simp] theorem enterPhase_unitNo (o : BitVec 8) (p : Phase) : (enterPhase o p s).unitNo = s.unitNo := rfl

/-! ### `enterDirected` -/

@[simp] theorem enterDirected_t (o : BitVec 8) (p : Phase) : (enterDirected o p s).t = s.t := rfl
@[simp] theorem enterDirected_tv (o : BitVec 8) (p : Phase) : (enterDirected o p s).tv = s.tv := rfl
@[simp] theorem enterDirected_sidx (o : BitVec 8) (p : Phase) : (enterDirected o p s).sidx = s.sidx := rfl
@[simp] theorem enterDirected_off (o : BitVec 8) (p : Phase) : (enterDirected o p s).off = s.off := rfl
@[simp] theorem enterDirected_len (o : BitVec 8) (p : Phase) : (enterDirected o p s).len = s.len := rfl
@[simp] theorem enterDirected_cf (o : BitVec 8) (p : Phase) : (enterDirected o p s).cf = s.cf := rfl
@[simp] theorem enterDirected_done (o : BitVec 8) (p : Phase) : (enterDirected o p s).done = s.done := rfl
@[simp] theorem enterDirected_err (o : BitVec 8) (p : Phase) : (enterDirected o p s).err = s.err := rfl
@[simp] theorem enterDirected_ecode (o : BitVec 8) (p : Phase) : (enterDirected o p s).ecode = s.ecode := rfl
@[simp] theorem enterDirected_phase (o : BitVec 8) (p : Phase) : (enterDirected o p s).phase = p := rfl
@[simp] theorem enterDirected_n (o : BitVec 8) (p : Phase) : (enterDirected o p s).n = s.n := rfl
@[simp] theorem enterDirected_rem (o : BitVec 8) (p : Phase) : (enterDirected o p s).rem = s.rem := rfl
@[simp] theorem enterDirected_j (o : BitVec 8) (p : Phase) : (enterDirected o p s).j = s.j := rfl
@[simp] theorem enterDirected_opl (o : BitVec 8) (p : Phase) : (enterDirected o p s).opl = o := rfl
@[simp] theorem enterDirected_dirl (o : BitVec 8) (p : Phase) : (enterDirected o p s).dirl = opcodeDir o := rfl
@[simp] theorem enterDirected_inflight (o : BitVec 8) (p : Phase) : (enterDirected o p s).inflight = s.inflight := rfl
@[simp] theorem enterDirected_mem (o : BitVec 8) (p : Phase) : (enterDirected o p s).mem = s.mem := rfl
@[simp] theorem enterDirected_bufBytes (o : BitVec 8) (p : Phase) : (enterDirected o p s).bufBytes = s.bufBytes := rfl
@[simp] theorem enterDirected_cipher (o : BitVec 8) (p : Phase) : (enterDirected o p s).cipher = s.cipher := rfl
@[simp] theorem enterDirected_k1 (o : BitVec 8) (p : Phase) : (enterDirected o p s).k1 = s.k1 := rfl
@[simp] theorem enterDirected_k2 (o : BitVec 8) (p : Phase) : (enterDirected o p s).k2 = s.k2 := rfl
@[simp] theorem enterDirected_inbox (o : BitVec 8) (p : Phase) : (enterDirected o p s).inbox = s.inbox := rfl
@[simp] theorem enterDirected_rdata (o : BitVec 8) (p : Phase) : (enterDirected o p s).rdata = s.rdata := rfl
@[simp] theorem enterDirected_bdata (o : BitVec 8) (p : Phase) : (enterDirected o p s).bdata = s.bdata := rfl
@[simp] theorem enterDirected_portLog (o : BitVec 8) (p : Phase) : (enterDirected o p s).portLog = s.portLog := rfl
@[simp] theorem enterDirected_draws (o : BitVec 8) (p : Phase) : (enterDirected o p s).draws = s.draws := rfl
@[simp] theorem enterDirected_unitNo (o : BitVec 8) (p : Phase) : (enterDirected o p s).unitNo = s.unitNo := rfl

/-! ### `enterSwap` -/

@[simp] theorem enterSwap_t (r : BitVec 4) : (enterSwap r s).t = s.t := rfl
@[simp] theorem enterSwap_tv (r : BitVec 4) : (enterSwap r s).tv = s.tv := rfl
@[simp] theorem enterSwap_sidx (r : BitVec 4) : (enterSwap r s).sidx = s.sidx := rfl
@[simp] theorem enterSwap_off (r : BitVec 4) : (enterSwap r s).off = s.off := rfl
@[simp] theorem enterSwap_len (r : BitVec 4) : (enterSwap r s).len = s.len := rfl
@[simp] theorem enterSwap_cf (r : BitVec 4) : (enterSwap r s).cf = s.cf := rfl
@[simp] theorem enterSwap_done (r : BitVec 4) : (enterSwap r s).done = s.done := rfl
@[simp] theorem enterSwap_err (r : BitVec 4) : (enterSwap r s).err = s.err := rfl
@[simp] theorem enterSwap_ecode (r : BitVec 4) : (enterSwap r s).ecode = s.ecode := rfl
@[simp] theorem enterSwap_phase (r : BitVec 4) : (enterSwap r s).phase = .pSwap := rfl
@[simp] theorem enterSwap_n (r : BitVec 4) : (enterSwap r s).n = s.n := rfl
@[simp] theorem enterSwap_rem (r : BitVec 4) : (enterSwap r s).rem = r := rfl
@[simp] theorem enterSwap_j (r : BitVec 4) : (enterSwap r s).j = s.j := rfl
@[simp] theorem enterSwap_opl (r : BitVec 4) : (enterSwap r s).opl = 0x06#8 := rfl
@[simp] theorem enterSwap_dirl (r : BitVec 4) : (enterSwap r s).dirl = s.dirl := rfl
@[simp] theorem enterSwap_inflight (r : BitVec 4) : (enterSwap r s).inflight = s.inflight := rfl
@[simp] theorem enterSwap_mem (r : BitVec 4) : (enterSwap r s).mem = s.mem := rfl
@[simp] theorem enterSwap_bufBytes (r : BitVec 4) : (enterSwap r s).bufBytes = s.bufBytes := rfl
@[simp] theorem enterSwap_cipher (r : BitVec 4) : (enterSwap r s).cipher = s.cipher := rfl
@[simp] theorem enterSwap_k1 (r : BitVec 4) : (enterSwap r s).k1 = s.k1 := rfl
@[simp] theorem enterSwap_k2 (r : BitVec 4) : (enterSwap r s).k2 = s.k2 := rfl
@[simp] theorem enterSwap_inbox (r : BitVec 4) : (enterSwap r s).inbox = s.inbox := rfl
@[simp] theorem enterSwap_rdata (r : BitVec 4) : (enterSwap r s).rdata = s.rdata := rfl
@[simp] theorem enterSwap_bdata (r : BitVec 4) : (enterSwap r s).bdata = s.bdata := rfl
@[simp] theorem enterSwap_portLog (r : BitVec 4) : (enterSwap r s).portLog = s.portLog := rfl
@[simp] theorem enterSwap_draws (r : BitVec 4) : (enterSwap r s).draws = s.draws := rfl
@[simp] theorem enterSwap_unitNo (r : BitVec 4) : (enterSwap r s).unitNo = s.unitNo := rfl

/-! ### `goto` -/

@[simp] theorem goto_t (p : Phase) : (goto p s).t = s.t := rfl
@[simp] theorem goto_tv (p : Phase) : (goto p s).tv = s.tv := rfl
@[simp] theorem goto_sidx (p : Phase) : (goto p s).sidx = s.sidx := rfl
@[simp] theorem goto_off (p : Phase) : (goto p s).off = s.off := rfl
@[simp] theorem goto_len (p : Phase) : (goto p s).len = s.len := rfl
@[simp] theorem goto_cf (p : Phase) : (goto p s).cf = s.cf := rfl
@[simp] theorem goto_done (p : Phase) : (goto p s).done = s.done := rfl
@[simp] theorem goto_err (p : Phase) : (goto p s).err = s.err := rfl
@[simp] theorem goto_ecode (p : Phase) : (goto p s).ecode = s.ecode := rfl
@[simp] theorem goto_phase (p : Phase) : (goto p s).phase = p := rfl
@[simp] theorem goto_n (p : Phase) : (goto p s).n = s.n := rfl
@[simp] theorem goto_rem (p : Phase) : (goto p s).rem = s.rem := rfl
@[simp] theorem goto_j (p : Phase) : (goto p s).j = s.j := rfl
@[simp] theorem goto_opl (p : Phase) : (goto p s).opl = s.opl := rfl
@[simp] theorem goto_dirl (p : Phase) : (goto p s).dirl = s.dirl := rfl
@[simp] theorem goto_inflight (p : Phase) : (goto p s).inflight = s.inflight := rfl
@[simp] theorem goto_mem (p : Phase) : (goto p s).mem = s.mem := rfl
@[simp] theorem goto_bufBytes (p : Phase) : (goto p s).bufBytes = s.bufBytes := rfl
@[simp] theorem goto_cipher (p : Phase) : (goto p s).cipher = s.cipher := rfl
@[simp] theorem goto_k1 (p : Phase) : (goto p s).k1 = s.k1 := rfl
@[simp] theorem goto_k2 (p : Phase) : (goto p s).k2 = s.k2 := rfl
@[simp] theorem goto_inbox (p : Phase) : (goto p s).inbox = s.inbox := rfl
@[simp] theorem goto_rdata (p : Phase) : (goto p s).rdata = s.rdata := rfl
@[simp] theorem goto_bdata (p : Phase) : (goto p s).bdata = s.bdata := rfl
@[simp] theorem goto_portLog (p : Phase) : (goto p s).portLog = s.portLog := rfl
@[simp] theorem goto_draws (p : Phase) : (goto p s).draws = s.draws := rfl
@[simp] theorem goto_unitNo (p : Phase) : (goto p s).unitNo = s.unitNo := rfl

/-! ### `complete` -/

@[simp] theorem complete_t : (complete s).t = s.t := rfl
@[simp] theorem complete_tv : (complete s).tv = s.tv := rfl
@[simp] theorem complete_sidx : (complete s).sidx = s.sidx := rfl
@[simp] theorem complete_off : (complete s).off = s.off := rfl
@[simp] theorem complete_len : (complete s).len = s.len := rfl
@[simp] theorem complete_cf : (complete s).cf = s.cf := rfl
@[simp] theorem complete_done : (complete s).done = true := rfl
@[simp] theorem complete_err : (complete s).err = s.err := rfl
@[simp] theorem complete_ecode : (complete s).ecode = s.ecode := rfl
@[simp] theorem complete_phase : (complete s).phase = .idle := rfl
@[simp] theorem complete_n : (complete s).n = s.n := rfl
@[simp] theorem complete_rem : (complete s).rem = s.rem := rfl
@[simp] theorem complete_j : (complete s).j = s.j := rfl
@[simp] theorem complete_opl : (complete s).opl = s.opl := rfl
@[simp] theorem complete_dirl : (complete s).dirl = s.dirl := rfl
@[simp] theorem complete_inflight : (complete s).inflight = s.inflight := rfl
@[simp] theorem complete_mem : (complete s).mem = s.mem := rfl
@[simp] theorem complete_bufBytes : (complete s).bufBytes = s.bufBytes := rfl
@[simp] theorem complete_cipher : (complete s).cipher = s.cipher := rfl
@[simp] theorem complete_k1 : (complete s).k1 = s.k1 := rfl
@[simp] theorem complete_k2 : (complete s).k2 = s.k2 := rfl
@[simp] theorem complete_inbox : (complete s).inbox = s.inbox := rfl
@[simp] theorem complete_rdata : (complete s).rdata = s.rdata := rfl
@[simp] theorem complete_bdata : (complete s).bdata = s.bdata := rfl
@[simp] theorem complete_portLog : (complete s).portLog = s.portLog := rfl
@[simp] theorem complete_draws : (complete s).draws = s.draws := rfl
@[simp] theorem complete_unitNo : (complete s).unitNo = s.unitNo := rfl

/-! ### `drawTweak` -/

@[simp] theorem drawTweak_t : (drawTweak s).t = Config.freeTweak s.unitNo s.draws := rfl
@[simp] theorem drawTweak_tv : (drawTweak s).tv = s.tv := rfl
@[simp] theorem drawTweak_sidx : (drawTweak s).sidx = s.sidx := rfl
@[simp] theorem drawTweak_off : (drawTweak s).off = s.off := rfl
@[simp] theorem drawTweak_len : (drawTweak s).len = s.len := rfl
@[simp] theorem drawTweak_cf : (drawTweak s).cf = Config.freeCarry s.unitNo s.draws := rfl
@[simp] theorem drawTweak_done : (drawTweak s).done = s.done := rfl
@[simp] theorem drawTweak_err : (drawTweak s).err = s.err := rfl
@[simp] theorem drawTweak_ecode : (drawTweak s).ecode = s.ecode := rfl
@[simp] theorem drawTweak_phase : (drawTweak s).phase = s.phase := rfl
@[simp] theorem drawTweak_n : (drawTweak s).n = s.n := rfl
@[simp] theorem drawTweak_rem : (drawTweak s).rem = s.rem := rfl
@[simp] theorem drawTweak_j : (drawTweak s).j = s.j := rfl
@[simp] theorem drawTweak_opl : (drawTweak s).opl = s.opl := rfl
@[simp] theorem drawTweak_dirl : (drawTweak s).dirl = s.dirl := rfl
@[simp] theorem drawTweak_inflight : (drawTweak s).inflight = s.inflight := rfl
@[simp] theorem drawTweak_mem : (drawTweak s).mem = s.mem := rfl
@[simp] theorem drawTweak_bufBytes : (drawTweak s).bufBytes = s.bufBytes := rfl
@[simp] theorem drawTweak_cipher : (drawTweak s).cipher = s.cipher := rfl
@[simp] theorem drawTweak_k1 : (drawTweak s).k1 = s.k1 := rfl
@[simp] theorem drawTweak_k2 : (drawTweak s).k2 = s.k2 := rfl
@[simp] theorem drawTweak_inbox : (drawTweak s).inbox = s.inbox := rfl
@[simp] theorem drawTweak_rdata : (drawTweak s).rdata = s.rdata := rfl
@[simp] theorem drawTweak_bdata : (drawTweak s).bdata = s.bdata := rfl
@[simp] theorem drawTweak_portLog : (drawTweak s).portLog = s.portLog := rfl
@[simp] theorem drawTweak_draws : (drawTweak s).draws = s.draws + 1 := rfl
@[simp] theorem drawTweak_unitNo : (drawTweak s).unitNo = s.unitNo := rfl

/-! ### `finish` -/

@[simp] theorem finish_t : (finish s).t = Config.freeTweak s.unitNo s.draws := rfl
@[simp] theorem finish_tv : (finish s).tv = false := rfl
@[simp] theorem finish_sidx : (finish s).sidx = s.sidx := rfl
@[simp] theorem finish_off : (finish s).off = s.off := rfl
@[simp] theorem finish_len : (finish s).len = s.len := rfl
@[simp] theorem finish_cf : (finish s).cf = Config.freeCarry s.unitNo s.draws := rfl
@[simp] theorem finish_done : (finish s).done = true := rfl
@[simp] theorem finish_err : (finish s).err = s.err := rfl
@[simp] theorem finish_ecode : (finish s).ecode = s.ecode := rfl
@[simp] theorem finish_phase : (finish s).phase = .idle := rfl
@[simp] theorem finish_n : (finish s).n = s.n := rfl
@[simp] theorem finish_rem : (finish s).rem = s.rem := rfl
@[simp] theorem finish_j : (finish s).j = s.j := rfl
@[simp] theorem finish_opl : (finish s).opl = s.opl := rfl
@[simp] theorem finish_dirl : (finish s).dirl = s.dirl := rfl
@[simp] theorem finish_inflight : (finish s).inflight = s.inflight := rfl
@[simp] theorem finish_mem : (finish s).mem = s.mem := rfl
@[simp] theorem finish_bufBytes : (finish s).bufBytes = s.bufBytes := rfl
@[simp] theorem finish_cipher : (finish s).cipher = s.cipher := rfl
@[simp] theorem finish_k1 : (finish s).k1 = s.k1 := rfl
@[simp] theorem finish_k2 : (finish s).k2 = s.k2 := rfl
@[simp] theorem finish_inbox : (finish s).inbox = s.inbox := rfl
@[simp] theorem finish_rdata : (finish s).rdata = s.rdata := rfl
@[simp] theorem finish_bdata : (finish s).bdata = s.bdata := rfl
@[simp] theorem finish_portLog : (finish s).portLog = s.portLog := rfl
@[simp] theorem finish_draws : (finish s).draws = s.draws + 1 := rfl
@[simp] theorem finish_unitNo : (finish s).unitNo = s.unitNo := rfl

/-! ### `doubleTweak` -/

@[simp] theorem doubleTweak_t : (doubleTweak s).t = (gfDouble s.t).1 := rfl
@[simp] theorem doubleTweak_tv : (doubleTweak s).tv = s.tv := rfl
@[simp] theorem doubleTweak_sidx : (doubleTweak s).sidx = s.sidx := rfl
@[simp] theorem doubleTweak_off : (doubleTweak s).off = s.off := rfl
@[simp] theorem doubleTweak_len : (doubleTweak s).len = s.len := rfl
@[simp] theorem doubleTweak_cf : (doubleTweak s).cf = (gfDouble s.t).2 := rfl
@[simp] theorem doubleTweak_done : (doubleTweak s).done = s.done := rfl
@[simp] theorem doubleTweak_err : (doubleTweak s).err = s.err := rfl
@[simp] theorem doubleTweak_ecode : (doubleTweak s).ecode = s.ecode := rfl
@[simp] theorem doubleTweak_phase : (doubleTweak s).phase = s.phase := rfl
@[simp] theorem doubleTweak_n : (doubleTweak s).n = s.n := rfl
@[simp] theorem doubleTweak_rem : (doubleTweak s).rem = s.rem := rfl
@[simp] theorem doubleTweak_j : (doubleTweak s).j = s.j := rfl
@[simp] theorem doubleTweak_opl : (doubleTweak s).opl = s.opl := rfl
@[simp] theorem doubleTweak_dirl : (doubleTweak s).dirl = s.dirl := rfl
@[simp] theorem doubleTweak_inflight : (doubleTweak s).inflight = s.inflight := rfl
@[simp] theorem doubleTweak_mem : (doubleTweak s).mem = s.mem := rfl
@[simp] theorem doubleTweak_bufBytes : (doubleTweak s).bufBytes = s.bufBytes := rfl
@[simp] theorem doubleTweak_cipher : (doubleTweak s).cipher = s.cipher := rfl
@[simp] theorem doubleTweak_k1 : (doubleTweak s).k1 = s.k1 := rfl
@[simp] theorem doubleTweak_k2 : (doubleTweak s).k2 = s.k2 := rfl
@[simp] theorem doubleTweak_inbox : (doubleTweak s).inbox = s.inbox := rfl
@[simp] theorem doubleTweak_rdata : (doubleTweak s).rdata = s.rdata := rfl
@[simp] theorem doubleTweak_bdata : (doubleTweak s).bdata = s.bdata := rfl
@[simp] theorem doubleTweak_portLog : (doubleTweak s).portLog = s.portLog := rfl
@[simp] theorem doubleTweak_draws : (doubleTweak s).draws = s.draws := rfl
@[simp] theorem doubleTweak_unitNo : (doubleTweak s).unitNo = s.unitNo := rfl

/-! ### `halveTweak` -/

@[simp] theorem halveTweak_t : (halveTweak s).t = gfHalve s.t s.cf := rfl
@[simp] theorem halveTweak_tv : (halveTweak s).tv = s.tv := rfl
@[simp] theorem halveTweak_sidx : (halveTweak s).sidx = s.sidx := rfl
@[simp] theorem halveTweak_off : (halveTweak s).off = s.off := rfl
@[simp] theorem halveTweak_len : (halveTweak s).len = s.len := rfl
@[simp] theorem halveTweak_cf : (halveTweak s).cf = s.cf := rfl
@[simp] theorem halveTweak_done : (halveTweak s).done = s.done := rfl
@[simp] theorem halveTweak_err : (halveTweak s).err = s.err := rfl
@[simp] theorem halveTweak_ecode : (halveTweak s).ecode = s.ecode := rfl
@[simp] theorem halveTweak_phase : (halveTweak s).phase = s.phase := rfl
@[simp] theorem halveTweak_n : (halveTweak s).n = s.n := rfl
@[simp] theorem halveTweak_rem : (halveTweak s).rem = s.rem := rfl
@[simp] theorem halveTweak_j : (halveTweak s).j = s.j := rfl
@[simp] theorem halveTweak_opl : (halveTweak s).opl = s.opl := rfl
@[simp] theorem halveTweak_dirl : (halveTweak s).dirl = s.dirl := rfl
@[simp] theorem halveTweak_inflight : (halveTweak s).inflight = s.inflight := rfl
@[simp] theorem halveTweak_mem : (halveTweak s).mem = s.mem := rfl
@[simp] theorem halveTweak_bufBytes : (halveTweak s).bufBytes = s.bufBytes := rfl
@[simp] theorem halveTweak_cipher : (halveTweak s).cipher = s.cipher := rfl
@[simp] theorem halveTweak_k1 : (halveTweak s).k1 = s.k1 := rfl
@[simp] theorem halveTweak_k2 : (halveTweak s).k2 = s.k2 := rfl
@[simp] theorem halveTweak_inbox : (halveTweak s).inbox = s.inbox := rfl
@[simp] theorem halveTweak_rdata : (halveTweak s).rdata = s.rdata := rfl
@[simp] theorem halveTweak_bdata : (halveTweak s).bdata = s.bdata := rfl
@[simp] theorem halveTweak_portLog : (halveTweak s).portLog = s.portLog := rfl
@[simp] theorem halveTweak_draws : (halveTweak s).draws = s.draws := rfl
@[simp] theorem halveTweak_unitNo : (halveTweak s).unitNo = s.unitNo := rfl

/-! ### `cipherRequest` -/

@[simp] theorem cipherRequest_t (r : CipherRequest) : (cipherRequest r s).t = s.t := rfl
@[simp] theorem cipherRequest_tv (r : CipherRequest) : (cipherRequest r s).tv = s.tv := rfl
@[simp] theorem cipherRequest_sidx (r : CipherRequest) : (cipherRequest r s).sidx = s.sidx := rfl
@[simp] theorem cipherRequest_off (r : CipherRequest) : (cipherRequest r s).off = s.off := rfl
@[simp] theorem cipherRequest_len (r : CipherRequest) : (cipherRequest r s).len = s.len := rfl
@[simp] theorem cipherRequest_cf (r : CipherRequest) : (cipherRequest r s).cf = s.cf := rfl
@[simp] theorem cipherRequest_done (r : CipherRequest) : (cipherRequest r s).done = s.done := rfl
@[simp] theorem cipherRequest_err (r : CipherRequest) : (cipherRequest r s).err = s.err := rfl
@[simp] theorem cipherRequest_ecode (r : CipherRequest) : (cipherRequest r s).ecode = s.ecode := rfl
@[simp] theorem cipherRequest_phase (r : CipherRequest) : (cipherRequest r s).phase = s.phase := rfl
@[simp] theorem cipherRequest_n (r : CipherRequest) : (cipherRequest r s).n = s.n := rfl
@[simp] theorem cipherRequest_rem (r : CipherRequest) : (cipherRequest r s).rem = s.rem := rfl
@[simp] theorem cipherRequest_j (r : CipherRequest) : (cipherRequest r s).j = s.j := rfl
@[simp] theorem cipherRequest_opl (r : CipherRequest) : (cipherRequest r s).opl = s.opl := rfl
@[simp] theorem cipherRequest_dirl (r : CipherRequest) : (cipherRequest r s).dirl = s.dirl := rfl
@[simp] theorem cipherRequest_inflight (r : CipherRequest) : (cipherRequest r s).inflight = some r := rfl
@[simp] theorem cipherRequest_mem (r : CipherRequest) : (cipherRequest r s).mem = s.mem := rfl
@[simp] theorem cipherRequest_bufBytes (r : CipherRequest) : (cipherRequest r s).bufBytes = s.bufBytes := rfl
@[simp] theorem cipherRequest_cipher (r : CipherRequest) : (cipherRequest r s).cipher = s.cipher := rfl
@[simp] theorem cipherRequest_k1 (r : CipherRequest) : (cipherRequest r s).k1 = s.k1 := rfl
@[simp] theorem cipherRequest_k2 (r : CipherRequest) : (cipherRequest r s).k2 = s.k2 := rfl
@[simp] theorem cipherRequest_inbox (r : CipherRequest) : (cipherRequest r s).inbox = s.inbox := rfl
@[simp] theorem cipherRequest_rdata (r : CipherRequest) : (cipherRequest r s).rdata = s.rdata := rfl
@[simp] theorem cipherRequest_bdata (r : CipherRequest) : (cipherRequest r s).bdata = s.bdata := rfl
@[simp] theorem cipherRequest_portLog (r : CipherRequest) : (cipherRequest r s).portLog = .request r :: s.portLog := rfl
@[simp] theorem cipherRequest_draws (r : CipherRequest) : (cipherRequest r s).draws = s.draws := rfl
@[simp] theorem cipherRequest_unitNo (r : CipherRequest) : (cipherRequest r s).unitNo = s.unitNo := rfl

/-! ### `readUnspecified` -/

@[simp] theorem readUnspecified_t : (readUnspecified s).t = s.t := rfl
@[simp] theorem readUnspecified_tv : (readUnspecified s).tv = s.tv := rfl
@[simp] theorem readUnspecified_sidx : (readUnspecified s).sidx = s.sidx := rfl
@[simp] theorem readUnspecified_off : (readUnspecified s).off = s.off := rfl
@[simp] theorem readUnspecified_len : (readUnspecified s).len = s.len := rfl
@[simp] theorem readUnspecified_cf : (readUnspecified s).cf = s.cf := rfl
@[simp] theorem readUnspecified_done : (readUnspecified s).done = s.done := rfl
@[simp] theorem readUnspecified_err : (readUnspecified s).err = s.err := rfl
@[simp] theorem readUnspecified_ecode : (readUnspecified s).ecode = s.ecode := rfl
@[simp] theorem readUnspecified_phase : (readUnspecified s).phase = s.phase := rfl
@[simp] theorem readUnspecified_n : (readUnspecified s).n = s.n := rfl
@[simp] theorem readUnspecified_rem : (readUnspecified s).rem = s.rem := rfl
@[simp] theorem readUnspecified_j : (readUnspecified s).j = s.j := rfl
@[simp] theorem readUnspecified_opl : (readUnspecified s).opl = s.opl := rfl
@[simp] theorem readUnspecified_dirl : (readUnspecified s).dirl = s.dirl := rfl
@[simp] theorem readUnspecified_inflight : (readUnspecified s).inflight = s.inflight := rfl
@[simp] theorem readUnspecified_mem : (readUnspecified s).mem = s.mem := rfl
@[simp] theorem readUnspecified_bufBytes : (readUnspecified s).bufBytes = s.bufBytes := rfl
@[simp] theorem readUnspecified_cipher : (readUnspecified s).cipher = s.cipher := rfl
@[simp] theorem readUnspecified_k1 : (readUnspecified s).k1 = s.k1 := rfl
@[simp] theorem readUnspecified_k2 : (readUnspecified s).k2 = s.k2 := rfl
@[simp] theorem readUnspecified_inbox : (readUnspecified s).inbox = s.inbox := rfl
@[simp] theorem readUnspecified_rdata : (readUnspecified s).rdata = Config.freeRead s.unitNo s.draws := rfl
@[simp] theorem readUnspecified_bdata : (readUnspecified s).bdata = s.bdata := rfl
@[simp] theorem readUnspecified_portLog : (readUnspecified s).portLog = s.portLog := rfl
@[simp] theorem readUnspecified_draws : (readUnspecified s).draws = s.draws + 1 := rfl
@[simp] theorem readUnspecified_unitNo : (readUnspecified s).unitNo = s.unitNo := rfl

end Sys2Proof.Machine
end

