-- ==== Sys2Proof/Laws/Ports.lean ====
section
/-! SUPPORT. What the operations of the two ports do: one equation for each, and the bytes they leave
(20_memory.md R62, R63, 42_block_transform.md R140, R143, 44_ciphertext_stealing.md R180). -/

namespace Sys2Proof.Machine

theorem memRead_eq (a n : Nat) (s : State) :
    memRead a n s = if a + n ≤ s.bufBytes then
      .ok (s.mem.readBytes a n, s.log (.memRead a (s.mem.readBytes a n))) else .error .outsideBuffer := by
  simp [memRead, inBuffer]

theorem memWrite_eq (a : Nat) (bs : List Byte) (s : State) :
    memWrite a bs s = if a + bs.length ≤ s.bufBytes then
      .ok ({ s with mem := s.mem.writeBytes a bs }.log (.memWrite a bs)) else .error .outsideBuffer := by
  simp [memWrite, inBuffer]

theorem cipherCall_eq (ksel : KeySel) (op : Dir) (x : Block) (s : State) :
    cipherCall ksel op x s = .ok (cipherFn s ksel op x, { s with
      inflight := none
      portLog := .answer (cipherFn s ksel op x) :: .request ⟨ksel, op, x⟩ :: s.portLog }) := by
  cases ksel <;> rfl

/-- The block a transform at `a` leaves there (42_block_transform.md R140). -/
def xexBlock (s : State) (dir : Dir) (a : Nat) : Block := xex s dir s.t (leBlock (s.mem.readBytes a 16))

/-- What one transform at `a` leaves (42_block_transform.md R140, R143). -/
def xexPost (dir : Dir) (a : Nat) (s : State) : State :=
  let x := leBlock (s.mem.readBytes a 16) ^^^ s.t
  { s with
    mem := s.mem.writeBytes a (blockBytes (xexBlock s dir a))
    inflight := none
    portLog := .memWrite a (blockBytes (xexBlock s dir a)) :: .answer (cipherFn s .k1 dir x) ::
      .request ⟨.k1, dir, x⟩ :: .memRead a (s.mem.readBytes a 16) :: s.portLog }

@[simp] theorem xexPost_t (dir : Dir) (a : Nat) (s : State) : (xexPost dir a s).t = s.t := rfl
@[simp] theorem xexPost_tv (dir : Dir) (a : Nat) (s : State) : (xexPost dir a s).tv = s.tv := rfl
@[simp] theorem xexPost_sidx (dir : Dir) (a : Nat) (s : State) : (xexPost dir a s).sidx = s.sidx := rfl
@[simp] theorem xexPost_off (dir : Dir) (a : Nat) (s : State) : (xexPost dir a s).off = s.off := rfl
@[simp] theorem xexPost_len (dir : Dir) (a : Nat) (s : State) : (xexPost dir a s).len = s.len := rfl
@[simp] theorem xexPost_cf (dir : Dir) (a : Nat) (s : State) : (xexPost dir a s).cf = s.cf := rfl
@[simp] theorem xexPost_done (dir : Dir) (a : Nat) (s : State) : (xexPost dir a s).done = s.done := rfl
@[simp] theorem xexPost_err (dir : Dir) (a : Nat) (s : State) : (xexPost dir a s).err = s.err := rfl
@[simp] theorem xexPost_ecode (dir : Dir) (a : Nat) (s : State) : (xexPost dir a s).ecode = s.ecode := rfl
@[simp] theorem xexPost_phase (dir : Dir) (a : Nat) (s : State) : (xexPost dir a s).phase = s.phase := rfl
@[simp] theorem xexPost_n (dir : Dir) (a : Nat) (s : State) : (xexPost dir a s).n = s.n := rfl
@[simp] theorem xexPost_rem (dir : Dir) (a : Nat) (s : State) : (xexPost dir a s).rem = s.rem := rfl
@[simp] theorem xexPost_j (dir : Dir) (a : Nat) (s : State) : (xexPost dir a s).j = s.j := rfl
@[simp] theorem xexPost_opl (dir : Dir) (a : Nat) (s : State) : (xexPost dir a s).opl = s.opl := rfl
@[simp] theorem xexPost_dirl (dir : Dir) (a : Nat) (s : State) : (xexPost dir a s).dirl = s.dirl := rfl
@[simp] theorem xexPost_bufBytes (dir : Dir) (a : Nat) (s : State) : (xexPost dir a s).bufBytes = s.bufBytes := rfl
@[simp] theorem xexPost_cipher (dir : Dir) (a : Nat) (s : State) : (xexPost dir a s).cipher = s.cipher := rfl
@[simp] theorem xexPost_k1 (dir : Dir) (a : Nat) (s : State) : (xexPost dir a s).k1 = s.k1 := rfl
@[simp] theorem xexPost_k2 (dir : Dir) (a : Nat) (s : State) : (xexPost dir a s).k2 = s.k2 := rfl
@[simp] theorem xexPost_inbox (dir : Dir) (a : Nat) (s : State) : (xexPost dir a s).inbox = s.inbox := rfl
@[simp] theorem xexPost_rdata (dir : Dir) (a : Nat) (s : State) : (xexPost dir a s).rdata = s.rdata := rfl
@[simp] theorem xexPost_bdata (dir : Dir) (a : Nat) (s : State) : (xexPost dir a s).bdata = s.bdata := rfl
@[simp] theorem xexPost_draws (dir : Dir) (a : Nat) (s : State) : (xexPost dir a s).draws = s.draws := rfl
@[simp] theorem xexPost_unitNo (dir : Dir) (a : Nat) (s : State) : (xexPost dir a s).unitNo = s.unitNo := rfl
@[simp] theorem xexPost_inflight (dir : Dir) (a : Nat) (s : State) : (xexPost dir a s).inflight = none := rfl

theorem xexAt_eq (dir : Dir) (a : Nat) (s : State) :
    xexAt dir a s = if a + 16 ≤ s.bufBytes then .ok (xexPost dir a s) else .error .outsideBuffer := by
  unfold xexAt
  rw [memRead_eq]
  split
  · simp only [cipherCall_eq, bind, Except.bind, memWrite_eq]
    rw [if_pos (by simpa using (by assumption))]
    rfl
  · rfl

/-- What the swap at `a` leaves (44_ciphertext_stealing.md R180). -/
def swapPost (a r : Nat) (s : State) : State :=
  let h := s.mem.readBytes a r
  let tail := s.mem.readBytes (a + 16) r
  { s with
    mem := (s.mem.writeBytes a tail).writeBytes (a + 16) h
    portLog := .memWrite (a + 16) h :: .memWrite a tail :: .memRead (a + 16) tail :: .memRead a h :: s.portLog }

@[simp] theorem swapPost_t (a r : Nat) (s : State) : (swapPost a r s).t = s.t := rfl
@[simp] theorem swapPost_tv (a r : Nat) (s : State) : (swapPost a r s).tv = s.tv := rfl
@[simp] theorem swapPost_sidx (a r : Nat) (s : State) : (swapPost a r s).sidx = s.sidx := rfl
@[simp] theorem swapPost_off (a r : Nat) (s : State) : (swapPost a r s).off = s.off := rfl
@[simp] theorem swapPost_len (a r : Nat) (s : State) : (swapPost a r s).len = s.len := rfl
@[simp] theorem swapPost_cf (a r : Nat) (s : State) : (swapPost a r s).cf = s.cf := rfl
@[simp] theorem swapPost_done (a r : Nat) (s : State) : (swapPost a r s).done = s.done := rfl
@[simp] theorem swapPost_err (a r : Nat) (s : State) : (swapPost a r s).err = s.err := rfl
@[simp] theorem swapPost_ecode (a r : Nat) (s : State) : (swapPost a r s).ecode = s.ecode := rfl
@[simp] theorem swapPost_phase (a r : Nat) (s : State) : (swapPost a r s).phase = s.phase := rfl
@[simp] theorem swapPost_n (a r : Nat) (s : State) : (swapPost a r s).n = s.n := rfl
@[simp] theorem swapPost_rem (a r : Nat) (s : State) : (swapPost a r s).rem = s.rem := rfl
@[simp] theorem swapPost_j (a r : Nat) (s : State) : (swapPost a r s).j = s.j := rfl
@[simp] theorem swapPost_opl (a r : Nat) (s : State) : (swapPost a r s).opl = s.opl := rfl
@[simp] theorem swapPost_dirl (a r : Nat) (s : State) : (swapPost a r s).dirl = s.dirl := rfl
@[simp] theorem swapPost_bufBytes (a r : Nat) (s : State) : (swapPost a r s).bufBytes = s.bufBytes := rfl
@[simp] theorem swapPost_cipher (a r : Nat) (s : State) : (swapPost a r s).cipher = s.cipher := rfl
@[simp] theorem swapPost_k1 (a r : Nat) (s : State) : (swapPost a r s).k1 = s.k1 := rfl
@[simp] theorem swapPost_k2 (a r : Nat) (s : State) : (swapPost a r s).k2 = s.k2 := rfl
@[simp] theorem swapPost_inbox (a r : Nat) (s : State) : (swapPost a r s).inbox = s.inbox := rfl
@[simp] theorem swapPost_rdata (a r : Nat) (s : State) : (swapPost a r s).rdata = s.rdata := rfl
@[simp] theorem swapPost_bdata (a r : Nat) (s : State) : (swapPost a r s).bdata = s.bdata := rfl
@[simp] theorem swapPost_draws (a r : Nat) (s : State) : (swapPost a r s).draws = s.draws := rfl
@[simp] theorem swapPost_unitNo (a r : Nat) (s : State) : (swapPost a r s).unitNo = s.unitNo := rfl
@[simp] theorem swapPost_inflight (a r : Nat) (s : State) : (swapPost a r s).inflight = s.inflight := rfl

theorem swapAt_eq (a r : Nat) (s : State) :
    swapAt a r s = if a + 16 + r ≤ s.bufBytes then .ok (swapPost a r s) else .error .outsideBuffer := by
  unfold swapAt
  rw [memRead_eq]
  by_cases h : a + 16 + r ≤ s.bufBytes
  · rw [if_pos (by omega), if_pos h]
    simp only [bind, Except.bind, memRead_eq, memWrite_eq, State.log, Memory.length_readBytes]
    rw [if_pos h]
    simp only []
    rw [if_pos (by rw [Memory.length_readBytes]; omega)]
    simp only []
    rw [if_pos (by simpa using h)]
    rfl
  · rw [if_neg h]
    split
    · simp only [bind, Except.bind, memRead_eq, State.log]
      rw [if_neg (by omega)]
    · rfl

/-! ### The bytes they leave -/

@[simp] theorem wf_xexPost (dir : Dir) (a : Nat) {s : State} (h : s.mem.wf = true) :
    (xexPost dir a s).mem.wf = true := Memory.wf_writeBytes _ _ h

@[simp] theorem wf_swapPost (a r : Nat) {s : State} (h : s.mem.wf = true) : (swapPost a r s).mem.wf = true :=
  Memory.wf_writeBytes _ _ (Memory.wf_writeBytes _ _ h)

theorem read_xexPost (dir : Dir) (a : Nat) (s : State) (x : Nat) (h : s.mem.wf = true) :
    (xexPost dir a s).mem.read x =
      if a ≤ x ∧ x < a + 16 then byteOf (xexBlock s dir a) (x - a) else s.mem.read x := by
  simp only [xexPost, Memory.read_writeBytes _ _ _ h, length_blockBytes]
  split <;> simp_all [getElem_blockBytes]

theorem read_swapPost (a r : Nat) (s : State) (x : Nat) (h : s.mem.wf = true) (hr : r ≤ 16) :
    (swapPost a r s).mem.read x =
      if a ≤ x ∧ x < a + r then s.mem.read (x + 16)
      else if a + 16 ≤ x ∧ x < a + 16 + r then s.mem.read (x - 16)
      else s.mem.read x := by
  simp only [swapPost, Memory.read_writeBytes _ _ _ h, Memory.read_writeBytes _ _ _ (Memory.wf_writeBytes _ _ h), Memory.length_readBytes, Memory.getElem_readBytes]
  by_cases h1 : a ≤ x ∧ x < a + r
  · rw [dif_neg (by omega), dif_pos h1, if_pos h1]; congr 1; omega
  · rw [if_neg h1]
    by_cases h2 : a + 16 ≤ x ∧ x < a + 16 + r
    · rw [dif_pos h2, if_pos h2]; congr 1; omega
    · rw [dif_neg h2, dif_neg h1, if_neg h2]
end Sys2Proof.Machine
end

