-- ==== Sys2Proof/Laws/Sequencer.lean ====
section
/-! SUPPORT. Everything one step of the sequencer can do while the latches agree with the running command, and the
run of a command to its end (43_sector_processor.md R155, R156, 46_system.md R215 to R217). -/

namespace Sys2Proof.Machine

/-- What a step of the sequencer keeps of the conditions of `State.Inv` that are not about the latches. -/
structure Kept (s t : State) : Prop where
  memWf : s.mem.wf = true → t.mem.wf = true
  memBelow : s.mem.below s.bufBytes = true → t.mem.below s.bufBytes = true
  host : hostSideSame s t
  err : t.err = s.err
  ecode : t.ecode = s.ecode
  opl : t.opl = s.opl
  dirl : t.dirl = s.dirl
  inflight : s.inflight = none → t.inflight = none

theorem hostSideSame_refl (s : State) : hostSideSame s s :=
  ⟨rfl, rfl, rfl, rfl, rfl, rfl, rfl, rfl, rfl, rfl, rfl⟩

theorem hostSideSame_trans {s t u : State} (h : hostSideSame s t) (h' : hostSideSame t u) : hostSideSame s u := by
  obtain ⟨a1, a2, a3, a4, a5, a6, a7, a8, a9, a10, a11⟩ := h
  obtain ⟨b1, b2, b3, b4, b5, b6, b7, b8, b9, b10, b11⟩ := h'
  exact ⟨b1.trans a1, b2.trans a2, b3.trans a3, b4.trans a4, b5.trans a5, b6.trans a6, b7.trans a7, b8.trans a8,
    b9.trans a9, b10.trans a10, b11.trans a11⟩

theorem Kept.bufBytes {s t : State} (h : Kept s t) : t.bufBytes = s.bufBytes := h.host.2.2.2.1

theorem busy_iff (s : State) : s.busy = true ↔ s.phase ≠ .idle := by simp [State.busy]

theorem busy_false_iff (s : State) : s.busy = false ↔ s.phase = .idle := by simp [State.busy]

theorem Kept.refl (s : State) : Kept s s := ⟨id, id, hostSideSame_refl s, rfl, rfl, rfl, rfl, id⟩

theorem Kept.trans {s t u : State} (h : Kept s t) (h' : Kept t u) : Kept s u where
  memWf := h'.memWf ∘ h.memWf
  memBelow hb := by
    have := h'.memBelow
    rw [h.bufBytes] at this
    exact this (h.memBelow hb)
  host := hostSideSame_trans h.host h'.host
  err := h'.err.trans h.err
  ecode := h'.ecode.trans h.ecode
  opl := h'.opl.trans h.opl
  dirl := h'.dirl.trans h.dirl
  inflight := h'.inflight ∘ h.inflight

theorem kept_xexPost {dir : Dir} {a : Nat} {s : State} (hr : a + 16 ≤ s.bufBytes) : Kept s (xexPost dir a s) :=
  ⟨wf_xexPost _ _, Memory.below_writeBytes (by simpa using hr), hostSideSame_refl s, rfl, rfl, rfl, rfl, fun _ => rfl⟩

theorem kept_swapPost {a r : Nat} {s : State} (hr : a + 16 + r ≤ s.bufBytes) : Kept s (swapPost a r s) :=
  ⟨wf_swapPost _ _, fun h => Memory.below_writeBytes (by simpa using hr)
    (Memory.below_writeBytes (by simp; omega) h), hostSideSame_refl s, rfl, rfl, rfl, rfl, id⟩

theorem kept_doubleTweak (s : State) : Kept s (doubleTweak s) := ⟨id, id, hostSideSame_refl s, rfl, rfl, rfl, rfl, id⟩

theorem kept_halveTweak (s : State) : Kept s (halveTweak s) := ⟨id, id, hostSideSame_refl s, rfl, rfl, rfl, rfl, id⟩

theorem kept_goto {s t : State} (p : Phase) (h : Kept s t) : Kept s (goto p t) :=
  ⟨h.memWf, h.memBelow, h.host, h.err, h.ecode, h.opl, h.dirl, h.inflight⟩

theorem kept_complete {s t : State} (h : Kept s t) : Kept s (complete t) :=
  ⟨h.memWf, h.memBelow, h.host, h.err, h.ecode, h.opl, h.dirl, h.inflight⟩

theorem kept_finish {s t : State} (h : Kept s t) : Kept s (finish t) :=
  ⟨h.memWf, h.memBelow, h.host, h.err, h.ecode, h.opl, h.dirl, h.inflight⟩

/-- The latches of a running sector command. -/
structure SectorLatches (s : State) : Prop where
  opl : s.opl = opcode .secte ∨ s.opl = opcode .sectd
  dirl : s.dirl = opcodeDir s.opl
  tv : s.tv = true
  len : 16 ≤ s.len.toNat
  region : s.off.toNat + s.len.toNat ≤ s.bufBytes
  n : s.n.toNat = s.len.toNat / 16
  rem : s.rem.toNat = s.len.toNat % 16

theorem toNat_blockCount (len : Word) : (blockCount len).toNat = len.toNat / 16 := by
  have := len.isLt
  rw [blockCount, BitVec.toNat_ofNat]; omega

theorem toNat_remainder (len : Word) : (remainder len).toNat = len.toNat % 16 := by
  rw [remainder, BitVec.toNat_ofNat]; omega

theorem SectorLatches.n_eq {s : State} (h : SectorLatches s) : s.n = blockCount s.len :=
  BitVec.eq_of_toNat_eq (by rw [h.n, toNat_blockCount])

theorem SectorLatches.rem_eq {s : State} (h : SectorLatches s) : s.rem = remainder s.len :=
  BitVec.eq_of_toNat_eq (by rw [h.rem, toNat_remainder])

/-- Whether a phase is one of a sector command. -/
def isSectorPhase : Phase → Bool
  | .sBodyX | .sBodyD | .sLast | .sE1 | .sE2 | .sE3 | .sE4 | .sD1 | .sD2 | .sD3 | .sD4 | .sD5 => true
  | .idle | .pNop | .pDouble | .pHalve | .pTwgen | .pXex | .pSwap => false

/-- The part of `LatchesOk` that depends on the phase of a sector command. -/
def PhaseOk (s : State) : Prop :=
  if s.phase = .sBodyX ∨ s.phase = .sBodyD then s.j.toNat + 2 ≤ s.n.toNat
  else s.j.toNat + 1 = s.n.toNat ∧
    (if s.phase = .sLast then s.rem = 0#4
      else s.rem ≠ 0#4 ∧ (s.dirl = .enc ↔ s.phase = .sE1 ∨ s.phase = .sE2 ∨ s.phase = .sE3 ∨ s.phase = .sE4))

theorem latchesOk_sector {s : State} (hp : isSectorPhase s.phase = true) :
    LatchesOk s ↔ SectorLatches s ∧ PhaseOk s := by
  have key : LatchesOk s ↔ (s.opl = opcode .secte ∨ s.opl = opcode .sectd) ∧ s.dirl = opcodeDir s.opl ∧
      s.tv = true ∧ 16 ≤ s.len.toNat ∧ s.off.toNat + s.len.toNat ≤ s.bufBytes ∧ s.n = blockCount s.len ∧
      s.rem = remainder s.len ∧ PhaseOk s := by
    unfold LatchesOk PhaseOk
    cases hs : s.phase <;> first | (rw [hs] at hp; cases hp) | rfl
  rw [key]
  constructor
  · rintro ⟨h1, h2, h3, h4, h5, h6, h7, h8⟩
    exact ⟨⟨h1, h2, h3, h4, h5, by rw [h6, toNat_blockCount], by rw [h7, toNat_remainder]⟩, h8⟩
  · rintro ⟨h, h8⟩
    exact ⟨h.opl, h.dirl, h.tv, h.len, h.region, h.n_eq, h.rem_eq, h8⟩

/-- Latches carry over to a state with the same ones. -/
theorem SectorLatches.of_same {s t : State} (h : SectorLatches s) (h1 : t.opl = s.opl) (h2 : t.dirl = s.dirl)
    (h3 : t.tv = s.tv) (h4 : t.len = s.len) (h5 : t.off = s.off) (h6 : t.bufBytes = s.bufBytes) (h7 : t.n = s.n)
    (h8 : t.rem = s.rem) : SectorLatches t := by
  constructor
  · rw [h1]; exact h.opl
  · rw [h1, h2]; exact h.dirl
  · rw [h3]; exact h.tv
  · rw [h4]; exact h.len
  · rw [h4, h5, h6]; exact h.region
  · rw [h4, h7]; exact h.n
  · rw [h4, h8]; exact h.rem

/-- What one step of a running command leads to: latches that agree with the command, one step nearer the end. -/
structure Stepped (s t : State) : Prop where
  kept : Kept s t
  latches : LatchesOk t
  left : stepsLeft t + 1 = stepsLeft s
  done : if t.phase = .idle then t.done = true else t.done = s.done

theorem stepped_finish {s t : State} (hk : Kept s t) (hl : stepsLeft s = 1) : Stepped s (finish t) :=
  ⟨kept_finish hk, trivial, by rw [hl]; rfl, by simp⟩

theorem stepped_complete {s t : State} (hk : Kept s t) (hl : stepsLeft s = 1) : Stepped s (complete t) :=
  ⟨kept_complete hk, trivial, by rw [hl]; rfl, by simp⟩

/-- A step inside a sector command. -/
theorem stepped_tail {s t : State} (p : Phase) (hk : Kept s t) (hd : t.done = s.done) (hs : SectorLatches t)
    (hp : isSectorPhase p = true) (hph : PhaseOk (goto p t)) (hl : stepsLeft (goto p t) + 1 = stepsLeft s) :
    Stepped s (goto p t) where
  kept := kept_goto p hk
  latches := (latchesOk_sector (s := goto p t) hp).2 ⟨hs.of_same rfl rfl rfl rfl rfl rfl rfl rfl, hph⟩
  left := hl
  done := by
    rw [goto_phase, if_neg (by rintro rfl; cases hp)]
    exact hd

/-- Everything one step of the sequencer can do while the latches agree with the command: it succeeds. -/
theorem seqStep_stepped (s : State) (hl : LatchesOk s) (hb : s.busy = true) :
    ∃ t, seqStep s = .ok t ∧ Stepped s t := by
  cases hp : s.phase with
  | idle => rw [busy_iff, hp] at hb; exact absurd rfl hb
  | pNop =>
    exact ⟨complete s, by simp [seqStep, hp, stepNop], stepped_complete (Kept.refl s) (by simp [stepsLeft, hp])⟩
  | pDouble =>
    exact ⟨_, by simp [seqStep, hp, stepDouble],
      stepped_complete (kept_doubleTweak s) (by simp [stepsLeft, hp])⟩
  | pHalve =>
    exact ⟨_, by simp [seqStep, hp, stepHalve], stepped_complete (kept_halveTweak s) (by simp [stepsLeft, hp])⟩
  | pTwgen =>
    refine ⟨_, by simp [seqStep, hp, stepTwgen, cipherCall_eq, bind, Except.bind, pure, Except.pure]; rfl, ?_⟩
    exact stepped_complete ⟨id, id, hostSideSame_refl s, rfl, rfl, rfl, rfl, fun _ => rfl⟩ (by simp [stepsLeft, hp])
  | pXex =>
    have hr : offAddr s + 16 ≤ s.bufBytes := by simp [LatchesOk, hp] at hl; exact hl.2.2.2
    refine ⟨complete (xexPost s.dirl (offAddr s) s), ?_, stepped_complete (kept_xexPost hr) (by simp [stepsLeft, hp])⟩
    simp only [seqStep, hp, stepXex, xexAt_eq, if_pos hr]; rfl
  | pSwap =>
    have hr : offAddr s + 16 + s.rem.toNat ≤ s.bufBytes := by simp [LatchesOk, hp] at hl; exact hl.2.2
    refine ⟨complete (swapPost (offAddr s) s.rem.toNat s), ?_, stepped_complete (kept_swapPost hr) (by simp [stepsLeft, hp])⟩
    simp only [seqStep, hp, stepSwap, swapAt_eq, if_pos hr]; rfl
  | sBodyX =>
    obtain ⟨hs, hph⟩ := (latchesOk_sector (by rw [hp]; rfl)).1 hl
    have hj : s.j.toNat + 2 ≤ s.n.toNat := by simpa [PhaseOk, hp] using hph
    have hn := hs.n
    have hreg := hs.region
    have hr : bodyAddr s + 16 ≤ s.bufBytes := by unfold bodyAddr; omega
    refine ⟨goto .sBodyD (xexPost s.dirl (bodyAddr s) s), ?_, ?_⟩
    · simp only [seqStep, sectorStep, hp, stepBodyX, xexAt_eq, if_pos hr]; rfl
    · refine stepped_tail _ (kept_xexPost hr) rfl (hs.of_same rfl rfl rfl rfl rfl rfl rfl rfl) rfl ?_ ?_
      · simpa [PhaseOk] using hj
      · simp only [stepsLeft, goto_phase, hp, goto_n, goto_j, xexPost_n, xexPost_j]
        have : tailSteps (goto Phase.sBodyD (xexPost s.dirl (bodyAddr s) s)) = tailSteps s := rfl
        omega
  | sBodyD =>
    obtain ⟨hs, hph⟩ := (latchesOk_sector (by rw [hp]; rfl)).1 hl
    have hj : s.j.toNat + 2 ≤ s.n.toNat := by simpa [PhaseOk, hp] using hph
    have hn := s.n.isLt
    obtain ⟨s1, hs1⟩ : ∃ y : State, y = { doubleTweak s with j := s.j + 1#28 } := ⟨_, rfl⟩
    have hj1 : s1.j.toNat = s.j.toNat + 1 := by rw [hs1]; simp [BitVec.toNat_add]; omega
    have hn1 : s1.n = s.n := by rw [hs1]; rfl
    have hk : Kept s s1 := by rw [hs1]; exact ⟨id, id, hostSideSame_refl s, rfl, rfl, rfl, rfl, id⟩
    have hd : s1.done = s.done := by rw [hs1]; rfl
    have hs' : SectorLatches s1 := by rw [hs1]; exact hs.of_same rfl rfl rfl rfl rfl rfl rfl rfl
    have ht : tailSteps s1 = tailSteps s := by rw [hs1]; rfl
    have he : tailEntry s1 = tailEntry s := by rw [hs1]; rfl
    have hr1 : s1.rem = s.rem := by rw [hs1]; rfl
    have hd1 : s1.dirl = s.dirl := by rw [hs1]; rfl
    refine ⟨goto (if s1.j.toNat + 2 ≤ s1.n.toNat then .sBodyX else tailEntry s1) s1, ?_, ?_⟩
    · rw [hs1]; simp only [seqStep, sectorStep, hp, stepBodyD]
    · by_cases hc : s1.j.toNat + 2 ≤ s1.n.toNat
      · rw [if_pos hc]
        refine stepped_tail _ hk hd hs' rfl (by simpa [PhaseOk] using hc) ?_
        have : tailSteps (goto Phase.sBodyX s1) = tailSteps s := ht
        simp only [stepsLeft, goto_phase, hp, goto_n, goto_j, this, hn1, hj1]
        rw [hn1] at hc
        omega
      · rw [if_neg hc, he]
        rw [hn1] at hc
        have hjn : s1.j.toNat + 1 = s1.n.toNat := by rw [hn1]; omega
        by_cases h0 : s.rem = 0#4
        · have e1 : tailEntry s = .sLast := by simp [tailEntry, h0]
          rw [e1]
          refine stepped_tail _ hk hd hs' rfl (by simp [PhaseOk, hjn, hr1, h0]) ?_
          simp [stepsLeft, hp, tailSteps, h0]; omega
        · cases hdir : s.dirl with
          | enc =>
            have e1 : tailEntry s = .sE1 := by simp [tailEntry, h0, hdir]
            rw [e1]
            refine stepped_tail _ hk hd hs' rfl (by simp [PhaseOk, hjn, hr1, h0, hd1, hdir]) ?_
            simp [stepsLeft, hp, tailSteps, h0, hdir]; omega
          | dec =>
            have e1 : tailEntry s = .sD1 := by simp [tailEntry, h0, hdir]
            rw [e1]
            refine stepped_tail _ hk hd hs' rfl (by simp [PhaseOk, hjn, hr1, h0, hd1, hdir]) ?_
            simp [stepsLeft, hp, tailSteps, h0, hdir]; omega
  | sLast =>
    obtain ⟨hs, hph⟩ := (latchesOk_sector (by rw [hp]; rfl)).1 hl
    have hreg := hs.region
    have hn := hs.n
    have hln := hs.len
    have hr : lastAddr s + 16 ≤ s.bufBytes := by unfold lastAddr; omega
    refine ⟨finish (xexPost s.dirl (lastAddr s) s), ?_, stepped_finish (kept_xexPost hr) (by simp [stepsLeft, hp])⟩
    simp only [seqStep, sectorStep, hp, stepLast, xexAt_eq, if_pos hr]; rfl
  | sE1 =>
    obtain ⟨hs, hph⟩ := (latchesOk_sector (by rw [hp]; rfl)).1 hl
    have hreg := hs.region
    have hn := hs.n
    have hln := hs.len
    have hr : lastAddr s + 16 ≤ s.bufBytes := by unfold lastAddr; omega
    refine ⟨goto .sE2 (xexPost .enc (lastAddr s) s), ?_, ?_⟩
    · simp only [seqStep, sectorStep, hp, stepE1, xexAt_eq, if_pos hr]; rfl
    · refine stepped_tail _ (kept_xexPost hr) rfl (hs.of_same rfl rfl rfl rfl rfl rfl rfl rfl) rfl ?_ (by simp [stepsLeft, hp])
      simpa [PhaseOk, hp] using hph
  | sE2 =>
    obtain ⟨hs, hph⟩ := (latchesOk_sector (by rw [hp]; rfl)).1 hl
    refine ⟨goto .sE3 (doubleTweak s), by simp [seqStep, sectorStep, hp, stepE2], ?_⟩
    refine stepped_tail _ (kept_doubleTweak s) rfl (hs.of_same rfl rfl rfl rfl rfl rfl rfl rfl) rfl ?_ (by simp [stepsLeft, hp])
    simpa [PhaseOk, hp] using hph
  | sE3 =>
    obtain ⟨hs, hph⟩ := (latchesOk_sector (by rw [hp]; rfl)).1 hl
    have hreg := hs.region
    have hn := hs.n
    have hln := hs.len
    have hrm := hs.rem
    have hr : lastAddr s + 16 + s.rem.toNat ≤ s.bufBytes := by unfold lastAddr; omega
    refine ⟨goto .sE4 (swapPost (lastAddr s) s.rem.toNat s), ?_, ?_⟩
    · simp only [seqStep, sectorStep, hp, stepE3, swapAt_eq, if_pos hr]; rfl
    · refine stepped_tail _ (kept_swapPost hr) rfl (hs.of_same rfl rfl rfl rfl rfl rfl rfl rfl) rfl ?_ (by simp [stepsLeft, hp])
      simpa [PhaseOk, hp] using hph
  | sE4 =>
    obtain ⟨hs, hph⟩ := (latchesOk_sector (by rw [hp]; rfl)).1 hl
    have hreg := hs.region
    have hn := hs.n
    have hln := hs.len
    have hr : lastAddr s + 16 ≤ s.bufBytes := by unfold lastAddr; omega
    refine ⟨finish (xexPost .enc (lastAddr s) s), ?_, stepped_finish (kept_xexPost hr) (by simp [stepsLeft, hp])⟩
    simp only [seqStep, sectorStep, hp, stepE4, xexAt_eq, if_pos hr]; rfl
  | sD1 =>
    obtain ⟨hs, hph⟩ := (latchesOk_sector (by rw [hp]; rfl)).1 hl
    refine ⟨goto .sD2 (doubleTweak s), by simp [seqStep, sectorStep, hp, stepD1], ?_⟩
    refine stepped_tail _ (kept_doubleTweak s) rfl (hs.of_same rfl rfl rfl rfl rfl rfl rfl rfl) rfl ?_ (by simp [stepsLeft, hp])
    simpa [PhaseOk, hp] using hph
  | sD2 =>
    obtain ⟨hs, hph⟩ := (latchesOk_sector (by rw [hp]; rfl)).1 hl
    have hreg := hs.region
    have hn := hs.n
    have hln := hs.len
    have hr : lastAddr s + 16 ≤ s.bufBytes := by unfold lastAddr; omega
    refine ⟨goto .sD3 (xexPost .dec (lastAddr s) s), ?_, ?_⟩
    · simp only [seqStep, sectorStep, hp, stepD2, xexAt_eq, if_pos hr]; rfl
    · refine stepped_tail _ (kept_xexPost hr) rfl (hs.of_same rfl rfl rfl rfl rfl rfl rfl rfl) rfl ?_ (by simp [stepsLeft, hp])
      simpa [PhaseOk, hp] using hph
  | sD3 =>
    obtain ⟨hs, hph⟩ := (latchesOk_sector (by rw [hp]; rfl)).1 hl
    refine ⟨goto .sD4 (halveTweak s), by simp [seqStep, sectorStep, hp, stepD3], ?_⟩
    refine stepped_tail _ (kept_halveTweak s) rfl (hs.of_same rfl rfl rfl rfl rfl rfl rfl rfl) rfl ?_ (by simp [stepsLeft, hp])
    simpa [PhaseOk, hp] using hph
  | sD4 =>
    obtain ⟨hs, hph⟩ := (latchesOk_sector (by rw [hp]; rfl)).1 hl
    have hreg := hs.region
    have hn := hs.n
    have hln := hs.len
    have hrm := hs.rem
    have hr : lastAddr s + 16 + s.rem.toNat ≤ s.bufBytes := by unfold lastAddr; omega
    refine ⟨goto .sD5 (swapPost (lastAddr s) s.rem.toNat s), ?_, ?_⟩
    · simp only [seqStep, sectorStep, hp, stepD4, swapAt_eq, if_pos hr]; rfl
    · refine stepped_tail _ (kept_swapPost hr) rfl (hs.of_same rfl rfl rfl rfl rfl rfl rfl rfl) rfl ?_ (by simp [stepsLeft, hp])
      simpa [PhaseOk, hp] using hph
  | sD5 =>
    obtain ⟨hs, hph⟩ := (latchesOk_sector (by rw [hp]; rfl)).1 hl
    have hreg := hs.region
    have hn := hs.n
    have hln := hs.len
    have hr : lastAddr s + 16 ≤ s.bufBytes := by unfold lastAddr; omega
    refine ⟨finish (xexPost .dec (lastAddr s) s), ?_, stepped_finish (kept_xexPost hr) (by simp [stepsLeft, hp])⟩
    simp only [seqStep, sectorStep, hp, stepD5, xexAt_eq, if_pos hr]; rfl


/-- A step of the sequencer keeps the invariant. -/
theorem Stepped.inv {s t : State} (h : Stepped s t) (hi : s.Inv) (hb : s.busy = true) : t.Inv where
  memWf := h.kept.memWf hi.memWf
  memBelow := by rw [h.kept.bufBytes]; exact h.kept.memBelow hi.memBelow
  bufBytesOk := by rw [h.kept.bufBytes]; exact hi.bufBytesOk
  statusOk := by
    have hst := hi.statusOk.1 hb
    have hd := h.done
    rw [h.kept.err, hst.2]
    refine ⟨fun hbt => ?_, fun he => by cases he⟩
    rw [if_neg ((busy_iff t).1 hbt)] at hd
    exact ⟨hd.trans hst.1, rfl⟩
  ecodeOk := by rw [h.kept.err, h.kept.ecode]; exact hi.ecodeOk
  inflightOk := h.kept.inflight hi.inflightOk
  latchesOk := h.latches

theorem seqRun_add (m k : Nat) (s : State) : seqRun (m + k) s = (seqRun m s).bind (seqRun k) := by
  induction m generalizing s with
  | zero => rw [Nat.zero_add]; rfl
  | succ m ih =>
    rw [Nat.succ_add]
    simp only [seqRun, bind]
    cases seqStep s with
    | ok a => exact ih a
    | error e => rfl

theorem seqRun_idle (k : Nat) (s : State) (h : s.phase = .idle) : seqRun k s = .ok s := by
  induction k with
  | zero => rfl
  | succ k ih => simp only [seqRun, seqStep, h, bind, Except.bind]; exact ih

theorem stepsLeft_pos {s : State} (h : LatchesOk s) (hb : s.busy = true) : 0 < stepsLeft s := by
  obtain ⟨t, _, ht⟩ := seqStep_stepped s h hb
  have := ht.left
  omega

theorem stepsLeft_eq_zero {s : State} (h : LatchesOk s) : stepsLeft s = 0 ↔ s.phase = .idle := by
  constructor
  · intro h0
    by_contra hp
    have := stepsLeft_pos h ((busy_iff s).2 hp)
    omega
  · intro hp; simp [stepsLeft, hp]

/-- The whole run of a command whose latches agree with it. -/
theorem seqRun_stepsLeft (n : Nat) (s : State) (h : LatchesOk s) (hb : s.busy = true) (hn : stepsLeft s = n) :
    ∃ t, seqRun n s = .ok t ∧ t.phase = .idle ∧ t.done = true ∧ Kept s t := by
  induction n generalizing s with
  | zero => exact absurd ((stepsLeft_eq_zero h).1 hn) ((busy_iff s).1 hb)
  | succ n ih =>
    obtain ⟨t, ht, hs⟩ := seqStep_stepped s h hb
    have hl := hs.left
    by_cases hp : t.phase = .idle
    · refine ⟨t, ?_, hp, by simpa [hp] using hs.done, hs.kept⟩
      simp only [seqRun, ht, bind, Except.bind]
      exact seqRun_idle _ _ hp
    · obtain ⟨u, hu, h1, h2, h3⟩ := ih t hs.latches ((busy_iff t).2 hp) (by omega)
      exact ⟨u, by simp only [seqRun, ht, bind, Except.bind]; exact hu, h1, h2, hs.kept.trans h3⟩

end Sys2Proof.Machine
end

