-- ==== Sys2Proof/Laws/Commands.lean ====
section
/-! SUPPORT. The two ways a command goes: a failing check, or acceptance and a run to its end (46_system.md R212,
R217, R218, 60_exceptions.md R237, R241). -/

namespace Sys2Proof.Machine

theorem runCommand_idle {s a : State} {r : State → Result State} (hp : s.phase = .idle) :
    runCommand s a r = if a.busy then toOutcome (r a) else .next a := by
  simp [runCommand, State.busy, hp]

/-- Acceptance while idle (46_system.md R212). -/
theorem accept_idle {c : Option ErrorCause} {e : State → State} {s : State} (hp : s.phase = .idle) :
    accept c e s = match c with
      | some x => raiseError x (clearStatus s)
      | none => e (clearStatus s) := by
  cases c <;> simp [accept, State.busy, hp]

/-- The check each command makes at acceptance. -/
def checkOf (i : Instr) (s : State) : Option ErrorCause :=
  match i with
  | .nop | .twgen => none
  | .double | .halve => tweakCheck s
  | .xexe | .xexd => blockCheck s
  | .ctsswap rem => swapCheck rem s
  | .secte | .sectd => sectorCheck s

/-- What each command latches at acceptance. -/
def enterOf (i : Instr) (s : State) : State :=
  match i with
  | .nop => enterPhase (opcode .nop) .pNop s
  | .double => enterPhase (opcode .double) .pDouble s
  | .halve => enterPhase (opcode .halve) .pHalve s
  | .twgen => enterPhase (opcode .twgen) .pTwgen s
  | .xexe => enterDirected (opcode .xexe) .pXex s
  | .xexd => enterDirected (opcode .xexd) .pXex s
  | .ctsswap rem => enterSwap rem s
  | .secte => enterSector (opcode .secte) s
  | .sectd => enterSector (opcode .sectd) s

theorem acceptInstr_eq (i : Instr) (s : State) : acceptInstr i s = accept (checkOf i s) (enterOf i) s := by
  cases i <;> rfl

/-- The checks of a command find the first error that applies (60_exceptions.md R237). -/
theorem checkOf_eq (i : Instr) (s : State) : checkOf i s = firstCause i s := by
  cases i with
  | nop => rfl
  | twgen => rfl
  | double => cases h : s.tv <;> simp [checkOf, tweakCheck, firstCause, errorOrder, List.find?, causeApplies, Instr.wf, h]
  | halve => cases h : s.tv <;> simp [checkOf, tweakCheck, firstCause, errorOrder, List.find?, causeApplies, Instr.wf, h]
  | xexe =>
    cases h : s.tv <;> by_cases hr : s.bufBytes < s.off.toNat + 16 <;>
      simp [checkOf, blockCheck, firstCause, errorOrder, List.find?, causeApplies, Instr.wf, h, hr]
  | xexd =>
    cases h : s.tv <;> by_cases hr : s.bufBytes < s.off.toNat + 16 <;>
      simp [checkOf, blockCheck, firstCause, errorOrder, List.find?, causeApplies, Instr.wf, h, hr]
  | ctsswap rem =>
    by_cases h : rem = 0#4
    · simp [checkOf, swapCheck, firstCause, errorOrder, causeApplies, Instr.wf, remInRange, h]
    · have h' : (rem != 0#4) = true := by simpa using h
      by_cases hr : s.bufBytes < s.off.toNat + 16 + rem.toNat <;>
        simp [checkOf, swapCheck, firstCause, errorOrder, List.find?, causeApplies, Instr.wf, remInRange, h, h', hr]
  | secte =>
    by_cases hl : s.len.toNat < 16 <;> cases h : s.tv <;> by_cases hr : s.bufBytes < s.off.toNat + s.len.toNat <;>
      simp [checkOf, sectorCheck, firstCause, errorOrder, List.find?, causeApplies, Instr.wf, hl, h, hr]
  | sectd =>
    by_cases hl : s.len.toNat < 16 <;> cases h : s.tv <;> by_cases hr : s.bufBytes < s.off.toNat + s.len.toNat <;>
      simp [checkOf, sectorCheck, firstCause, errorOrder, List.find?, causeApplies, Instr.wf, hl, h, hr]

theorem acceptInstr_error {i : Instr} {s : State} {e : ErrorCause} (hp : s.phase = .idle)
    (hf : firstCause i s = some e) : acceptInstr i s = raiseError e (clearStatus s) := by
  rw [acceptInstr_eq, accept_idle hp, checkOf_eq, hf]

theorem acceptInstr_enter {i : Instr} {s : State} (hp : s.phase = .idle) (hf : firstCause i s = none) :
    acceptInstr i s = enterOf i (clearStatus s) := by
  rw [acceptInstr_eq, accept_idle hp, checkOf_eq, hf]

theorem busy_enterSector (opc : BitVec 8) (s : State) : isSectorPhase (enterSector opc s).phase = true := by
  simp only [enterSector, goto, tailEntry]
  split
  · rfl
  · split
    · rfl
    · split <;> rfl

theorem busy_of_isSectorPhase {s : State} (h : isSectorPhase s.phase = true) : s.busy = true := by
  rw [busy_iff]; intro hp; rw [hp] at h; cases h

theorem busy_enterOf (i : Instr) (s : State) : (enterOf i s).busy = true := by
  cases i with
  | secte => exact busy_of_isSectorPhase (busy_enterSector _ s)
  | sectd => exact busy_of_isSectorPhase (busy_enterSector _ s)
  | _ => rfl

theorem sectorStep_eq_seqStep {s : State} (h : isSectorPhase s.phase = true ∨ s.phase = .idle) : sectorStep s = seqStep s := by
  cases hp : s.phase <;> simp_all [isSectorPhase, seqStep, sectorStep]

theorem latches_enterSector {opc : BitVec 8} {s : State} (ho : opc = opcode .secte ∨ opc = opcode .sectd)
    (htv : s.tv = true) (hl : 16 ≤ s.len.toNat) (hr : s.off.toNat + s.len.toNat ≤ s.bufBytes) :
    LatchesOk (enterSector opc s) := by
  rw [latchesOk_sector (busy_enterSector opc s)]
  have hn := toNat_blockCount s.len
  refine ⟨⟨ho, rfl, htv, hl, hr, hn, toNat_remainder s.len⟩, ?_⟩
  obtain ⟨s1, hs1⟩ : ∃ y : State, y = { s with n := blockCount s.len, rem := remainder s.len, j := 0#28, opl := opc, dirl := opcodeDir opc } := ⟨_, rfl⟩
  have hn1 : s1.n.toNat = s.len.toNat / 16 := by rw [hs1]; exact hn
  have hj1 : s1.j.toNat = 0 := by rw [hs1]; rfl
  have e : enterSector opc s = goto (if 2 ≤ s1.n.toNat then .sBodyX else tailEntry s1) s1 := by rw [hs1]; rfl
  rw [e]
  by_cases h2 : 2 ≤ s1.n.toNat
  · simp [PhaseOk, h2, hj1]
  · have h1 : s1.n.toNat = 1 := by omega
    by_cases h0 : s1.rem = 0#4
    · simp [PhaseOk, h1, hj1, tailEntry, h0]
    · cases hd : s1.dirl <;> simp [PhaseOk, h1, hj1, tailEntry, h0, hd]

theorem not_lt_of_causes {i : Instr} {s : State} (hf : firstCause i s = none) (e : ErrorCause) : causeApplies i s e = false := by
  simp only [firstCause, List.find?_eq_none] at hf
  have := hf e (by cases e <;> simp [errorOrder])
  simpa using this

theorem latches_enterOf {i : Instr} {s : State} (hf : firstCause i s = none) : LatchesOk (enterOf i (clearStatus s)) := by
  have ht := not_lt_of_causes hf .tweakInvalid
  have hr := not_lt_of_causes hf .bufferRange
  have hl := not_lt_of_causes hf .sectorTooShort
  have hi := not_lt_of_causes hf .illegalCommand
  cases i with
  | nop => exact rfl
  | twgen => exact rfl
  | double => simpa [causeApplies, enterOf, LatchesOk] using ht
  | halve => simpa [causeApplies, enterOf, LatchesOk] using ht
  | xexe => exact (by simpa [causeApplies, enterOf, LatchesOk] using And.intro ht hr)
  | xexd => exact (by simpa [causeApplies, enterOf, LatchesOk] using And.intro ht hr)
  | ctsswap rem =>
    simp only [causeApplies, Instr.wf, remInRange, decide_eq_false_iff_not, not_lt] at hi hr
    exact ⟨rfl, by simpa [enterOf] using hi, by simpa [enterOf] using hr⟩
  | secte => exact latches_enterSector (Or.inl rfl) (by simpa [causeApplies] using ht) (by simpa [causeApplies] using hl) (by simpa [causeApplies] using hr)
  | sectd => exact latches_enterSector (Or.inr rfl) (by simpa [causeApplies] using ht) (by simpa [causeApplies] using hl) (by simpa [causeApplies] using hr)

/-- Acceptance of a command with no failing check leaves latches that agree with it. -/
theorem latches_acceptInstr {i : Instr} {s : State} (hp : s.phase = .idle) (hf : firstCause i s = none) :
    LatchesOk (acceptInstr i s) ∧ (acceptInstr i s).busy = true := by
  rw [acceptInstr_enter hp hf]
  exact ⟨latches_enterOf hf, busy_enterOf i _⟩

/-- A command that fails a check, as one transition. -/
theorem exec_error {i : Instr} {s : State} {e : ErrorCause} (hp : s.phase = .idle) (hf : firstCause i s = some e) :
    exec i s = .next (raiseError e (clearStatus s)) := by
  have ha := acceptInstr_error hp hf
  have hb : (raiseError e (clearStatus s)).busy = false := by simp [State.busy, hp]
  cases i <;> simp only [exec, execNop, execDouble, execHalve, execTwgen, execXexe, execXexd, execCtsswap, execSecte, execSectd, acceptInstr] at ha ⊢ <;>
    rw [runCommand_idle hp, ha, hb] <;> rfl

/-- While the latched opcode is a sector command's, the phase is one of a sector command or IDLE. -/
theorem isSectorPhase_of_opl {s : State} (h : LatchesOk s) (ho : s.opl = opcode .secte ∨ s.opl = opcode .sectd) :
    isSectorPhase s.phase = true ∨ s.phase = .idle := by
  cases hp : s.phase <;> simp only [LatchesOk, hp] at h <;>
    first
    | (left; rfl)
    | (right; rfl)
    | (exfalso
       rcases ho with ho | ho <;> rw [ho] at h <;> revert h <;> simp [opcode])

theorem sectorRun_eq (k : Nat) (s : State) (h : LatchesOk s) (ho : s.opl = opcode .secte ∨ s.opl = opcode .sectd) :
    sectorRun k s = seqRun k s := by
  induction k generalizing s with
  | zero => rfl
  | succ k ih =>
    have hs := isSectorPhase_of_opl h ho
    simp only [sectorRun, seqRun, sectorStep_eq_seqStep hs]
    by_cases hp : s.phase = .idle
    · simp only [seqStep, hp, bind, Except.bind]
      exact ih s h ho
    · obtain ⟨t, ht, hst⟩ := seqStep_stepped s h ((busy_iff s).2 hp)
      simp only [ht, bind, Except.bind]
      exact ih t hst.latches (by rw [hst.kept.opl]; exact ho)

/-- A command that passes its checks, as one transition: its acceptance, then every step (46_system.md R218). -/
theorem exec_run {i : Instr} {s : State} (hp : s.phase = .idle) (hf : firstCause i s = none) :
    exec i s = toOutcome (seqRun (stepsLeft (acceptInstr i s)) (acceptInstr i s)) := by
  obtain ⟨hl, hb⟩ := latches_acceptInstr hp hf
  have hone : ∀ (f : State → Result State) (a : State), seqStep a = f a → stepsLeft a = 1 →
      f a = seqRun (stepsLeft a) a := by
    intro f a h1 h2
    rw [h2]
    simp only [seqRun, h1, bind]
    cases f a <;> rfl
  have ha := acceptInstr_enter hp hf
  cases i with
  | nop =>
    simp only [exec, execNop, acceptInstr, runCommand_idle hp] at hb ha ⊢
    rw [if_pos hb, hone stepNop _ (by rw [ha]; rfl) (by rw [ha]; rfl)]
  | double =>
    simp only [exec, execDouble, acceptInstr, runCommand_idle hp] at hb ha ⊢
    rw [if_pos hb, hone stepDouble _ (by rw [ha]; rfl) (by rw [ha]; rfl)]
  | halve =>
    simp only [exec, execHalve, acceptInstr, runCommand_idle hp] at hb ha ⊢
    rw [if_pos hb, hone stepHalve _ (by rw [ha]; rfl) (by rw [ha]; rfl)]
  | twgen =>
    simp only [exec, execTwgen, acceptInstr, runCommand_idle hp] at hb ha ⊢
    rw [if_pos hb, hone stepTwgen _ (by rw [ha]; rfl) (by rw [ha]; rfl)]
  | xexe =>
    simp only [exec, execXexe, acceptInstr, runCommand_idle hp] at hb ha ⊢
    rw [if_pos hb, hone stepXex _ (by rw [ha]; rfl) (by rw [ha]; rfl)]
  | xexd =>
    simp only [exec, execXexd, acceptInstr, runCommand_idle hp] at hb ha ⊢
    rw [if_pos hb, hone stepXex _ (by rw [ha]; rfl) (by rw [ha]; rfl)]
  | ctsswap rem =>
    simp only [exec, execCtsswap, acceptInstr, runCommand_idle hp] at hb ha ⊢
    rw [if_pos hb, hone stepSwap _ (by rw [ha]; rfl) (by rw [ha]; rfl)]
  | secte =>
    simp only [exec, execSecte, acceptInstr, runCommand_idle hp] at hb hl ha ⊢
    rw [if_pos hb, sectorRun_eq _ _ hl (by rw [ha]; exact Or.inl rfl)]
  | sectd =>
    simp only [exec, execSectd, acceptInstr, runCommand_idle hp] at hb hl ha ⊢
    rw [if_pos hb, sectorRun_eq _ _ hl (by rw [ha]; exact Or.inr rfl)]

end Sys2Proof.Machine
end

