-- ==== Sys2Proof/Laws/HostSequences.lean ====
section
/-! SUPPORT. What the transactions of the host sequences do on an idle unit (45_host_sequences.md R192, R203), and
what it means to agree but for the latches. -/

namespace Sys2Proof.Machine

/-- A state with other latches is the same but for the latches. -/
theorem sameButLatches_intro (s : State) (n : BitVec 28) (rem : BitVec 4) (j : BitVec 28) (opl : BitVec 8) (dirl : Dir) :
    SameButLatches s { s with n := n, rem := rem, j := j, opl := opl, dirl := dirl } := ⟨n, rem, j, opl, dirl, rfl⟩

/-- WAIT on an idle unit is one read of STATUS. -/
theorem waitDone_idle {s : State} (hp : s.phase = .idle) : waitDone s = .next (hostRead 1#4 s) := by
  simp [waitDone, seqRun_idle _ _ hp, toOutcome, andThen]

/-- RUN of a command that ends idle. -/
theorem runAndWait_of_exec {i : Instr} {s t : State} (hd : decode (encode i) = .ok i) (he : exec i s = .next t)
    (hp : t.phase = .idle) : runAndWait i s = .next (hostRead 1#4 t) := by
  simp [runAndWait, commandWord, hd, he, andThen, waitDone_idle hp]

/-- The sector command of a call on a region that OFF and LEN express. -/
theorem runSector_fits {dir : Dir} {addr length : Nat} {s : State} (h : fitsRegisters addr length = true) :
    runSector dir addr length s = runAndWait (sectorCommand dir) s := if_pos h

/-- The sector command of a call on a region that OFF and LEN cannot express, on an idle unit. -/
theorem runSector_unfit {dir : Dir} {addr length : Nat} {s : State} (hp : s.phase = .idle)
    (h : fitsRegisters addr length = false) :
    runSector dir addr length s = .next (hostRead 1#4 (raiseError (unfitError length s) (clearStatus s))) := by
  have hi : (raiseError (unfitError length s) (clearStatus s)).phase = .idle := hp
  simp [runSector, h, accept_idle hp, waitDone_idle hi]

/-- A binding of the keys that are bound already changes nothing (70_reset_and_hazards.md R275). -/
theorem bindKeys_same (s : State) : bindKeys s.k1 s.k2 s = .next s := by simp [bindKeys, changesKeysWhileBusy]

/-- An idle unit takes any keys. -/
theorem bindKeys_idle {s : State} (k1 k2 : Key) (hp : s.phase = .idle) :
    bindKeys k1 k2 s = .next { s with k1 := k1, k2 := k2 } := by
  simp [bindKeys, changesKeysWhileBusy, State.busy, hp]

end Sys2Proof.Machine
end

