-- ==== Sys2Proof/Laws/PerInstr.lean ====
section
/-! SUPPORT. Statements about a command as syntax, one lemma a constructor. -/

namespace Sys2Proof.Laws.OpcodeRow

/-- The word of a command selects the command's row of the opcode map (30_encoding.md R94) and no other command's
row (R97). -/
def Statement (i : Instr) : Prop :=
  encode i &&& (opcodeRow i).mask = (opcodeRow i).pattern ∧
    ∀ k : Instr, opcodeRow k ≠ opcodeRow i → encode i &&& (opcodeRow k).mask ≠ (opcodeRow k).pattern

/-- The rows of the opcode map. -/
def rows : List OpcodeRow :=
  [opcodeRow .nop, opcodeRow .double, opcodeRow .halve, opcodeRow .twgen, opcodeRow .xexe, opcodeRow .xexd,
    opcodeRow (.ctsswap 0#4), opcodeRow .secte, opcodeRow .sectd]

theorem mem_rows (k : Instr) : opcodeRow k ∈ rows := by
  cases k with
  | ctsswap _ => exact (by decide : opcodeRow (.ctsswap 0#4) ∈ rows)
  | nop | double | halve | twgen | xexe | xexd | secte | sectd => decide

theorem of_rows {i : Instr} (h : encode i &&& (opcodeRow i).mask = (opcodeRow i).pattern)
    (h' : ∀ r ∈ rows, r ≠ opcodeRow i → encode i &&& r.mask ≠ r.pattern) : Statement i :=
  ⟨h, fun k hk => h' _ (mem_rows k) hk⟩

theorem nop : Statement .nop := of_rows (by decide) (by decide)
theorem double : Statement .double := of_rows (by decide) (by decide)
theorem halve : Statement .halve := of_rows (by decide) (by decide)
theorem twgen : Statement .twgen := of_rows (by decide) (by decide)
theorem xexe : Statement .xexe := of_rows (by decide) (by decide)
theorem xexd : Statement .xexd := of_rows (by decide) (by decide)
theorem ctsswap (rem : BitVec 4) : Statement (.ctsswap rem) :=
  of_rows (by revert rem; decide) (by revert rem; decide)
theorem secte : Statement .secte := of_rows (by decide) (by decide)
theorem sectd : Statement .sectd := of_rows (by decide) (by decide)

end Sys2Proof.Laws.OpcodeRow
end

