-- ==== Sys2Proof/Laws/Sector.lean ====
section
/-! SUPPORT. What the body loop and the end of a sector command do (43_sector_processor.md R156 to R160): the
whole loop as one transition, and the end as `sectorEnd` of the bytes it found. -/

namespace Sys2Proof.Machine

theorem tweakAt_gfDouble (t : Block) (k : Nat) : tweakAt (gfDouble t).1 k = tweakAt t (k + 1) := by
  induction k with
  | zero => rfl
  | succ k ih => simp only [tweakAt] at ih ⊢; rw [ih]

/-- What one round of the body loop leaves, but for PHASE (43_sector_processor.md R156, R157). -/
def bodyPost (s : State) : State :=
  { doubleTweak (xexPost s.dirl (bodyAddr s) s) with j := s.j + 1#28, phase := .sBodyD }

@[simp] theorem bodyPost_t (s : State) : (bodyPost s).t = (gfDouble s.t).1 := rfl
@[simp] theorem bodyPost_tv (s : State) : (bodyPost s).tv = s.tv := rfl
@[simp] theorem bodyPost_sidx (s : State) : (bodyPost s).sidx = s.sidx := rfl
@[simp] theorem bodyPost_off (s : State) : (bodyPost s).off = s.off := rfl
@[simp] theorem bodyPost_len (s : State) : (bodyPost s).len = s.len := rfl
@[simp] theorem bodyPost_cf (s : State) : (bodyPost s).cf = (gfDouble s.t).2 := rfl
@[simp] theorem bodyPost_done (s : State) : (bodyPost s).done = s.done := rfl
@[simp] theorem bodyPost_err (s : State) : (bodyPost s).err = s.err := rfl
@[simp] theorem bodyPost_ecode (s : State) : (bodyPost s).ecode = s.ecode := rfl
@[simp] theorem bodyPost_n (s : State) : (bodyPost s).n = s.n := rfl
@[simp] theorem bodyPost_rem (s : State) : (bodyPost s).rem = s.rem := rfl
@[simp] theorem bodyPost_opl (s : State) : (bodyPost s).opl = s.opl := rfl
@[simp] theorem bodyPost_dirl (s : State) : (bodyPost s).dirl = s.dirl := rfl
@[simp] theorem bodyPost_bufBytes (s : State) : (bodyPost s).bufBytes = s.bufBytes := rfl
@[simp] theorem bodyPost_cipher (s : State) : (bodyPost s).cipher = s.cipher := rfl
@[simp] theorem bodyPost_k1 (s : State) : (bodyPost s).k1 = s.k1 := rfl
@[simp] theorem bodyPost_k2 (s : State) : (bodyPost s).k2 = s.k2 := rfl
@[simp] theorem bodyPost_inbox (s : State) : (bodyPost s).inbox = s.inbox := rfl
@[simp] theorem bodyPost_rdata (s : State) : (bodyPost s).rdata = s.rdata := rfl
@[simp] theorem bodyPost_bdata (s : State) : (bodyPost s).bdata = s.bdata := rfl
@[simp] theorem bodyPost_draws (s : State) : (bodyPost s).draws = s.draws := rfl
@[simp] theorem bodyPost_unitNo (s : State) : (bodyPost s).unitNo = s.unitNo := rfl
@[simp] theorem bodyPost_inflight (s : State) : (bodyPost s).inflight = none := rfl
@[simp] theorem bodyPost_j (s : State) : (bodyPost s).j = s.j + 1#28 := rfl
@[simp] theorem bodyPost_mem (s : State) : (bodyPost s).mem = (xexPost s.dirl (bodyAddr s) s).mem := rfl
@[simp] theorem bodyPost_portLog (s : State) : (bodyPost s).portLog = (xexPost s.dirl (bodyAddr s) s).portLog := rfl

/-- The two steps of one round. -/
theorem sectorRun_body (k : Nat) (s : State) (hp : s.phase = .sBodyX) (hr : bodyAddr s + 16 ≤ s.bufBytes) :
    sectorRun (k + 2) s = sectorRun k
      (goto (if (s.j + 1#28).toNat + 2 ≤ s.n.toNat then .sBodyX else tailEntry s) (bodyPost s)) := by
  have e1 : sectorStep s = .ok (goto .sBodyD (xexPost s.dirl (bodyAddr s) s)) := by
    simp only [sectorStep, hp, stepBodyX, xexAt_eq]
    rw [if_pos hr]
    rfl
  simp only [sectorRun, bind, e1, Except.bind]
  rfl

/-- Same except what a running sector command may change. -/
structure SameFrame (s t : State) : Prop where
  sidx : t.sidx = s.sidx
  off : t.off = s.off
  len : t.len = s.len
  tv : t.tv = s.tv
  done : t.done = s.done
  err : t.err = s.err
  ecode : t.ecode = s.ecode
  n : t.n = s.n
  rem : t.rem = s.rem
  opl : t.opl = s.opl
  dirl : t.dirl = s.dirl
  bufBytes : t.bufBytes = s.bufBytes
  cipher : t.cipher = s.cipher
  k1 : t.k1 = s.k1
  k2 : t.k2 = s.k2
  inbox : t.inbox = s.inbox
  rdata : t.rdata = s.rdata
  bdata : t.bdata = s.bdata
  draws : t.draws = s.draws
  unitNo : t.unitNo = s.unitNo

theorem SameFrame.trans {s t u : State} (h : SameFrame s t) (h' : SameFrame t u) : SameFrame s u where
  sidx := h'.sidx.trans h.sidx
  off := h'.off.trans h.off
  len := h'.len.trans h.len
  tv := h'.tv.trans h.tv
  done := h'.done.trans h.done
  err := h'.err.trans h.err
  ecode := h'.ecode.trans h.ecode
  n := h'.n.trans h.n
  rem := h'.rem.trans h.rem
  opl := h'.opl.trans h.opl
  dirl := h'.dirl.trans h.dirl
  bufBytes := h'.bufBytes.trans h.bufBytes
  cipher := h'.cipher.trans h.cipher
  k1 := h'.k1.trans h.k1
  k2 := h'.k2.trans h.k2
  inbox := h'.inbox.trans h.inbox
  rdata := h'.rdata.trans h.rdata
  bdata := h'.bdata.trans h.bdata
  draws := h'.draws.trans h.draws
  unitNo := h'.unitNo.trans h.unitNo

theorem xex_same {s t : State} (h : SameFrame s t) : xex t = xex s := by
  funext d a b
  simp [xex, cipherFn, h.cipher, State.key, h.k1]

theorem sameFrame_bodyPost (p : Phase) (s : State) : SameFrame s (goto p (bodyPost s)) := by
  constructor <;> rfl

theorem body_loop (m : Nat) (s : State) (hm : s.n.toNat - 1 - s.j.toNat = m) (hj : s.j.toNat + 2 ≤ s.n.toNat)
    (hp : s.phase = .sBodyX) (hr : s.off.toNat + 16 * s.n.toNat ≤ s.bufBytes) (hw : s.mem.wf = true) :
    ∃ t, (∀ k, sectorRun (k + 2 * m) s = sectorRun k t) ∧ SameFrame s t ∧ t.phase = tailEntry s ∧
      t.t = tweakAt s.t m ∧ t.mem.wf = true ∧ t.j.toNat + 1 = s.n.toNat ∧ t.inflight = none ∧
      ∀ x, t.mem.read x =
        if s.off.toNat + 16 * s.j.toNat ≤ x ∧ x < s.off.toNat + 16 * (s.n.toNat - 1) then
          byteOf (xex s s.dirl (tweakAt s.t ((x - s.off.toNat) / 16 - s.j.toNat))
            (leBlock (s.mem.readBytes (s.off.toNat + 16 * ((x - s.off.toNat) / 16)) 16))) ((x - s.off.toNat) % 16)
        else s.mem.read x := by
  induction m generalizing s with
  | zero => omega
  | succ m ih =>
    have hn := s.n.isLt
    have hj1 : (s.j + 1#28).toNat = s.j.toNat + 1 := by
      rw [BitVec.toNat_add]; simp; omega
    have hrun := fun k => sectorRun_body (k + 2 * m) s hp (by unfold bodyAddr; omega)
    rw [hj1] at hrun
    have hread : ∀ x, (bodyPost s).mem.read x =
        if bodyAddr s ≤ x ∧ x < bodyAddr s + 16 then byteOf (xexBlock s s.dirl (bodyAddr s)) (x - bodyAddr s) else s.mem.read x := by
      intro x
      rw [bodyPost_mem, read_xexPost _ _ _ _ hw]
    by_cases hlast : s.j.toNat + 3 ≤ s.n.toNat
    · have hphase : (if s.j.toNat + 1 + 2 ≤ s.n.toNat then Phase.sBodyX else tailEntry s) = .sBodyX := if_pos (by omega)
      rw [hphase] at hrun
      obtain ⟨t, ht, hf, hph, htt, htw, htj, hti, htr⟩ := ih (goto .sBodyX (bodyPost s))
        (by simp only [goto_n, goto_j, bodyPost_n, bodyPost_j]; omega)
        (by simp only [goto_n, goto_j, bodyPost_n, bodyPost_j]; omega) (goto_phase _ _)
        (by simpa using hr) (by simpa using wf_xexPost _ _ hw)
      refine ⟨t, fun k => ?_, (sameFrame_bodyPost _ s).trans hf, ?_, ?_, htw, by simpa using htj, hti, ?_⟩
      · rw [← ht k, ← hrun k]
        congr 1
      · rw [hph]; rfl
      · rw [htt]; simp [tweakAt_gfDouble]
      · intro x
        rw [htr x]
        simp only [goto_n, goto_j, goto_off, goto_mem, goto_t, goto_dirl, bodyPost_n, bodyPost_j, bodyPost_off, bodyPost_t, bodyPost_dirl, hj1, hread]
        rw [xex_same (sameFrame_bodyPost _ s), tweakAt_gfDouble]
        unfold bodyAddr
        by_cases h1 : s.off.toNat + 16 * (s.j.toNat + 1) ≤ x ∧ x < s.off.toNat + 16 * (s.n.toNat - 1)
        · rw [if_pos h1, if_pos (by omega)]
          have hd : (x - s.off.toNat) / 16 - (s.j.toNat + 1) + 1 = (x - s.off.toNat) / 16 - s.j.toNat := by omega
          rw [hd]
          congr 3
          refine List.ext_getElem (by simp) fun i hi1 hi2 => ?_
          simp only [Memory.length_readBytes] at hi1
          simp only [Memory.getElem_readBytes]
          rw [hread]
          unfold bodyAddr
          rw [if_neg (by omega)]
        · rw [if_neg h1]
          by_cases h2 : s.off.toNat + 16 * s.j.toNat ≤ x ∧ x < s.off.toNat + 16 * s.j.toNat + 16
          · rw [if_pos h2, if_pos (by omega)]
            have hd : (x - s.off.toNat) / 16 = s.j.toNat := by omega
            have hd' : (x - s.off.toNat) % 16 = x - (s.off.toNat + 16 * s.j.toNat) := by omega
            rw [hd, hd', Nat.sub_self]
            rfl
          · rw [if_neg h2, if_neg (by omega)]
    · have hm0 : m = 0 := by omega
      subst hm0
      have hphase : (if s.j.toNat + 1 + 2 ≤ s.n.toNat then Phase.sBodyX else tailEntry s) = tailEntry s := if_neg (by omega)
      rw [hphase] at hrun
      refine ⟨goto (tailEntry s) (bodyPost s), hrun, sameFrame_bodyPost _ s, goto_phase _ _, by simp [tweakAt], by simpa using wf_xexPost _ _ hw, ?_, by simp, ?_⟩
      · simp only [goto_j, bodyPost_j]; omega
      · intro x
        simp only [goto_mem, hread]
        unfold bodyAddr
        by_cases h2 : s.off.toNat + 16 * s.j.toNat ≤ x ∧ x < s.off.toNat + 16 * s.j.toNat + 16
        · rw [if_pos h2, if_pos (by omega)]
          have hd : (x - s.off.toNat) / 16 = s.j.toNat := by omega
          have hd' : (x - s.off.toNat) % 16 = x - (s.off.toNat + 16 * s.j.toNat) := by omega
          rw [hd, hd', Nat.sub_self]
          rfl
        · rw [if_neg h2, if_neg (by omega)]

theorem length_flatMap_blocks (f : Nat → List Byte) (m : Nat) (hf : ∀ j, (f j).length = 16) :
    ((List.range m).flatMap f).length = 16 * m := by
  induction m with
  | zero => rfl
  | succ m ih => rw [List.range_succ, List.flatMap_append]; simp [ih, hf]; omega

theorem getElem_flatMap_blocks (f : Nat → List Byte) (m i : Nat) (hf : ∀ j, (f j).length = 16) (hi : i < 16 * m) :
    ((List.range m).flatMap f)[i]? = (f (i / 16))[i % 16]? := by
  induction m with
  | zero => omega
  | succ m ih =>
    rw [List.range_succ, List.flatMap_append]
    have hl := length_flatMap_blocks f m hf
    by_cases h : i < 16 * m
    · rw [List.getElem?_append_left (by omega)]; exact ih h
    · rw [List.getElem?_append_right (by omega), hl]
      have e1 : i / 16 = m := by omega
      have e2 : i % 16 = i - 16 * m := by omega
      rw [e1, e2]
      simp

theorem take_drop_readBytes (m : Memory) (a l k : Nat) (h : k + 16 ≤ l) :
    ((m.readBytes a l).drop k).take 16 = m.readBytes (a + k) 16 := by
  refine List.ext_getElem (by simp; omega) fun i h1 h2 => ?_
  simp [Memory.getElem_readBytes, Nat.add_assoc]

theorem drop_readBytes (m : Memory) (a l k : Nat) :
    (m.readBytes a l).drop k = m.readBytes (a + k) (l - k) := by
  refine List.ext_getElem (by simp) fun i h1 h2 => ?_
  simp [Memory.getElem_readBytes, Nat.add_assoc]

theorem take_readBytes (m : Memory) (a l k : Nat) (h : k ≤ l) :
    (m.readBytes a l).take k = m.readBytes a k := by
  refine List.ext_getElem (by simp; omega) fun i h1 h2 => ?_
  simp [Memory.getElem_readBytes]

theorem readBytes_xexPost_same (dir : Dir) (a : Nat) (s : State) (h : s.mem.wf = true) :
    (xexPost dir a s).mem.readBytes a 16 = blockBytes (xexBlock s dir a) := by
  refine List.ext_getElem (by simp) fun i h1 h2 => ?_
  simp at h1
  rw [Memory.getElem_readBytes, read_xexPost _ _ _ _ h, if_pos (by omega), getElem_blockBytes]
  congr 1; omega

theorem readBytes_congr {m m' : Memory} {a n : Nat} (h : ∀ x, a ≤ x → x < a + n → m.read x = m'.read x) :
    m.readBytes a n = m'.readBytes a n := by
  refine List.ext_getElem (by simp) fun i h1 h2 => ?_
  simp at h1
  rw [Memory.getElem_readBytes, Memory.getElem_readBytes]
  exact h _ (by omega) (by omega)

/-- swap then read of block. -/
theorem readBytes_swapPost_block (a r : Nat) (s : State) (h : s.mem.wf = true) (hr : r ≤ 16) :
    (swapPost a r s).mem.readBytes a 16 = s.mem.readBytes (a + 16) r ++ (s.mem.readBytes a 16).drop r := by
  refine List.ext_getElem (by simp; omega) fun i h1 h2 => ?_
  simp at h1
  rw [Memory.getElem_readBytes, read_swapPost _ _ _ _ h hr, List.getElem_append]
  simp only [Memory.length_readBytes, Memory.getElem_readBytes, List.getElem_drop]
  by_cases hi : i < r
  · rw [if_pos (by omega), dif_pos hi]; congr 1; omega
  · rw [if_neg (by omega), if_neg (by omega), dif_neg hi]; congr 1; omega

theorem readBytes_swapPost_tail (a r : Nat) (s : State) (h : s.mem.wf = true) (hr : r ≤ 16) :
    (swapPost a r s).mem.readBytes (a + 16) r = (s.mem.readBytes a 16).take r := by
  rw [take_readBytes _ _ _ _ hr]
  refine List.ext_getElem (by simp) fun i h1 h2 => ?_
  simp at h1
  rw [Memory.getElem_readBytes, read_swapPost _ _ _ _ h hr]
  simp only [Memory.getElem_readBytes]
  rw [if_neg (by omega), if_pos (by omega)]; congr 1; omega

structure TailFrame (s t : State) : Prop where
  sidx : t.sidx = s.sidx
  off : t.off = s.off
  len : t.len = s.len
  err : t.err = s.err
  ecode : t.ecode = s.ecode
  phase : t.phase = .idle
  done : t.done = true
  tv : t.tv = false
  opl : t.opl = s.opl
  bufBytes : t.bufBytes = s.bufBytes
  cipher : t.cipher = s.cipher
  k1 : t.k1 = s.k1
  k2 : t.k2 = s.k2
  inbox : t.inbox = s.inbox
  rdata : t.rdata = s.rdata
  bdata : t.bdata = s.bdata
  unitNo : t.unitNo = s.unitNo
  inflight : t.inflight = none

/-- end -/
theorem tail_run (hh : ∀ t : Block, gfHalve (gfDouble t).1 (gfDouble t).2 = t) (s : State) (hp : s.phase = tailEntry s) (h : lastAddr s + 16 + s.rem.toNat ≤ s.bufBytes) (hw : s.mem.wf = true) :
    ∃ t, sectorRun (tailSteps s) s = .ok t ∧ TailFrame s t ∧ t.mem.wf = true ∧
      (∀ x, (x < lastAddr s ∨ lastAddr s + 16 + s.rem.toNat ≤ x) → t.mem.read x = s.mem.read x) ∧
      t.mem.readBytes (lastAddr s) (16 + s.rem.toNat) =
        sectorEnd (xex s) s.dirl s.t (gfDouble s.t).1 (leBlock (s.mem.readBytes (lastAddr s) 16)) (s.mem.readBytes (lastAddr s + 16) s.rem.toNat) := by
  have hr := s.rem.isLt
  by_cases h0 : s.rem = 0#4
  · have hp' : s.phase = .sLast := by rw [hp]; simp [tailEntry, h0]
    have ht : tailSteps s = 1 := by simp [tailSteps, h0]
    have hz : s.rem.toNat = 0 := by rw [h0]; rfl
    refine ⟨finish (xexPost s.dirl (lastAddr s) s), ?_, ?_, ?_, ?_, ?_⟩
    · rw [ht]
      simp only [sectorRun, sectorStep, hp', stepLast, xexAt_eq]
      rw [if_pos (by omega)]
      rfl
    · constructor <;> simp
    · simpa using wf_xexPost _ _ hw
    · intro x hx
      rw [finish_mem, read_xexPost _ _ _ _ hw, if_neg (by omega)]
    · simp only [hz, Nat.add_zero, finish_mem, readBytes_xexPost_same _ _ _ hw, sectorEnd]
      simp [xexBlock, Memory.readBytes]
  · have hpos : 0 < s.rem.toNat := by
      rcases Nat.eq_zero_or_pos s.rem.toNat with hz | hz
      · exact absurd (BitVec.eq_of_toNat_eq (by simpa using hz)) h0
      · exact hz
    have htl : ¬ s.mem.readBytes (lastAddr s + 16) s.rem.toNat = [] := by
      intro hn
      have := congrArg List.length hn
      simp at this; omega
    cases hd : s.dirl with
    | enc =>
      have hp' : s.phase = .sE1 := by rw [hp]; simp [tailEntry, h0, hd]
      have ht : tailSteps s = 4 := by simp [tailSteps, h0, hd]
      obtain ⟨s1, hs1⟩ : ∃ y : State, y = xexPost .enc (lastAddr s) s := ⟨_, rfl⟩
      obtain ⟨s2, hs2⟩ : ∃ y : State, y = doubleTweak (goto .sE2 s1) := ⟨_, rfl⟩
      obtain ⟨s3, hs3⟩ : ∃ y : State, y = swapPost (lastAddr s) s.rem.toNat (goto .sE3 s2) := ⟨_, rfl⟩
      obtain ⟨s4, hs4⟩ : ∃ y : State, y = xexPost .enc (lastAddr s) (goto .sE4 s3) := ⟨_, rfl⟩
      have w1 : s1.mem.wf = true := by
        rw [hs1]; exact wf_xexPost _ _ hw
      have w2 : (goto .sE3 s2).mem.wf = true := by simpa [hs2] using w1
      have w3 : (goto .sE4 s3).mem.wf = true := by simpa [hs3] using wf_swapPost _ _ w2
      have w4 : s4.mem.wf = true := by
        rw [hs4]; exact wf_xexPost _ _ w3
      have e1 : stepE1 s = .ok (goto .sE2 s1) := by
        simp only [stepE1, xexAt_eq]; rw [if_pos (by omega), hs1]; rfl
      have e3 : stepE3 (goto .sE3 s2) = .ok (goto .sE4 s3) := by
        simp only [stepE3, swapAt_eq]
        rw [if_pos (by simpa [lastAddr, hs2, hs1] using h)]
        simp [hs3, hs2, hs1, lastAddr, bind, Except.bind, pure, Except.pure]
      have e4 : stepE4 (goto .sE4 s3) = .ok (finish s4) := by
        simp only [stepE4, xexAt_eq]
        rw [if_pos (by simp [lastAddr, hs3, hs2, hs1] at h ⊢; omega)]
        simp [hs4, hs3, hs2, hs1, lastAddr, bind, Except.bind, pure, Except.pure]
      refine ⟨finish s4, ?_, ?_, ?_, ?_, ?_⟩
      · rw [ht]
        simp only [sectorRun, sectorStep, hp', e1, bind, Except.bind, goto_phase, stepE2]
        rw [show doubleTweak (goto Phase.sE2 s1) = s2 from by simp only [hs1, hs2], e3]
        simp only [goto_phase, e4]
      · constructor <;> simp [hs4, hs3, hs2, hs1]
      · simpa using w4
      · intro x hx
        rw [finish_mem, hs4, read_xexPost _ _ _ _ w3, if_neg (by omega), goto_mem, hs3, read_swapPost _ _ _ _ w2 (by omega), if_neg (by omega), if_neg (by omega)]
        simp only [hs2, goto_mem, doubleTweak_mem, hs1]
        rw [read_xexPost _ _ _ _ hw, if_neg (by omega)]
      · have hx : xex (goto .sE4 s3) = xex s := by funext a b c; simp [xex, cipherFn, State.key, hs3, hs2, hs1]
        have hsplit : ∀ m : Memory, m.readBytes (lastAddr s) (16 + s.rem.toNat) = m.readBytes (lastAddr s) 16 ++ m.readBytes (lastAddr s + 16) s.rem.toNat := by
          intro m
          refine List.ext_getElem (by simp) fun i h1 h2 => ?_
          rw [List.getElem_append]
          simp only [Memory.getElem_readBytes, Memory.length_readBytes]
          split
          · rfl
          · congr 1; omega
        have hb : s4.mem.readBytes (lastAddr s) 16 = blockBytes (xexBlock (goto .sE4 s3) .enc (lastAddr s)) := by rw [hs4]; exact readBytes_xexPost_same _ _ _ w3
        rw [finish_mem, hsplit, hb]
        have htail : s4.mem.readBytes (lastAddr s + 16) s.rem.toNat = s3.mem.readBytes (lastAddr s + 16) s.rem.toNat :=
          readBytes_congr fun x hx1 hx2 => by rw [hs4, read_xexPost _ _ _ _ w3, if_neg (by omega), goto_mem]
        have hblk2 : (goto .sE3 s2).mem.readBytes (lastAddr s) 16 = blockBytes (xexBlock s .enc (lastAddr s)) := by
          simp only [hs2, hs1, goto_mem, doubleTweak_mem]; exact readBytes_xexPost_same _ _ _ hw
        have htail2 : (goto .sE3 s2).mem.readBytes (lastAddr s + 16) s.rem.toNat = s.mem.readBytes (lastAddr s + 16) s.rem.toNat :=
          readBytes_congr fun x hx1 hx2 => by
            simp only [hs2, hs1, goto_mem, doubleTweak_mem]; rw [read_xexPost _ _ _ _ hw, if_neg (by omega)]
        have hst : s3.mem.readBytes (lastAddr s + 16) s.rem.toNat = (blockBytes (xexBlock s .enc (lastAddr s))).take s.rem.toNat := by
          rw [hs3, readBytes_swapPost_tail _ _ _ w2 (by omega), hblk2]
        have hsb : s3.mem.readBytes (lastAddr s) 16 = s.mem.readBytes (lastAddr s + 16) s.rem.toNat ++ (blockBytes (xexBlock s .enc (lastAddr s))).drop s.rem.toNat := by
          rw [hs3, readBytes_swapPost_block _ _ _ w2 (by omega), hblk2, htail2]
        rw [htail, hst]
        unfold xexBlock at hsb ⊢
        rw [hx, goto_mem, goto_t, hsb]
        simp only [sectorEnd, if_neg htl, Memory.length_readBytes]
        simp [hs3, hs2, hs1]
    | dec =>
      have hp' : s.phase = .sD1 := by rw [hp]; simp [tailEntry, h0, hd]
      have ht : tailSteps s = 5 := by simp [tailSteps, h0, hd]
      obtain ⟨s1, hs1⟩ : ∃ y : State, y = doubleTweak s := ⟨_, rfl⟩
      obtain ⟨s2, hs2⟩ : ∃ y : State, y = xexPost .dec (lastAddr s) (goto .sD2 s1) := ⟨_, rfl⟩
      obtain ⟨s3, hs3⟩ : ∃ y : State, y = halveTweak (goto .sD3 s2) := ⟨_, rfl⟩
      obtain ⟨s4, hs4⟩ : ∃ y : State, y = swapPost (lastAddr s) s.rem.toNat (goto .sD4 s3) := ⟨_, rfl⟩
      obtain ⟨s5, hs5⟩ : ∃ y : State, y = xexPost .dec (lastAddr s) (goto .sD5 s4) := ⟨_, rfl⟩
      have w1 : (goto .sD2 s1).mem.wf = true := by simpa [hs1] using hw
      have w2 : s2.mem.wf = true := by
        rw [hs2]; exact wf_xexPost _ _ w1
      have w3 : (goto .sD4 s3).mem.wf = true := by simpa [hs3] using w2
      have w4 : (goto .sD5 s4).mem.wf = true := by simpa [hs4] using wf_swapPost _ _ w3
      have w5 : s5.mem.wf = true := by
        rw [hs5]; exact wf_xexPost _ _ w4
      have e2 : stepD2 (goto .sD2 s1) = .ok (goto .sD3 s2) := by
        simp only [stepD2, xexAt_eq]
        rw [if_pos (by simp [lastAddr, hs1] at h ⊢; omega)]
        simp [hs2, hs1, lastAddr, bind, Except.bind, pure, Except.pure]
      have e4 : stepD4 (goto .sD4 s3) = .ok (goto .sD5 s4) := by
        simp only [stepD4, swapAt_eq]
        rw [if_pos (by simpa [lastAddr, hs3, hs2, hs1] using h)]
        simp [hs4, hs3, hs2, hs1, lastAddr, bind, Except.bind, pure, Except.pure]
      have e5 : stepD5 (goto .sD5 s4) = .ok (finish s5) := by
        simp only [stepD5, xexAt_eq]
        rw [if_pos (by simp [lastAddr, hs4, hs3, hs2, hs1] at h ⊢; omega)]
        simp [hs5, hs4, hs3, hs2, hs1, lastAddr, bind, Except.bind, pure, Except.pure]
      refine ⟨finish s5, ?_, ?_, ?_, ?_, ?_⟩
      · rw [ht]
        simp only [sectorRun, sectorStep, hp', stepD1, bind, Except.bind, goto_phase]
        rw [show doubleTweak s = s1 from by rw [hs1], e2]
        simp only [goto_phase, stepD3]
        rw [show halveTweak (goto Phase.sD3 s2) = s3 from by rw [hs3], e4]
        simp only [goto_phase, e5]
      · constructor <;> simp [hs5, hs4, hs3, hs2, hs1]
      · simpa using w5
      · intro x hx
        rw [finish_mem, hs5, read_xexPost _ _ _ _ w4, if_neg (by omega), goto_mem, hs4, read_swapPost _ _ _ _ w3 (by omega), if_neg (by omega), if_neg (by omega)]
        simp only [hs3, hs2, goto_mem, halveTweak_mem]
        rw [read_xexPost _ _ _ _ w1, if_neg (by omega)]
        simp [hs1]
      · have hx : xex (goto .sD5 s4) = xex s := by funext a b c; simp [xex, cipherFn, State.key, hs4, hs3, hs2, hs1]
        have hx2 : xex (goto .sD2 s1) = xex s := by funext a b c; simp [xex, cipherFn, State.key, hs1]
        have hsplit : ∀ m : Memory, m.readBytes (lastAddr s) (16 + s.rem.toNat) = m.readBytes (lastAddr s) 16 ++ m.readBytes (lastAddr s + 16) s.rem.toNat := by
          intro m
          refine List.ext_getElem (by simp) fun i h1 h2 => ?_
          rw [List.getElem_append]
          simp only [Memory.getElem_readBytes, Memory.length_readBytes]
          split
          · rfl
          · congr 1; omega
        have hb : s5.mem.readBytes (lastAddr s) 16 = blockBytes (xexBlock (goto .sD5 s4) .dec (lastAddr s)) := by rw [hs5]; exact readBytes_xexPost_same _ _ _ w4
        rw [finish_mem, hsplit, hb]
        have htail : s5.mem.readBytes (lastAddr s + 16) s.rem.toNat = s4.mem.readBytes (lastAddr s + 16) s.rem.toNat :=
          readBytes_congr fun x hx1 hx2 => by rw [hs5, read_xexPost _ _ _ _ w4, if_neg (by omega), goto_mem]
        have hblk2 : (goto .sD4 s3).mem.readBytes (lastAddr s) 16 = blockBytes (xexBlock (goto .sD2 s1) .dec (lastAddr s)) := by
          simp only [hs3, hs2, goto_mem, halveTweak_mem]; exact readBytes_xexPost_same _ _ _ w1
        have htail2 : (goto .sD4 s3).mem.readBytes (lastAddr s + 16) s.rem.toNat = s.mem.readBytes (lastAddr s + 16) s.rem.toNat :=
          readBytes_congr fun x hx1 hx2 => by
            simp only [hs3, hs2, goto_mem, halveTweak_mem]; rw [read_xexPost _ _ _ _ w1, if_neg (by omega)]; simp [hs1]
        have htt : s4.t = s.t := by
          simp [hs4, hs3, hs2, hs1]
          exact hh s.t
        have hst : s4.mem.readBytes (lastAddr s + 16) s.rem.toNat = (blockBytes (xexBlock (goto .sD2 s1) .dec (lastAddr s))).take s.rem.toNat := by
          rw [hs4, readBytes_swapPost_tail _ _ _ w3 (by omega), hblk2]
        have hsb : s4.mem.readBytes (lastAddr s) 16 = s.mem.readBytes (lastAddr s + 16) s.rem.toNat ++ (blockBytes (xexBlock (goto .sD2 s1) .dec (lastAddr s))).drop s.rem.toNat := by
          rw [hs4, readBytes_swapPost_block _ _ _ w3 (by omega), hblk2, htail2]
        rw [htail, hst]
        unfold xexBlock at hsb ⊢
        rw [hx, goto_mem, goto_t, htt, hsb]
        simp only [sectorEnd, if_neg htl, Memory.length_readBytes, hx2]
        simp [hs1]

end Sys2Proof.Machine
end

