-- ==== Sys2Proof/Tests/Slice0.lean ====
section
/-! SUPPORT. Tests. Expected words are written out from 30_encoding.md R91 to R96, expected values from the tables of
95_test_vectors.md (the row is named at each test); `wit_` theorems show that the hypotheses of the obligations can
be met together. -/

namespace Sys2Proof.Tests

open Sys2Proof Sys2Proof.Machine

/-! ### Helpers -/

/-- The bytes `lo, lo + 1, …`. -/
def count (lo n : Nat) : List Byte := (List.range n).map fun i => BitVec.ofNat 8 (lo + i)

/-- Bytes from numerals. -/
def hex (l : List Nat) : List Byte := l.map (BitVec.ofNat 8)

/-- A unit with TOY128 attached, the test keys of 95_test_vectors.md section 2, a 64-byte buffer that starts with
`bs`, and a valid tweak `t`. -/
def toy (t : Block) (len : Word) (bs : List Byte) : State :=
  { State.reset with
    t := t, tv := true, len := len, mem := Memory.writeBytes [] 0 bs, bufBytes := 64, cipher := .toy128
    k1 := count 0x00 16, k2 := count 0x10 16 }

/-- T5 of 95_test_vectors.md section 4.5, row N3. -/
def t5 : Block := 0x1e1d1c1b1a191817161514131211151f#128

/-- The next state of an outcome, when there is one. -/
def nextOf (o : Host.Outcome State Fault Refusal) : Option State :=
  match o with
  | .next s => some s
  | .fault _ => none
  | .refused _ => none

/-- The first `n` bytes of the buffer after a command. -/
def bufferAfter (i : Instr) (s : State) (n : Nat) : Option (List Byte) :=
  (nextOf (exec i s)).map fun t => t.mem.readBytes 0 n

/-- STATUS after a command. -/
def statusAfter (i : Instr) (s : State) : Option Block := (nextOf (exec i s)).map statusWord

/-- T and CF after a command. -/
def tweakAfter (i : Instr) (s : State) : Option (Block × Bool) := (nextOf (exec i s)).map fun t => (t.t, t.cf)

theorem next_of_isSome {o : Host.Outcome State Fault Refusal} (h : (nextOf o).isSome = true) : ∃ t, o = .next t := by
  cases o with
  | next s => exact ⟨s, rfl⟩
  | fault f => cases h
  | refused r => cases h

/-! ### WellFormed: the one check, refused and passed -/

theorem test_wf_refuses_rem_zero : Instr.wf (.ctsswap 0#4) = false := by decide

theorem test_wf_passes_rem_one_and_fifteen : Instr.wf (.ctsswap 1#4) = true ∧ Instr.wf (.ctsswap 15#4) = true := by
  decide

/-! ### Decode: bits 31:12, then `rem` in 11:8, then the opcode in 7:0 (30_encoding.md R91, R92, R94) -/

theorem test_decode_nop : decode (0b00000000000000000000#20 ++ 0b0000#4 ++ 0b00000000#8) = .ok .nop := by decide

theorem test_decode_double : decode (0b00000000000000000000#20 ++ 0b0000#4 ++ 0b00000001#8) = .ok .double := by decide

theorem test_decode_halve : decode (0b00000000000000000000#20 ++ 0b0000#4 ++ 0b00000010#8) = .ok .halve := by decide

theorem test_decode_twgen : decode (0b00000000000000000000#20 ++ 0b0000#4 ++ 0b00000011#8) = .ok .twgen := by decide

theorem test_decode_xexe : decode (0b00000000000000000000#20 ++ 0b0000#4 ++ 0b00000100#8) = .ok .xexe := by decide

theorem test_decode_xexd : decode (0b00000000000000000000#20 ++ 0b0000#4 ++ 0b00000101#8) = .ok .xexd := by decide

theorem test_decode_ctsswap : decode (0b00000000000000000000#20 ++ 0b0001#4 ++ 0b00000110#8) = .ok (.ctsswap 1#4) ∧
    decode (0b00000000000000000000#20 ++ 0b1111#4 ++ 0b00000110#8) = .ok (.ctsswap 15#4) := by decide

theorem test_decode_secte : decode (0b00000000000000000000#20 ++ 0b0000#4 ++ 0b00001000#8) = .ok .secte := by decide

theorem test_decode_sectd : decode (0b00000000000000000000#20 ++ 0b0000#4 ++ 0b00001001#8) = .ok .sectd := by decide

/-- Rows W12 to W21 of 95_test_vectors.md section 3. -/
theorem test_decode_reserved : [0x00000006#32, 0x00000007#32, 0x0000000A#32, 0x000000FF#32, 0x00000101#32,
    0x00000F08#32, 0x00001008#32, 0x00001406#32, 0x80000000#32, 0xFFFFFFFF#32].all
      (fun w => (decode w).toOption.isNone) = true := by decide

/-- The table's word of CTSSWAP with its field zero is refused, with `rem = 4` it is read (W8, W12). -/
theorem test_table_word : decodeTableWord 32 0x406 = some (.ctsswap 4#4) ∧ decodeTableWord 32 0x006 = none := by decide

/-! ### Each command on a row of 95_test_vectors.md -/

/-- NOP straight after reset: STATUS 0x002 (46_system.md R214). -/
theorem test_nop_status : statusAfter .nop State.reset = some 0x002#128 := by decide

/-- Row DB8: the carry and the reduction. -/
theorem test_double_reduces :
    tweakAfter .double (toy 0x80000000000000000000000000000001#128 0#32 []) = some (0x85#128, true) := by decide

/-- Section 4.1 step 2: TweakInvalid after reset, STATUS 0x306. -/
theorem test_double_needs_a_tweak : statusAfter .double State.reset = some 0x306#128 := by decide

/-- Section 4.1 step 8: HALVE outside the image of Double, CF unchanged. -/
theorem test_halve_with_carry :
    tweakAfter .halve { toy 0x40000000000000000000000000000000#128 0#32 [] with cf := true } =
      some (0xa0000000000000000000000000000043#128, true) := by decide

/-- Row HV10. -/
theorem test_halve_drops_bit_zero : gfHalve 0xffffffffffffffffffffffffffffffff#128 false =
    0x7fffffffffffffffffffffffffffffff#128 := by decide

/-- Row N9: SIDX = 2^64; STATUS 0x00A. -/
theorem test_twgen : tweakAfter .twgen { toy 0#128 0#32 [] with sidx := 0x10000000000000000#128, tv := false } =
      some (0x1e1d1c1b1a191917161514131211101f#128, false) ∧
    statusAfter .twgen { toy 0#128 0#32 [] with tv := false } = some 0x00A#128 := by decide

/-- Row X1. -/
theorem test_xexe : bufferAfter .xexe (toy t5 0#32 (count 0x41 16)) 16 = some (hex [0x42, 0x4b, 0x49, 0x46, 0x4a, 0x4e,
    0x42, 0x4e, 0x72, 0x7e, 0x42, 0x46, 0x7a, 0x7e, 0x42, 0x7e]) := by decide

/-- Row X7: bit 127 of T is bit 7 of the byte at OFF + 15. -/
theorem test_xexe_byte_order : bufferAfter .xexe (toy 0x80000000000000000000000000000000#128 0#32
    (List.replicate 16 0xff#8)) 16 = some (hex [0x8f, 0xff, 0x00, 0x02, 0x03, 0x04, 0x05, 0x06, 0x07, 0x08, 0x09, 0x0a,
    0x0b, 0x0c, 0x0d, 0x8e]) := by decide

/-- Row X2. -/
theorem test_xexd : bufferAfter .xexd (toy t5 0#32 (count 0x41 16)) 16 = some (hex [0x48, 0x44, 0x45, 0x41, 0x5d, 0x59,
    0x4d, 0x41, 0x5d, 0x51, 0x55, 0x51, 0x5d, 0x59, 0x5d, 0x51]) := by decide

/-- Row SW1. -/
theorem test_ctsswap : bufferAfter (.ctsswap 4#4) (toy 0#128 0#32 (count 0x41 20)) 20 =
    some (hex [0x51, 0x52, 0x53, 0x54] ++ count 0x45 12 ++ hex [0x41, 0x42, 0x43, 0x44]) := by decide

/-- Row SW7: one byte past the end of the buffer, STATUS 0x406. -/
theorem test_ctsswap_range : statusAfter (.ctsswap 15#4)
    { toy 0#128 0#32 [] with tv := false, off := 2#32, bufBytes := 32 } = some 0x406#128 := by decide

/-- Row V8, encrypted: one body block, the stealing end. -/
theorem test_secte_steals : bufferAfter .secte (toy t5 36#32 (count 0x20 36)) 36 = some (hex [0x5f, 0x2a, 0x24, 0x27,
    0x27, 0x2f, 0x23, 0x2f, 0x2f, 0x5f, 0x23, 0x27, 0x27, 0x5f, 0x23, 0x5f, 0x19, 0x68, 0x52, 0x40, 0x42, 0x24, 0x27,
    0x3a, 0x01, 0x38, 0x33, 0x26, 0x35, 0x3c, 0x1f, 0x12, 0x2c, 0x24, 0x3e, 0x36]) := by decide

/-- Row V6, encrypted: no stealing. -/
theorem test_secte_aligned : bufferAfter .secte (toy t5 32#32 (count 0x20 32)) 32 = some (hex [0x5f, 0x2a, 0x24, 0x27,
    0x27, 0x2f, 0x23, 0x2f, 0x2f, 0x5f, 0x23, 0x27, 0x27, 0x5f, 0x23, 0x5f, 0x2c, 0x24, 0x3e, 0x36, 0x3c, 0x3e, 0x08,
    0x0e, 0x0c, 0x2e, 0x20, 0x26, 0x2c, 0x2e, 0x28, 0x2e]) := by decide

/-- Row V8, decrypted. -/
theorem test_sectd_steals : bufferAfter .sectd (toy t5 36#32 (count 0x20 36)) 36 = some (hex [0x2b, 0x27, 0x3e, 0x26,
    0x3e, 0x3a, 0x3e, 0x2e, 0x3e, 0x32, 0x3e, 0x36, 0x3e, 0x3a, 0x3e, 0x2e, 0x55, 0x75, 0x47, 0x2c, 0x07, 0x3a, 0x09,
    0x30, 0xd3, 0x25, 0x3d, 0x24, 0x5f, 0x52, 0x51, 0x53, 0x19, 0x21, 0x3d, 0x3d]) := by decide

/-- Row V11, decrypted: the halving needs the carry. -/
theorem test_sectd_restores_with_the_carry : bufferAfter .sectd (toy 0x80000000000000000000000000000001#128 20#32
    (count 0x41 20)) 20 = some (hex [0x53, 0x52, 0x52, 0x3f, 0x3e, 0x3d, 0x3c, 0x3b, 0x3a, 0x39, 0x38, 0x37, 0x36, 0x35,
    0x27, 0xc1, 0xc7, 0x42, 0x42, 0x42]) := by decide

/-! ### Witnesses: states that meet the hypotheses of the obligations -/

/-- TOY128 undoes itself for every key. -/
theorem toy128_correct : CipherUnit.toy128.Correct := by
  have hr : ∀ v : Block, toyRotr8 (toyRotl8 v) = v := by
    intro v
    refine BitVec.eq_of_getLsbD_eq fun k hk => ?_
    simp only [toyRotr8, toyRotl8, BitVec.getLsbD_or, BitVec.getLsbD_shiftLeft, BitVec.getLsbD_ushiftRight]
    by_cases h : k < 120
    · simp [show 8 + k < 128 by omega, show ¬ 8 + k < 8 by omega, h]
      intro h1; rw [BitVec.getLsbD_of_ge _ _ (by omega)] at h1; cases h1
    · simp [show ¬ 8 + k < 128 by omega, h, hk, show k - 120 < 8 by omega, show 120 + (k - 120) = k by omega]
      intro h1; rw [BitVec.getLsbD_of_ge _ _ (by omega)] at h1; cases h1
  have hl : ∀ v : Block, toyRotl8 (toyRotr8 v) = v := by
    intro v
    refine BitVec.eq_of_getLsbD_eq fun k hk => ?_
    simp only [toyRotr8, toyRotl8, BitVec.getLsbD_or, BitVec.getLsbD_shiftLeft, BitVec.getLsbD_ushiftRight]
    by_cases h : k < 8
    · simp [h, hk, show 120 + k < 128 by omega, show 8 + (120 + k) = 128 + k by omega]
    · simp [h, hk, show k - 8 < 120 by omega, show 8 + (k - 8) = k by omega, show ¬ 120 + k < 128 by omega]
      intro h1; rw [BitVec.getLsbD_of_ge _ _ (by omega)] at h1; cases h1
  intro k x
  constructor
  · simp [CipherUnit.apply, toyDecrypt, toyEncrypt, hr]
  · simp [CipherUnit.apply, toyDecrypt, toyEncrypt, hl]

/-- An idle unit with a valid tweak and a region of 20 bytes that ends at the last byte of the buffer. -/
def ready : State := { toy t5 20#32 (count 0x20 48) with off := 44#32 }

/-- The same unit with SECTD accepted: phase S_D1. -/
def running : State :=
  { ready with phase := .sD1, opl := 0x09#8, dirl := .dec, n := 1#28, rem := 4#4, j := 0#28 }

theorem wit_ready_invariant : ready.Inv where
  memWf := by decide
  memBelow := by decide
  bufBytesOk := by decide
  statusOk := by decide
  ecodeOk := by decide
  inflightOk := by decide
  latchesOk := trivial

theorem wit_running_invariant : running.Inv ∧ running.busy = true ∧ running.phase = .sD1 where
  left :=
    { memWf := by decide
      memBelow := by decide
      bufBytesOk := by decide
      statusOk := by decide
      ecodeOk := by decide
      inflightOk := by decide
      latchesOk := ⟨Or.inr rfl, rfl, rfl, by decide, by decide, by decide, by decide, by decide⟩ }
  right := by decide

/-! #### Encoding -/

theorem wit_DecodeOfEncodeIsTheCommand : Instr.wf (.ctsswap 1#4) = true ∧ Instr.wf (.ctsswap 15#4) = true ∧
    Instr.wf .sectd = true := by decide

theorem wit_EncodeOfDecodeIsTheWord : decode 0x00000F06#32 = .ok (.ctsswap 15#4) := by decide

/-- One word for each clause, at the ends of its range. -/
theorem wit_DecodingFollowsTheFiveCases :
    (0x00001406#32).extractLsb' 12 20 ≠ 0#20 ∧ (0x80000000#32).extractLsb' 12 20 ≠ 0#20 ∧
    ((0x00000106#32).extractLsb' 12 20 = 0#20 ∧ (0x00000106#32).extractLsb' 0 8 = 0x06#8 ∧
      (0x00000106#32).extractLsb' 8 4 ≠ 0#4) ∧
    ((0x00000006#32).extractLsb' 12 20 = 0#20 ∧ (0x00000006#32).extractLsb' 0 8 = 0x06#8 ∧
      (0x00000006#32).extractLsb' 8 4 = 0#4) ∧
    ((0x00000009#32).extractLsb' 0 8 = 0x09#8 ∧ (0x00000009#32).extractLsb' 8 4 = 0#4) ∧
    ((0x00000F09#32).extractLsb' 0 8 = 0x09#8 ∧ (0x00000F09#32).extractLsb' 8 4 ≠ 0#4) ∧
    (0x00000007#32).extractLsb' 0 8 = 0x07#8 ∧ 0x0A#8 ≤ (0x0000000A#32).extractLsb' 0 8 ∧
    0x0A#8 ≤ (0x000000FF#32).extractLsb' 0 8 := by decide

theorem wit_ReservedWordsEndInIllegalCommand : State.reset.phase = .idle ∧ ∃ e, decode 0x00000006#32 = .error e :=
  ⟨rfl, .swapOfZero, by decide⟩

/-! #### The step and the register port -/

theorem wit_StepRunsTheDecodedCommand : decode 0x00000406#32 = .ok (.ctsswap 4#4) ∧ Instr.wf .secte = true := by
  decide

theorem wit_TurnsWithoutTransactionRunTheSequencer : running.inbox = [] ∧ State.reset.phase = .idle := by decide

/-- Every command passes its checks in `ready`; the sector commands also with two blocks and no tail. -/
theorem wit_AcceptanceLatchesTheCommand : ready.phase = .idle ∧
    (∀ i ∈ [Instr.nop, .double, .halve, .twgen, .xexe, .xexd, .ctsswap 4#4, .secte, .sectd],
      firstCause i ready = none) ∧
    ∀ i ∈ [Instr.secte, .sectd], firstCause i (toy t5 32#32 []) = none := by decide

theorem wit_HostAccessesWhileBusy : running.busy = true := by decide

theorem wit_HostWriteSetsTheNamedRegister : running.busy = true ∧ ready.busy = false ∧ 7#4 ≤ 7#4 ∧ 7#4 ≤ 15#4 := by
  decide

theorem wit_HostReadReturnsTheNamedRegister : ready.busy = false ∧ running.busy = true ∧ 7#4 ≤ 7#4 ∧
    7#4 ≤ 15#4 := by decide

/-- The bits of STATUS at the ends of their ranges: after an error with a valid tweak, 0x40E. -/
theorem wit_StatusBitsAreWhereTheMapPutsThem :
    statusWord { ready with done := true, err := true, ecode := 4#4 } = 0x40E#128 ∧
    statusWord running = 0x009#128 := by decide

/-! #### Reset -/

theorem wit_ResetLeavesTheValuesOfTheSpec : ready.busy = false := by decide

/-- A byte outside the range of the running command, on either side of it. -/
theorem wit_ResetWhileBusyLosesOnlyTheCommandRange : running.Inv ∧ running.busy = true ∧
    owns running 43 1 = false ∧ owns running 44 1 = true ∧ owns running 63 1 = true ∧ owns running 64 1 = false :=
  ⟨wit_running_invariant.1, by decide⟩

/-! #### Field arithmetic -/

/-- Row DB6: bit 127 goes to bits 0, 1, 2 and 7; row DB10: bit 126 to bit 127. -/
theorem wit_DoubleIsMultiplicationByX : (0 < 128 ∧ 127 < 128) ∧
    gfDouble 0x80000000000000000000000000000000#128 = (0x87#128, true) ∧
    gfDouble 0x40000000000000000000000000000000#128 = (0x80000000000000000000000000000000#128, false) := by decide

/-- Row DB11, byte by byte. -/
theorem test_double_bytes : gfDoubleBytes (hex [0x10, 0x32, 0x54, 0x76, 0x98, 0xba, 0xdc, 0xfe, 0xef, 0xcd, 0xab, 0x89,
    0x67, 0x45, 0x23, 0x01]) = (hex [0x20, 0x64, 0xa8, 0xec, 0x30, 0x75, 0xb9, 0xfd, 0xdf, 0x9b, 0x57, 0x13, 0xcf, 0x8a,
    0x46, 0x02], false) := by decide

/-- Rows HV7 and HV8: the same `t` with `t[0] = c` and with `t[0] ≠ c`. -/
theorem wit_DoubleOfHalveReplacesBitZero : (0 < 128 ∧ 127 < 128) ∧ (0x87#128).getLsbD 0 = true ∧
    gfHalve 0x87#128 true = 0x80000000000000000000000000000000#128 ∧ gfHalve 0x87#128 false = 0x43#128 := by decide

/-! #### The buffer -/

/-- The last 16 bytes of the buffer. -/
theorem wit_BufferPrimitivesReadAndWriteTheNamedBytes : ready.mem.wf = true ∧ 48 + 16 ≤ ready.bufBytes ∧
    48 + (count 0 16).length ≤ ready.bufBytes := by decide

/-! #### The commands -/

theorem wit_NopWritesOnlyStatus : State.reset.phase = .idle := by decide

theorem wit_DoubleWritesTheTweakAndTheCarry : ready.phase = .idle ∧ ready.tv = true ∧ State.reset.phase = .idle ∧
    State.reset.tv = false := by decide

theorem wit_HalveWritesTheTweakOnly : ready.phase = .idle ∧ ready.tv = true ∧ State.reset.phase = .idle ∧
    State.reset.tv = false := by decide

theorem wit_TwgenEncryptsTheSectorIndexUnderKeyTwo : State.reset.phase = .idle := by decide

/-- No tweak; one byte past the last block of the buffer; the last block of the buffer. -/
theorem wit_XexCommandsTransformTheBlockAtOff : (State.reset.phase = .idle ∧ State.reset.tv = false) ∧
    (∀ s ∈ [{ ready with off := 49#32 }], s.phase = .idle ∧ s.tv = true ∧ s.bufBytes < s.off.toNat + 16) ∧
    ∀ s ∈ [{ ready with off := 48#32 }], s.phase = .idle ∧ s.tv = true ∧
      s.off.toNat + 16 = s.bufBytes ∧ s.mem.wf = true := by decide

theorem wit_XexdUndoesXexe : ready.phase = .idle ∧ ready.tv = true ∧ ready.off.toNat + 16 ≤ ready.bufBytes ∧
    ready.mem.wf = true ∧ ready.cipher.Correct :=
  ⟨by decide, by decide, by decide, by decide, toy128_correct⟩

/-- The ranges of `rem = 4` end at the last byte of the buffer, and those of `rem = 5` one byte past it. -/
theorem wit_CtsswapExchangesHeadAndTail : ready.phase = .idle ∧ 4#4 ≠ 0#4 ∧ 5#4 ≠ 0#4 ∧
    ready.bufBytes < ready.off.toNat + 16 + (5#4).toNat ∧
    ready.off.toNat + 16 + (4#4).toNat = ready.bufBytes ∧ ready.mem.wf = true := by decide

theorem wit_SectorCommandsComputeSectorFn : ready.phase = .idle ∧ 16 ≤ ready.len.toNat ∧ ready.tv = true ∧
    ready.off.toNat + ready.len.toNat = ready.bufBytes ∧ ready.mem.wf = true := by decide

/-- Both sector commands end without error in `ready`. -/
theorem wit_SectorCommandsLeaveTweakAndCarryFree : ready.phase = .idle ∧
    ∀ i ∈ [Instr.secte, .sectd], statusAfter i ready = some 0x002#128 := by decide

theorem wit_SectorFnRoundTrip : ready.cipher.Correct ∧ 16 ≤ (count 0 16).length := ⟨toy128_correct, by decide⟩

theorem wit_AlignedSectorsNeverSteal : ∀ i ∈ [Instr.secte, .sectd], ∀ s ∈ [{ ready with len := 16#32 }],
    s.phase = .idle ∧ firstCause i s = none ∧ s.len.toNat % 16 = 0 ∧
      (acceptInstr i s).busy = true ∧ (nextOf (toOutcome (seqRun 1 (acceptInstr i s)))).isSome = true := by decide

theorem wit_HalveRestoresTheTweakOnTheStealingPath : running.Inv ∧ running.phase = .sD1 :=
  ⟨wit_running_invariant.1, by decide⟩

theorem wit_SectorCommandsRequestOncePerTransform : ready.phase = .idle ∧ ∀ i ∈ [Instr.secte, .sectd],
    firstCause i ready = none ∧ (nextOf (exec i ready)).isSome = true := by decide

theorem wit_SectorCommandsAccessTheBlocksInOrder : ready.phase = .idle ∧ ∀ i ∈ [Instr.secte, .sectd],
    firstCause i ready = none ∧ firstCause i { ready with len := 16#32 } = none := by decide

/-- Program P1 of 96_test_programs.md, at OFF = 44: the transactions of the one block and its tail, in order. -/
theorem test_secte_transactions :
    ((nextOf (exec .secte ready)).map fun t => t.portLog.reverse.map PortEvent.shape) =
      some [.read 44 16, .request .k1 .enc, .answer, .write 44 16, .read 44 4, .read 60 4, .write 44 4, .write 60 4,
        .read 44 16, .request .k1 .enc, .answer, .write 44 16] := by decide

/-! #### Errors -/

theorem wit_ShortSectorsAreRejectedInBothDirections : ∀ s ∈ [{ ready with len := 15#32 }],
    s.phase = .idle ∧ s.len.toNat < 16 := by decide

/-- One byte past the end of the buffer, for each form; OFF near 2^32 does not wrap. -/
theorem wit_RangeErrorsUseUnboundedSums :
    (∀ s ∈ [{ ready with off := 49#32 }, { ready with off := 0xFFFFFFF8#32 }], s.phase = .idle ∧ s.tv = true ∧
      s.bufBytes < s.off.toNat + 16) ∧
    (∀ s ∈ [{ ready with off := 45#32 }], s.phase = .idle ∧ 4#4 ≠ 0#4 ∧ s.bufBytes < s.off.toNat + 16 + (4#4).toNat ∧
      s.tv = true ∧ 16 ≤ s.len.toNat ∧ s.bufBytes < s.off.toNat + s.len.toNat) := by decide

/-- A command for each of the four errors, and one that completes. -/
theorem wit_CommandsEndInTheirFirstErrorOrComplete : State.reset.phase = .idle ∧
    firstCause .secte State.reset = some .sectorTooShort ∧ firstCause .nop State.reset = none ∧
    firstCause (.ctsswap 0#4) State.reset = some .illegalCommand ∧ firstCause .double State.reset = some .tweakInvalid ∧
    firstCause .xexe { ready with off := 49#32 } = some .bufferRange := by decide

/-! #### Frames and whole-machine rules -/

theorem wit_CommandsLeaveTheHostSideAlone : ∃ t, exec .secte ready = .next t := next_of_isSome (by decide)

/-- The byte before and the byte after the region of `ready`. -/
theorem wit_CommandsStoreOnlyToTheirRanges : ready.mem.wf = true ∧ (∃ t, exec .secte ready = .next t) ∧
    inRanges (storedRanges .secte ready) 43 = false ∧ inRanges (storedRanges .secte ready) 64 = false :=
  ⟨by decide, next_of_isSome (by decide), by decide, by decide⟩

/-- A command that ends in an error, and one that completes. -/
theorem wit_CommandsKeepTheFlagsTheyDoNotName : ready.phase = .idle ∧ statusAfter .twgen ready = some 0x00A#128 ∧
    statusAfter .secte ready = some 0x002#128 ∧ statusAfter .secte { ready with len := 0#32 } = some 0x10E#128 := by
  decide

/-- The four events: a write of T, a completed TWGEN, reset, a completed sector command. -/
theorem wit_TweakValidityChangesOnlyByItsFourEvents :
    (∀ a ∈ [HostAction.write 4#4 7#128, .command 0x00000003#32],
      (nextOf (step { State.reset with inbox := [a] })).map (·.tv) = some true) ∧
    ∀ a ∈ [HostAction.reset, .command 0x00000009#32], (nextOf (step { ready with inbox := [a] })).map (·.tv) =
      some false := by decide

theorem wit_NoStepDecryptsUnderKeyTwo : ∃ t, step { ready with inbox := [.command 0x00000003#32] } = .next t :=
  next_of_isSome (by decide)

theorem wit_SequencerWritesOnlyItsRange : running.Inv ∧ (∃ t, seqStep running = .ok t) ∧ owns running 43 1 = false :=
  ⟨wit_running_invariant.1, ⟨_, rfl⟩, by decide⟩

/-- The buffer of `ready` with another byte 0. -/
theorem wit_CommandsReadNothingOutsideTheirRanges : ready.mem.wf = true ∧ (ready.mem.write 0 0xff#8).wf = true ∧
    (∀ a, inRanges (storedRanges .secte ready) a = true → (ready.mem.write 0 0xff#8).read a = ready.mem.read a) ∧
    ∃ t, exec .secte ready = .next t := by
  refine ⟨by decide, by decide, fun a ha => ?_, next_of_isSome (by decide)⟩
  have h0 : a ≠ 0 := by
    rintro rfl
    revert ha
    decide
  rw [Memory.read_write _ _ _ (by decide), if_neg h0]

/-! #### Invariants and runs -/

theorem wit_EveryStepKeepsTheInvariant : running.Inv ∧ ∃ t, step running = .next t :=
  ⟨wit_running_invariant.1, ⟨_, rfl⟩⟩

/-- One byte past the end of the buffer. -/
theorem wit_LegalStatesFaultOnlyByForeignAddresses :
    State.Inv { ready with inbox := [.bufRead 64 1] } ∧
      step { ready with inbox := [.bufRead 64 1] } = .fault .outsideBuffer :=
  ⟨{ memWf := by decide, memBelow := by decide, bufBytesOk := by decide, statusOk := by decide, ecodeOk := by decide
     inflightOk := by decide, latchesOk := trivial }, rfl⟩

/-- The first byte of the running range, and a change of the keys. -/
theorem wit_StepsAreRefusedOnlyForHostViolations :
    step { running with inbox := [.bufRead 44 1] } = .refused .bufferRace ∧
    step { running with inbox := [.bufWrite 63 [0#8]] } = .refused .bufferRace ∧
    step { running with inbox := [.bindKeys [] []] } = .refused .keysChangedWhileBusy := ⟨rfl, rfl, rfl⟩

/-- The keys that are bound already can be bound again while BUSY = 1 (70_reset_and_hazards.md R275; log 13). -/
theorem test_same_keys_while_busy :
    step { running with inbox := [.bindKeys running.k1 running.k2] } = .next running := rfl

theorem wit_RunningCommandsCompleteOnTime : running.Inv ∧ running.busy = true ∧ stepsLeft running = 5 ∧
    ready.phase = .idle ∧ firstCause .sectd ready = none :=
  ⟨wit_running_invariant.1, by decide⟩

theorem wit_SmallStepsAgreeWithTheBigStep : Instr.wf .secte = true ∧ ready.phase = .idle ∧
    (∃ t, exec .secte { ready with inbox := [] } = .next t) ∧ stepsLeft (acceptInstr .secte ready) ≤ 4 :=
  ⟨by decide, by decide, next_of_isSome (by decide), by decide⟩

theorem wit_WaitEndsWithTheStatusOfTheCommand : Instr.wf .secte = true ∧ ready.phase = .idle ∧
    ∃ t, exec .secte { ready with inbox := [] } = .next t := ⟨by decide, by decide, next_of_isSome (by decide)⟩

/-! #### Host sequences -/

/-- A 31-byte key and a sector size of 15 are rejected, a 32-byte key is taken (95_test_vectors.md H5). -/
theorem wit_CodecRejectsBadKeysAndSizesFirst : keyValid ready.cipher (count 0 31) = false ∧
    keyValid ready.cipher (count 0 32) = true ∧ 15 < 16 := by decide

/-- The sector size is checked before the keys are bound (45_host_sequences.md R197), a busy unit included. -/
theorem test_sector_size_before_binding :
    cryptSectors .enc (count 7 32) 0 0 40 15 running = .next (.invalidSectorSize, running) := rfl

theorem wit_SectorsPartitionTheBuffer : 1 ≤ 1 ∧ sectorCount 40 32 = 2 ∧ sectorLength 40 32 0 = 32 ∧
    sectorLength 40 32 1 = 8 ∧ 0 + 1 < sectorCount 40 32 := by decide

theorem wit_SingleSectorCallsComputeSectorFn : keyValid ready.cipher (count 0 32) = true ∧ ready.phase = .idle ∧
    16 ≤ 16 ∧ 16 < 2 ^ 32 ∧ 48 < 2 ^ 32 ∧ 48 + 16 ≤ ready.bufBytes ∧ ready.mem.wf = true ∧
    2 ^ 32 ≤ 2 ^ 32 ∧ ready.bufBytes < 49 + 16 := by decide

/-- One byte past the buffer, and arrays that OFF or LEN cannot express, end in BufferRange (45_host_sequences.md
R192). -/
theorem test_arrays_outside_the_buffer :
    (∃ t, cryptSector .enc (count 0 32) 0 49 16 ready = .next (.commandFailed 4#4, t) ∧ t.mem = ready.mem) ∧
    (∃ t, cryptSector .enc (count 0 32) 0 (2 ^ 32) 16 ready = .next (.commandFailed 4#4, t) ∧ t.mem = ready.mem) ∧
    ∃ t, cryptSector .dec (count 0 32) 0 0 (2 ^ 32 + 16) ready = .next (.commandFailed 4#4, t) ∧ t.mem = ready.mem :=
  ⟨⟨_, rfl, rfl⟩, ⟨_, rfl, rfl⟩, _, rfl, rfl⟩

theorem wit_ShortAndEmptyCallsLeaveTheBuffer : keyValid ready.cipher (count 0 32) = true ∧ ready.phase = .idle ∧
    15 < 16 ∧ 16 ≤ 16 := by decide

/-- A multi-sector call on an empty array changes nothing, on a busy unit and with other keys than those bound too
(45_host_sequences.md R202). -/
theorem test_empty_array : cryptSectors .enc (count 7 32) 0 0 0 16 ready = .next (.success, ready) ∧
    cryptSectors .dec (count 7 32) 0 0 0 16 running = .next (.success, running) := ⟨rfl, rfl⟩

/-- 52 bytes in sectors of 32: lengths 32 and 20 (95_test_vectors.md S12). -/
theorem wit_MultiSectorCallsTreatSectorsIndependently : keyValid ready.cipher (count 0 32) = true ∧
    ready.phase = .idle ∧ 16 ≤ 32 ∧ 1 ≤ 52 ∧ 16 ≤ (52 - 1) % 32 + 1 ∧ 52 < 2 ^ 32 ∧ 12 + 52 ≤ 2 ^ 32 ∧ 12 + 52 ≤ ready.bufBytes ∧
    ready.mem.wf = true ∧ 1 < sectorCount 52 32 := by decide

/-- Program P3 of 96_test_programs.md: 40 bytes in sectors of 32. -/
theorem wit_FailedCallsLeaveEarlierSectorsTransformed : keyValid ready.cipher (count 0 32) = true ∧
    ready.phase = .idle ∧ 16 ≤ 32 ∧ 1 ≤ 40 ∧ (40 - 1) % 32 + 1 < 16 ∧ 40 < 2 ^ 32 ∧ 0 + 40 ≤ 2 ^ 32 ∧ 0 + 40 ≤ ready.bufBytes ∧
    ready.mem.wf = true ∧ 0 + 1 < sectorCount 40 32 := by decide

theorem wit_DecryptCallUndoesEncryptCall : keyValid ready.cipher (count 0 32) = true ∧ ready.cipher.Correct ∧
    ready.phase = .idle ∧ 16 ≤ 20 ∧ 20 < 2 ^ 32 ∧ 44 < 2 ^ 32 ∧ 44 + 20 ≤ ready.bufBytes ∧ ready.mem.wf = true :=
  ⟨by decide, toy128_correct, by decide⟩

/-! #### Several instances -/

/-- A second unit that runs SECTD, on the first 20 bytes of the buffer. -/
def second : State := { running with off := 0#32, unitNo := 1 }

/-- The two units in one system. -/
def pair : UnitSystem := { units := [running, second], mem := ready.mem }

/-- The reset input reaches both units (70_reset_and_hazards.md R260). -/
theorem test_reset_reaches_every_unit :
    ∃ z, UnitSystem.step 0 { pair with units := [{ running with inbox := [.reset] }, second] } = .next z ∧
      z.units.map State.phase = [.idle, .idle] := ⟨_, rfl, rfl⟩

/-- The keys are shared at the cipher, and a busy unit keeps them from being bound (60_exceptions.md R248). -/
theorem test_keys_are_bound_for_every_unit :
    UnitSystem.step 0 { pair with units := [{ ready with inbox := [.bindKeys [] []] }, second] } =
      .refused .keysChangedWhileBusy ∧
    ∃ z, UnitSystem.step 0 { pair with units := [{ ready with inbox := [.bindKeys [1#8] []] }, ready] } = .next z ∧
      z.units.map State.k1 = [[1#8], [1#8]] := ⟨rfl, _, rfl, rfl⟩

/-- The ranges 44 to 63 and 0 to 19 are disjoint, and both orders of the two steps answer. -/
theorem wit_StepsOfDisjointInstancesCommute : 0 ≠ 1 ∧ pair.units[0]? = some running ∧ pair.units[1]? = some second ∧
    running.inbox = [] ∧ second.inbox = [] ∧ (pair.unitView running).Inv ∧ (pair.unitView second).Inv ∧
    (∀ a, ¬(owns running a 1 = true ∧ owns second a 1 = true)) ∧
    (∃ z, UnitSystem.run [0, 1] pair = .next z) ∧ ∃ z, UnitSystem.run [1, 0] pair = .next z := by
  refine ⟨by decide, rfl, rfl, rfl, rfl, wit_running_invariant.1, ?_, fun a => ?_, ⟨_, rfl⟩, ⟨_, rfl⟩⟩
  · exact
      { memWf := by decide
        memBelow := by decide
        bufBytesOk := by decide
        statusOk := by decide
        ecodeOk := by decide
        inflightOk := by decide
        latchesOk := ⟨Or.inr rfl, rfl, rfl, by decide, by decide, by decide, by decide, by decide⟩ }
  · simp [owns, ownedRanges, second, running, ready, toy, rangesMeet]
    omega

end Sys2Proof.Tests
end

section
/-! Reset: what the reset input leaves of each register (10_state.md R56, 70_reset_and_hazards.md R260, R261), and
the checks that fail first while LEN and TV hold their reset values. -/

namespace Sys2Proof.Machine

theorem busy_eq_false_iff (s : State) : s.busy = false ↔ s.phase = .idle := by simp [State.busy]

/-! ### What `resetUnit` leaves of each field -/

@[simp] theorem resetUnit_tv (s : State) : (resetUnit s).tv = false := rfl
@[simp] theorem resetUnit_sidx (s : State) : (resetUnit s).sidx = 0#128 := rfl
@[simp] theorem resetUnit_off (s : State) : (resetUnit s).off = 0#32 := rfl
@[simp] theorem resetUnit_len (s : State) : (resetUnit s).len = 0#32 := rfl
@[simp] theorem resetUnit_cf (s : State) : (resetUnit s).cf = false := rfl
@[simp] theorem resetUnit_busy (s : State) : (resetUnit s).busy = false := rfl
@[simp] theorem resetUnit_done (s : State) : (resetUnit s).done = false := rfl
@[simp] theorem resetUnit_err (s : State) : (resetUnit s).err = false := rfl
@[simp] theorem resetUnit_ecode (s : State) : (resetUnit s).ecode = 0#4 := rfl
@[simp] theorem resetUnit_phase (s : State) : (resetUnit s).phase = .idle := rfl
@[simp] theorem resetUnit_inflight (s : State) : (resetUnit s).inflight = none := rfl
@[simp] theorem resetUnit_mem (s : State) : (resetUnit s).mem = resetMemory s := rfl
@[simp] theorem resetUnit_k1 (s : State) : (resetUnit s).k1 = s.k1 := rfl
@[simp] theorem resetUnit_k2 (s : State) : (resetUnit s).k2 = s.k2 := rfl

theorem ownedRanges_idle {s : State} (hp : s.phase = .idle) : ownedRanges s = [] := by
  simp [ownedRanges, hp]

/-- An idle unit owns no range, so its reset leaves the whole buffer (70_reset_and_hazards.md R261). -/
theorem resetMemory_idle {s : State} (hp : s.phase = .idle) : resetMemory s = s.mem := by
  simp [resetMemory, ownedRanges_idle hp]

/-! ### The checks that fail first -/

/-- SectorTooShort comes before every other error of SECTE and SECTD (43_sector_processor.md R153). -/
theorem firstCause_of_short_sector {i : Instr} {s : State} (hi : i ∈ [Instr.secte, .sectd])
    (hl : s.len.toNat < 16) : firstCause i s = some .sectorTooShort := by
  have hc : sectorCheck s = some .sectorTooShort := if_pos hl
  simp only [List.mem_cons, List.not_mem_nil, or_false] at hi
  obtain rfl | rfl := hi <;> rwa [← checkOf_eq]

/-- TweakInvalid comes before every other error of the commands that read T and take no LEN (40_gf_arithmetic.md
R114, R115, 42_block_transform.md R141). -/
theorem firstCause_of_no_tweak {i : Instr} {s : State} (hi : i ∈ [Instr.double, .halve, .xexe, .xexd])
    (htv : s.tv = false) : firstCause i s = some .tweakInvalid := by
  have ht : tweakCheck s = some .tweakInvalid := by simp [tweakCheck, htv]
  have hb : blockCheck s = some .tweakInvalid := by simp [blockCheck, htv]
  simp only [List.mem_cons, List.not_mem_nil, or_false] at hi
  obtain rfl | rfl | rfl | rfl := hi <;> rwa [← checkOf_eq]

/-- Settles O14: the register values are read off the fields, the buffer is kept because an idle unit owns no range,
and the first commands fail their first check because LEN = 0 and TV = 0. -/
theorem resetLeavesTheValuesOfTheSpec : Obligations.ResetLeavesTheValuesOfTheSpec := by
  have short : State.reset.len.toNat < 16 := by decide
  refine ⟨by simp [State.reset, State.busy], fun s hb => ?_, ?_, ?_, fun i hi => ?_⟩
  · have hm := resetMemory_idle ((busy_eq_false_iff s).1 hb)
    simp [hm]
  · exact exec_error rfl (firstCause_of_short_sector (by simp) short)
  · exact exec_error rfl (firstCause_of_short_sector (by simp) short)
  · exact exec_error rfl (firstCause_of_no_tweak hi rfl)

end Sys2Proof.Machine
end

section
/-! Encoding: the decoder case by case (30_encoding.md R95), the reserved words (R96), and what a write of one to CMD
does (R96, 60_exceptions.md R232). -/

namespace Sys2Proof

/-- The opcodes with no command of format C0: that of CTSSWAP and the unassigned ones (30_encoding.md R94). -/
theorem c0Command_eq_none_iff (opc : BitVec 8) :
    c0Command opc = none ↔ opc = 0x06#8 ∨ opc = 0x07#8 ∨ 0x0A#8 ≤ opc := by
  revert opc
  decide

theorem ne_swapOpcode_of_c0Command {opc : BitVec 8} {i : Instr} (hi : c0Command opc = some i) : opc ≠ 0x06#8 := by
  rintro rfl
  cases hi

/-! ### The equations of the decoder, one per case of 30_encoding.md R95 -/

section Decode

variable {w : Word}

theorem decode_of_highBits (hz : w.extractLsb' 12 20 ≠ 0#20) : decode w = .error .highBits := if_pos hz

theorem decode_of_swapOpcode (hz : w.extractLsb' 12 20 = 0#20) (ho : w.extractLsb' 0 8 = 0x06#8) :
    decode w = if w.extractLsb' 8 4 = 0#4 then .error .swapOfZero else .ok (.ctsswap (w.extractLsb' 8 4)) := by
  simp [decode, hz, ho]

theorem decode_of_c0Command {i : Instr} (hz : w.extractLsb' 12 20 = 0#20)
    (hi : c0Command (w.extractLsb' 0 8) = some i) :
    decode w = if w.extractLsb' 8 4 = 0#4 then .ok i else .error .immediate := by
  simp [decode, hz, ne_swapOpcode_of_c0Command hi, hi]

theorem decode_of_freeOpcode (hz : w.extractLsb' 12 20 = 0#20)
    (ho : w.extractLsb' 0 8 = 0x07#8 ∨ 0x0A#8 ≤ w.extractLsb' 0 8) : decode w = .error .opcode := by
  have hi : c0Command (w.extractLsb' 0 8) = none := (c0Command_eq_none_iff _).2 (.inr ho)
  have hs : w.extractLsb' 0 8 ≠ 0x06#8 := fun h => absurd ho (by rw [h]; decide)
  simp [decode, hz, hs, hi]

/-- The reserved words are those that 30_encoding.md R96 lists. -/
theorem decode_error_iff : (∃ e, decode w = .error e) ↔
    w.extractLsb' 12 20 ≠ 0#20 ∨ w.extractLsb' 0 8 = 0x07#8 ∨ 0x0A#8 ≤ w.extractLsb' 0 8 ∨
    (w.extractLsb' 0 8 ≠ 0x06#8 ∧ w.extractLsb' 8 4 ≠ 0#4) ∨
    (w.extractLsb' 0 8 = 0x06#8 ∧ w.extractLsb' 8 4 = 0#4) := by
  by_cases hz : w.extractLsb' 12 20 = 0#20
  · by_cases hs : w.extractLsb' 0 8 = 0x06#8
    · by_cases hr : w.extractLsb' 8 4 = 0#4 <;> simp [decode_of_swapOpcode hz hs, hz, hs, hr]
    · have hn := c0Command_eq_none_iff (w.extractLsb' 0 8)
      cases hi : c0Command (w.extractLsb' 0 8) with
      | none =>
        have ho := (hn.1 hi).resolve_left hs
        exact iff_of_true ⟨_, decode_of_freeOpcode hz ho⟩ (.inr (or_assoc.1 (.inl ho)))
      | some i =>
        obtain ⟨-, h7, h10⟩ : _ ∧ _ ∧ _ := by simpa [hi] using hn
        by_cases hr : w.extractLsb' 8 4 = 0#4 <;> simp [decode_of_c0Command hz hi, hz, hs, h7, h10, hr]
  · exact iff_of_true ⟨_, decode_of_highBits hz⟩ (.inl hz)

end Decode

/-- Settles O4: each case is the decoder's equation for it, and `c0Command` holds the eight rows of the opcode map. -/
theorem decodingFollowsTheFiveCases : Obligations.DecodingFollowsTheFiveCases := by
  intro w
  refine ⟨fun hz => ⟨_, decode_of_highBits hz⟩, fun hz ho => ⟨fun hr => ?_, fun hr => ?_⟩,
    fun p hp hz ho => ?_, fun ho => ?_⟩
  · rw [decode_of_swapOpcode hz ho, if_neg hr]
  · exact ⟨_, by rw [decode_of_swapOpcode hz ho, if_pos hr]⟩
  · have hrow : c0Command p.1 = some p.2 := by fin_cases hp <;> rfl
    have hd := decode_of_c0Command hz (ho ▸ hrow)
    exact ⟨fun hr => by rw [hd, if_pos hr], fun hr => ⟨_, by rw [hd, if_neg hr]⟩⟩
  · exact decode_error_iff.2 (.inr (or_assoc.1 (.inl ho)))

end Sys2Proof

namespace Sys2Proof.Machine

/-! ### A write of a reserved word to CMD -/

theorem step_cons (a : HostAction) (s : State) (rest : List HostAction) :
    step { s with inbox := a :: rest } = hostAct a { s with inbox := rest } := rfl

/-- On an idle unit a write to index 0 is the acceptance of its low word (10_state.md R35). -/
theorem hostWrite_cmd {s : State} (hp : s.phase = .idle) (wdata : Block) :
    hostWrite 0#4 wdata s = acceptWord (wdata.extractLsb' 0 32) s := by
  simp [hostWrite, State.busy, hp]

/-- The low word of a CMD write that carries `w`. -/
theorem lowWord_setWidth (w : Word) : (w.setWidth 128).extractLsb' 0 32 = w := by
  rw [← BitVec.setWidth_eq_extractLsb' (by decide), BitVec.setWidth_setWidth_of_le w (by decide), BitVec.setWidth_eq]

theorem acceptWord_of_error {w : Word} {e : Reserved} (hd : decode w = .error e) (s : State) :
    acceptWord w s = acceptReserved s := by simp [acceptWord, hd]

theorem commandWord_of_error {w : Word} {e : Reserved} (hd : decode w = .error e) (s : State) :
    commandWord w s = .next (acceptReserved s) := by simp [commandWord, hd]

/-- On an idle unit a reserved word is IllegalCommand, and STATUS alone changes (60_exceptions.md R232, R242). -/
theorem acceptReserved_idle {s : State} (hp : s.phase = .idle) :
    acceptReserved s = { s with done := true, err := true, ecode := 2#4 } := accept_idle hp

/-- Settles O6: the words are those of `decode_error_iff`; either way of writing one is `acceptReserved`. -/
theorem reservedWordsEndInIllegalCommand : Obligations.ReservedWordsEndInIllegalCommand := by
  refine fun w => ⟨decode_error_iff, fun s rest hp ⟨e, hd⟩ => ?_⟩
  have hp' : ({ s with inbox := rest } : State).phase = .idle := hp
  rw [step_cons, step_cons, hostAct, hostAct, commandWord_of_error hd, hostWrite_cmd hp', lowWord_setWidth,
    acceptWord_of_error hd, acceptReserved_idle hp']
  exact ⟨rfl, rfl⟩

end Sys2Proof.Machine
end

section
/-! Field arithmetic: Double and Halve bit by bit, the byte form of Double, and the commands DOUBLE and HALVE
(40_gf_arithmetic.md). -/

namespace Sys2Proof.Machine

/-! ### Double and Halve, bit by bit -/

/-- A doubling moves bit `k - 1` to bit `k` and reduces by the carry (40_gf_arithmetic.md R110). -/
theorem getLsbD_gfDouble (t : Block) {k : Nat} (hk : k < 128) : (gfDouble t).1.getLsbD k =
    ((decide (0 < k) && t.getLsbD (k - 1)) ^^ (reduction (t.getLsbD 127)).getLsbD k) := by
  have h0 : (!decide (k < 1)) = decide (0 < k) := by simp [Nat.pos_iff_ne_zero]
  rw [gfDouble, BitVec.getLsbD_xor, BitVec.getLsbD_shiftLeft, decide_eq_true hk, Bool.true_and, h0]

theorem gfDouble_carry (t : Block) : (gfDouble t).2 = t.getLsbD 127 := rfl

theorem getLsbD_gfDouble_succ (t : Block) {k : Nat} (hk : k + 1 < 128) : (gfDouble t).1.getLsbD (k + 1) =
    (t.getLsbD k ^^ (reduction (t.getLsbD 127)).getLsbD (k + 1)) := by
  rw [getLsbD_gfDouble t hk, decide_eq_true k.succ_pos, Bool.true_and, Nat.add_sub_cancel]

/-- Bit 0 of a doubled value is the carry (40_gf_arithmetic.md R113). -/
theorem getLsbD_gfDouble_zero (t : Block) : (gfDouble t).1.getLsbD 0 = t.getLsbD 127 := by
  rw [getLsbD_gfDouble t (by decide), getLsbD_reduction]
  simp

/-- A halving puts its carry in bit 127 (40_gf_arithmetic.md R112). -/
theorem getLsbD_gfHalve_top (t : Block) (c : Bool) : (gfHalve t c).getLsbD 127 = c := by
  rw [gfHalve, BitVec.getLsbD_or, getLsbD_top]
  simp

/-- A halving takes bit `k` from bit `k + 1`, after the reduction is undone (40_gf_arithmetic.md R112). -/
theorem getLsbD_gfHalve (t : Block) (c : Bool) {k : Nat} (hk : k < 127) :
    (gfHalve t c).getLsbD k = (t.getLsbD (k + 1) ^^ (reduction c).getLsbD (k + 1)) := by
  rw [gfHalve, BitVec.getLsbD_or, getLsbD_top, BitVec.getLsbD_ushiftRight, BitVec.getLsbD_xor, Nat.add_comm]
  simp [hk.ne]

/-- Settles O16: the bits of the reduction constant are 0, 1, 2 and 7. -/
theorem doubleIsMultiplicationByX : Obligations.DoubleIsMultiplicationByX := by
  refine fun t => ⟨gfDouble_carry t, fun k hk => ?_⟩
  rw [getLsbD_gfDouble t hk, getLsbD_reduction]
  simp [Bool.decide_or, ← beq_eq_decide, Bool.or_assoc]

/-! ### Double and Halve are inverse to each other on the outputs of Double -/

/-- Settles O18: bit 127 comes back from the carry, and on every other bit the two reductions cancel. -/
theorem halveUndoesDouble : Obligations.HalveUndoesDouble := by
  refine fun t => BitVec.eq_of_getLsbD_eq fun k hk => ?_
  rw [gfDouble_carry]
  obtain rfl | hk' : k = 127 ∨ k < 127 := by omega
  · exact getLsbD_gfHalve_top _ _
  · rw [getLsbD_gfHalve _ _ hk', getLsbD_gfDouble_succ t (by omega), Bool.xor_assoc, Bool.xor_self, Bool.xor_false]

theorem gfDouble_gfHalve_carry (t : Block) (c : Bool) : (gfDouble (gfHalve t c)).2 = c := getLsbD_gfHalve_top t c

/-- Doubling a halved value gives the value back, but for bit 0, which becomes the carry (40_gf_arithmetic.md
R117). -/
theorem getLsbD_gfDouble_gfHalve (t : Block) (c : Bool) {k : Nat} (hk : k < 128) :
    (gfDouble (gfHalve t c)).1.getLsbD k = if k = 0 then c else t.getLsbD k := by
  cases k with
  | zero => rw [getLsbD_gfDouble_zero, getLsbD_gfHalve_top, if_pos rfl]
  | succ k =>
    rw [getLsbD_gfDouble_succ _ hk, getLsbD_gfHalve_top, getLsbD_gfHalve _ _ (by omega), Bool.xor_assoc,
      Bool.xor_self, Bool.xor_false, if_neg k.succ_ne_zero]

/-- In every output of Double bit 0 of the value is the carry (40_gf_arithmetic.md R113). -/
theorem getLsbD_zero_of_gfDouble_eq {u t : Block} {c : Bool} (h : gfDouble u = (t, c)) : t.getLsbD 0 = c := by
  have h0 := getLsbD_gfDouble_zero u
  rw [← gfDouble_carry, h] at h0
  exact h0

theorem gfDouble_gfHalve_of_getLsbD_zero {t : Block} {c : Bool} (h : t.getLsbD 0 = c) :
    gfDouble (gfHalve t c) = (t, c) := by
  refine Prod.ext (BitVec.eq_of_getLsbD_eq fun k hk => ?_) (gfDouble_gfHalve_carry t c)
  rw [getLsbD_gfDouble_gfHalve t c hk]
  split
  next h0 => rw [h0, h]
  next => rfl

/-- Settles O19: a pair with `t[0] = c` is the Double of its Halve, and every output of Double is such a pair. -/
theorem doubleOfHalveReplacesBitZero : Obligations.DoubleOfHalveReplacesBitZero := by
  refine ⟨fun t c => ⟨gfDouble_gfHalve_carry t c, fun k => getLsbD_gfDouble_gfHalve t c⟩,
    fun t c => ⟨getLsbD_zero_of_gfDouble_eq, gfDouble_gfHalve_of_getLsbD_zero⟩,
    fun t c => ⟨fun ⟨u, hu⟩ => getLsbD_zero_of_gfDouble_eq hu, fun h => ⟨_, gfDouble_gfHalve_of_getLsbD_zero h⟩⟩,
    fun t c u hu => ?_⟩
  have h := halveUndoesDouble u
  rwa [hu] at h

/-! ### The byte form of Double (40_gf_arithmetic.md R111) -/

/-- The carry of the loop before byte `i`: bit 7 of byte `i - 1`, and none before byte 0. -/
def carryInto (t : Block) (i : Nat) : Bool := decide (0 < i) && t.getLsbD (8 * i - 1)

theorem carryInto_succ (t : Block) (i : Nat) : carryInto t (i + 1) = (byteOf t i).getLsbD 7 := by
  rw [getLsbD_byteOf _ _ _ (by decide), carryInto, decide_eq_true i.succ_pos, Bool.true_and]
  rfl

/-- One round of the loop makes byte `i` of the shifted value. -/
theorem byteOf_shiftLeft_one (t : Block) {i : Nat} (hi : i < 16) :
    byteOf (t <<< 1) i = (byteOf t i <<< 1) ||| (if carryInto t i then 1#8 else 0#8) := by
  refine BitVec.eq_of_getLsbD_eq fun k hk => ?_
  have hbit : (if carryInto t i then 1#8 else 0#8).getLsbD k = (decide (k = 0) && carryInto t i) := by
    cases carryInto t i <;> simp
  rw [getLsbD_byteOf _ _ _ hk, BitVec.getLsbD_or, hbit, BitVec.getLsbD_shiftLeft, BitVec.getLsbD_shiftLeft]
  have hk' : 8 * i + k < 128 := by omega
  cases k with
  | zero => simp only [carryInto]; grind
  | succ k => rw [Nat.add_sub_cancel, getLsbD_byteOf _ _ _ (by omega)]; grind

/-- The loop over bytes `i` to `i + n - 1` of a value. -/
theorem shiftBytes_byteOf (t : Block) (n i : Nat) (hi : i + n ≤ 16) :
    shiftBytes (carryInto t i) ((List.range' i n).map (byteOf t)) =
      ((List.range' i n).map (byteOf (t <<< 1)), carryInto t (i + n)) := by
  induction n generalizing i with
  | zero => rfl
  | succ n ih =>
    simp only [List.range'_succ, List.map_cons, shiftBytes, ← carryInto_succ, ih (i + 1) (by omega),
      ← byteOf_shiftLeft_one t (show i < 16 by omega), Nat.add_right_comm i 1 n, Nat.add_assoc i n 1]

/-- The loop over a whole block gives the bytes of the shifted value, and bit 127 as the last carry. -/
theorem shiftBytes_blockBytes (t : Block) :
    shiftBytes false (blockBytes t) = (blockBytes (t <<< 1), t.getLsbD 127) := by
  rw [blockBytes, List.range_eq_range']
  exact shiftBytes_byteOf t 16 0 le_rfl

theorem blockBytes_eq_cons (v : Block) : blockBytes v = byteOf v 0 :: (List.range' 1 15).map (byteOf v) := rfl

theorem byteOf_xor (v w : Block) (i : Nat) : byteOf (v ^^^ w) i = byteOf v i ^^^ byteOf w i := BitVec.extractLsb'_xor

/-- The reduction changes byte 0 only (40_gf_arithmetic.md R110). -/
theorem blockBytes_xor_reduction (v : Block) (c : Bool) : blockBytes (v ^^^ reduction c) =
    (byteOf v 0 ^^^ (if c then 0x87#8 else 0#8)) :: (List.range' 1 15).map (byteOf v) := by
  have hlow : byteOf (reduction c) 0 = if c then 0x87#8 else 0#8 := by cases c <;> rfl
  have hhigh : (List.range' 1 15).map (byteOf (v ^^^ reduction c)) = (List.range' 1 15).map (byteOf v) := by
    refine List.map_congr_left fun i hi => ?_
    have hz : byteOf (reduction c) i = 0#8 := by cases c <;> revert i <;> decide
    rw [byteOf_xor, hz, BitVec.xor_zero]
  rw [blockBytes_eq_cons, byteOf_xor, hlow, hhigh]

/-- Settles O17: the loop shifts the whole block, and both forms then reduce byte 0 by the same carry. -/
theorem byteFormOfDoubleAgrees : Obligations.ByteFormOfDoubleAgrees := by
  intro t
  simp only [gfDoubleBytes, shiftBytes_blockBytes, gfDouble, blockBytes_xor_reduction]
  rw [blockBytes_eq_cons]
  cases t.getLsbD 127 <;> simp

/-! ### The commands DOUBLE and HALVE -/

/-- A command of one step that passes its checks leaves the state that its step answers (46_system.md R218). -/
theorem exec_oneStep {i : Instr} {s t : State} (hp : s.phase = .idle) (hf : firstCause i s = none)
    (hn : stepsLeft (enterOf i (clearStatus s)) = 1) (ht : seqStep (enterOf i (clearStatus s)) = .ok t) :
    exec i s = .next t := by
  rw [exec_run hp hf, acceptInstr_enter hp hf, hn, seqRun, ht]
  rfl

/-- DOUBLE and HALVE check the tweak and nothing else (40_gf_arithmetic.md R114, R115). -/
theorem firstCause_of_tweak {i : Instr} {s : State} (hi : i ∈ [Instr.double, .halve]) (htv : s.tv = true) :
    firstCause i s = none := by
  have ht : tweakCheck s = none := if_pos htv
  simp only [List.mem_cons, List.not_mem_nil, or_false] at hi
  obtain rfl | rfl := hi <;> rwa [← checkOf_eq]

/-- A command that is entered on an idle unit, writes T and CF and completes has changed T, CF, STATUS and a latch
(46_system.md R212, R216). -/
theorem sameButLatches_complete_enterPhase {s : State} (hp : s.phase = .idle) (opc : BitVec 8) (p : Phase) (t : Block)
    (cf : Bool) : SameButLatches { s with t := t, cf := cf, done := true, err := false, ecode := 0#4 }
      (complete { enterPhase opc p (clearStatus s) with t := t, cf := cf }) :=
  ⟨s.n, s.rem, s.j, opc, s.dirl, by rw [complete, ← hp]; rfl⟩

/-- Settles O23: the one check is that of the tweak, and the one step is `doubleTweak`. -/
theorem doubleWritesTheTweakAndTheCarry : Obligations.DoubleWritesTheTweakAndTheCarry := by
  refine ⟨by decide, fun s hp => ⟨fun htv => ?_, fun htv => exec_error hp (firstCause_of_no_tweak (by simp) htv)⟩⟩
  have hf : firstCause .double s = none := firstCause_of_tweak (by simp) htv
  rw [acceptInstr_enter hp hf]
  exact ⟨rfl, rfl, _, exec_oneStep hp hf rfl rfl, sameButLatches_complete_enterPhase hp ..⟩

/-- Settles O24: the one check is that of the tweak, and the one step is `halveTweak`, which keeps CF. -/
theorem halveWritesTheTweakOnly : Obligations.HalveWritesTheTweakOnly := by
  refine ⟨by decide, fun s hp => ⟨fun htv => ?_, fun htv => exec_error hp (firstCause_of_no_tweak (by simp) htv)⟩⟩
  have hf : firstCause .halve s = none := firstCause_of_tweak (by simp) htv
  rw [acceptInstr_enter hp hf]
  exact ⟨rfl, rfl, _, exec_oneStep hp hf rfl rfl, sameButLatches_complete_enterPhase hp ..⟩

end Sys2Proof.Machine
end

section
/-! The tweak generator: the one step of TWGEN, and the command (41_tweak_generator.md R131). -/

namespace Sys2Proof.Machine

/-- What the step of P_TWGEN writes before it completes: the answer to `(K2, ENC, SIDX)` in T, TV, and the request and
its answer on the record of the ports (41_tweak_generator.md R131). -/
def twgenPost (s : State) : State :=
  let y := cipherFn s .k2 .enc s.sidx
  { s with t := y, tv := true, inflight := none, portLog := .answer y :: .request ⟨.k2, .enc, s.sidx⟩ :: s.portLog }

theorem stepTwgen_eq (s : State) : stepTwgen s = .ok (complete (twgenPost s)) := by
  rw [stepTwgen, cipherCall_eq]
  rfl

/-- Acceptance changes STATUS and latches only, so TWGEN computes with the keys and the index that stood before it
(46_system.md R212). -/
theorem twgenPost_enterPhase (opc : BitVec 8) (p : Phase) (s : State) :
    twgenPost (enterPhase opc p (clearStatus s)) = enterPhase opc p (clearStatus (twgenPost s)) := rfl

/-- Settles O25: TWGEN makes no check, and its one step is the transaction `(K2, ENC, SIDX)` on the cipher port. -/
theorem twgenEncryptsTheSectorIndexUnderKeyTwo : Obligations.TwgenEncryptsTheSectorIndexUnderKeyTwo := by
  refine ⟨by decide, fun s hp => ?_⟩
  have hf : firstCause .twgen s = none := (checkOf_eq .twgen s).symm
  have hstep : seqStep (enterOf .twgen (clearStatus s)) =
      .ok (complete (enterPhase (opcode .twgen) .pTwgen (clearStatus (twgenPost s)))) := by
    rw [← twgenPost_enterPhase]
    exact stepTwgen_eq _
  have hp' : (twgenPost s).phase = .idle := hp
  rw [acceptInstr_enter hp hf]
  exact ⟨rfl, rfl, _, exec_oneStep hp hf rfl hstep,
    sameButLatches_complete_enterPhase hp' (opcode .twgen) .pTwgen (twgenPost s).t s.cf⟩

end Sys2Proof.Machine
end

section
/-! The block transform: the one step of XEXE and XEXD and its errors (42_block_transform.md R141 to R143), and the
inverse law (R145). -/

namespace Sys2Proof.Machine

/-! ### The two commands by their direction -/

/-- The block command of a direction (42_block_transform.md R141, R142). -/
def xexCommand : Dir → Instr
  | .enc => .xexe
  | .dec => .xexd

theorem enterOf_xexCommand (d : Dir) (s : State) :
    enterOf (xexCommand d) s = enterDirected (opcode (xexCommand d)) .pXex s := by
  cases d <;> rfl

/-- Bit 0 of the opcode is the direction (30_encoding.md R93). -/
theorem opcodeDir_xexCommand (d : Dir) : opcodeDir (opcode (xexCommand d)) = d := by
  cases d <;> rfl

theorem firstCause_xexCommand (d : Dir) (s : State) : firstCause (xexCommand d) s = blockCheck s := by
  rw [← checkOf_eq]
  cases d <;> rfl

theorem firstCause_xexCommand_of_range (d : Dir) {s : State} (htv : s.tv = true)
    (hr : s.bufBytes < s.off.toNat + 16) : firstCause (xexCommand d) s = some .bufferRange := by
  simp [firstCause_xexCommand, blockCheck, htv, hr]

theorem firstCause_xexCommand_eq_none (d : Dir) {s : State} (htv : s.tv = true)
    (hr : s.off.toNat + 16 ≤ s.bufBytes) : firstCause (xexCommand d) s = none := by
  simp [firstCause_xexCommand, blockCheck, htv, hr]

/-! ### The step, and the whole command -/

theorem stepXex_eq {s : State} (hr : offAddr s + 16 ≤ s.bufBytes) :
    stepXex s = .ok (complete (xexPost s.dirl (offAddr s) s)) := by
  rw [stepXex, xexAt_eq, if_pos hr]
  rfl

/-- What a block command leaves that passes its checks: acceptance and completion write STATUS and latches only, so the
transform is that of the state before the command (46_system.md R212, R216). -/
def xexDone (d : Dir) (s : State) : State :=
  complete (enterDirected (opcode (xexCommand d)) .pXex (clearStatus (xexPost d (offAddr s) s)))

@[simp] theorem xexDone_phase (d : Dir) (s : State) : (xexDone d s).phase = .idle := rfl
@[simp] theorem xexDone_mem (d : Dir) (s : State) : (xexDone d s).mem = (xexPost d (offAddr s) s).mem := rfl
@[simp] theorem xexDone_t (d : Dir) (s : State) : (xexDone d s).t = s.t := rfl
@[simp] theorem xexDone_tv (d : Dir) (s : State) : (xexDone d s).tv = s.tv := rfl
@[simp] theorem xexDone_off (d : Dir) (s : State) : (xexDone d s).off = s.off := rfl
@[simp] theorem xexDone_bufBytes (d : Dir) (s : State) : (xexDone d s).bufBytes = s.bufBytes := rfl
@[simp] theorem xexDone_cipher (d : Dir) (s : State) : (xexDone d s).cipher = s.cipher := rfl
@[simp] theorem xexDone_k1 (d : Dir) (s : State) : (xexDone d s).k1 = s.k1 := rfl
@[simp] theorem offAddr_xexDone (d : Dir) (s : State) : offAddr (xexDone d s) = offAddr s := rfl

theorem exec_xexCommand {d : Dir} {s : State} (hp : s.phase = .idle) (htv : s.tv = true)
    (hr : s.off.toNat + 16 ≤ s.bufBytes) : exec (xexCommand d) s = .next (xexDone d s) := by
  have hstep : seqStep (enterDirected (opcode (xexCommand d)) .pXex (clearStatus s)) = .ok (xexDone d s) := by
    refine (stepXex_eq (s := enterDirected (opcode (xexCommand d)) .pXex (clearStatus s)) hr).trans ?_
    rw [enterDirected_dirl, opcodeDir_xexCommand]
    rfl
  exact exec_oneStep hp (firstCause_xexCommand_eq_none d htv hr) (by rw [enterOf_xexCommand]; rfl)
    (by rw [enterOf_xexCommand, hstep])

theorem sameButLatches_xexDone (d : Dir) {s : State} (hp : s.phase = .idle) :
    SameButLatches { xexPost d (offAddr s) s with done := true, err := false, ecode := 0#4 } (xexDone d s) :=
  ⟨s.n, s.rem, s.j, opcode (xexCommand d), opcodeDir (opcode (xexCommand d)), by rw [xexDone, complete, ← hp]; rfl⟩

/-- Settles O26: the check finds TweakInvalid before BufferRange, and the one step of a command that passes it is the
transform at OFF. -/
theorem xexCommandsTransformTheBlockAtOff : Obligations.XexCommandsTransformTheBlockAtOff := by
  refine ⟨by decide, by decide, fun p hmem s hp => ?_⟩
  obtain ⟨d, rfl⟩ : ∃ d, p = (xexCommand d, d) := by
    simp only [List.mem_cons, List.not_mem_nil, or_false] at hmem
    obtain rfl | rfl := hmem
    · exact ⟨.enc, rfl⟩
    · exact ⟨.dec, rfl⟩
  refine ⟨fun htv => ?_, fun htv hr => ?_, fun htv hr hw => ?_⟩
  · exact exec_error hp (firstCause_of_no_tweak (by cases d <;> simp [xexCommand]) htv)
  · exact exec_error hp (firstCause_xexCommand_of_range d htv hr)
  · dsimp only
    rw [acceptInstr_enter hp (firstCause_xexCommand_eq_none d htv hr), enterOf_xexCommand]
    refine ⟨rfl, opcodeDir_xexCommand d, rfl, _, _, exec_xexCommand hp htv hr, sameButLatches_xexDone d hp,
      wf_xexPost d _ hw, readBytes_xexPost_same d _ s hw, fun a ha => ?_⟩
    rw [read_xexPost d _ s a hw, if_neg ha]

/-! ### The inverse law (42_block_transform.md R145) -/

/-- The other direction. -/
def Dir.opposite : Dir → Dir
  | .enc => .dec
  | .dec => .enc

theorem CipherUnit.Correct.apply_opposite {c : CipherUnit} (hc : c.Correct) (d : Dir) (k : Key) (x : Block) :
    c.apply d.opposite k (c.apply d k x) = x := by
  cases d
  · exact (hc k x).1
  · exact (hc k x).2

/-- Each xor with T meets the other pass's xor with T, which leaves the cipher against its own inverse. -/
theorem xex_opposite {s : State} (hc : s.cipher.Correct) (d : Dir) (t x : Block) :
    xex s d.opposite t (xex s d t x) = x := by
  simp [xex, cipherFn, hc.apply_opposite]

theorem xexBlock_opposite {s : State} (hc : s.cipher.Correct) (hw : s.mem.wf = true) (d : Dir) (a : Nat) :
    xexBlock (xexPost d a s) d.opposite a = leBlock (s.mem.readBytes a 16) := by
  calc xexBlock (xexPost d a s) d.opposite a
      = xex s d.opposite s.t (leBlock ((xexPost d a s).mem.readBytes a 16)) := rfl
    _ = xex s d.opposite s.t (xexBlock s d a) := by rw [readBytes_xexPost_same d a s hw, leBlock_blockBytes]
    _ = leBlock (s.mem.readBytes a 16) := xex_opposite hc d s.t _

/-- The second transform puts the old bytes back, and canonical contents are determined by their reads. -/
theorem mem_xexPost_opposite {s : State} (hc : s.cipher.Correct) (hw : s.mem.wf = true) (d : Dir) (a : Nat) :
    (xexPost d.opposite a (xexPost d a s)).mem = s.mem := by
  have hw1 : (xexPost d a s).mem.wf = true := wf_xexPost d a hw
  refine Memory.ext_read (wf_xexPost d.opposite a hw1) hw fun x => ?_
  rw [read_xexPost _ _ _ _ hw1, xexBlock_opposite hc hw]
  by_cases hx : a ≤ x ∧ x < a + 16
  · rw [if_pos hx, byteOf_leBlock _ _ (by simp; omega) (by omega), Memory.getElem_readBytes, Nat.add_sub_cancel' hx.1]
  · rw [if_neg hx, read_xexPost _ _ _ _ hw, if_neg hx]

/-- What a transform writes depends on T, the cipher, K1 and the buffer alone (42_block_transform.md R140). -/
theorem mem_xexPost_congr {s t : State} (d : Dir) (a : Nat) (hm : t.mem = s.mem) (ht : t.t = s.t)
    (hc : t.cipher = s.cipher) (hk : t.k1 = s.k1) : (xexPost d a t).mem = (xexPost d a s).mem := by
  simp only [xexPost, xexBlock, xex, cipherFn, State.key, hm, ht, hc, hk]

theorem mem_xexDone_opposite {s : State} (hc : s.cipher.Correct) (hw : s.mem.wf = true) (d : Dir) :
    (xexDone d.opposite (xexDone d s)).mem = s.mem := by
  rw [xexDone_mem, offAddr_xexDone, mem_xexPost_congr _ _ (xexDone_mem d s) (xexDone_t d s) (xexDone_cipher d s)
    (xexDone_k1 d s), mem_xexPost_opposite hc hw]

/-- Settles O27: the second command starts idle from the same T, OFF and keys, so it is the opposite transform of what
the first one left. -/
theorem xexdUndoesXexe : Obligations.XexdUndoesXexe := by
  intro p hmem s hc
  obtain ⟨d, rfl⟩ : ∃ d : Dir, p = (xexCommand d, xexCommand d.opposite) := by
    simp only [List.mem_cons, List.not_mem_nil, or_false] at hmem
    obtain rfl | rfl := hmem
    · exact ⟨.enc, rfl⟩
    · exact ⟨.dec, rfl⟩
  refine ⟨fun t x => ⟨xex_opposite hc .enc t x, xex_opposite hc .dec t x⟩, fun hp htv hr hw => ?_⟩
  have hsecond : exec (xexCommand d.opposite) (xexDone d s) = .next (xexDone d.opposite (xexDone d s)) :=
    exec_xexCommand (xexDone_phase d s) (by simp [htv]) (by simpa using hr)
  exact ⟨_, _, exec_xexCommand hp htv hr, hsecond, mem_xexDone_opposite hc hw d, by simp, by simp [htv]⟩

end Sys2Proof.Machine
end

section
/-! The round trip of `SectorFn` (43_sector_processor.md R170): the transform as a function of a sector's blocks and
tail, and the stealing end undone by the opposite direction. -/

namespace Sys2Proof.Machine

@[simp] theorem Dir.opposite_opposite (d : Dir) : d.opposite.opposite = d := by cases d <;> rfl

/-! ### A sector as blocks and a tail (43_sector_processor.md R154) -/

/-- The bytes of the blocks `f 0 .. f (m - 1)`. -/
def blocksBytes (m : Nat) (f : Nat → Block) : List Byte := (List.range m).flatMap fun j => blockBytes (f j)

@[simp] theorem length_blocksBytes (m : Nat) (f : Nat → Block) : (blocksBytes m f).length = 16 * m :=
  length_flatMap_blocks _ m fun _ => length_blockBytes _

theorem blocksBytes_congr {m : Nat} {f g : Nat → Block} (h : ∀ j < m, f j = g j) :
    blocksBytes m f = blocksBytes m g :=
  List.flatMap_congr fun j hj => by rw [h j (List.mem_range.1 hj)]

theorem blocksBytes_succ (m : Nat) (f : Nat → Block) :
    blocksBytes (m + 1) f = blocksBytes m f ++ blockBytes (f m) := by
  simp [blocksBytes, List.range_succ]

/-- The first `m` blocks of a sequence are the blocks `blockAt` finds in it. -/
theorem blocksBytes_blockAt (bs : List Byte) (m : Nat) (h : 16 * m ≤ bs.length) :
    blocksBytes m (blockAt bs) = bs.take (16 * m) := by
  induction m with
  | zero => rfl
  | succ m ih =>
    have hlen : ((bs.drop (16 * m)).take 16).length = 16 := by simp; omega
    rw [blocksBytes_succ, ih (by omega), blockAt, blockBytes_leBlock _ hlen, Nat.mul_succ, List.take_add]

/-- Block `m` of a sequence stands after `m` blocks. -/
theorem blockAt_blocksBytes_append (m : Nat) (f : Nat → Block) (v : Block) (rest : List Byte) :
    blockAt (blocksBytes m f ++ (blockBytes v ++ rest)) m = v := by
  rw [blockAt, List.drop_left' (length_blocksBytes _ _), List.take_left' (length_blockBytes _), leBlock_blockBytes]

theorem blockAt_blocksBytes (f : Nat → Block) (rest : List Byte) {m j : Nat} (hj : j < m) :
    blockAt (blocksBytes m f ++ rest) j = f j := by
  induction m generalizing rest with
  | zero => omega
  | succ m ih =>
    rw [blocksBytes_succ, List.append_assoc]
    obtain rfl | hj' : j = m ∨ j < m := by omega
    · exact blockAt_blocksBytes_append _ _ _ _
    · exact ih _ hj'

/-- A sequence of at least 16 bytes is full blocks, a last full block and a tail of fewer than 16 bytes. -/
theorem exists_blocks_last_tail (bs : List Byte) (h : 16 ≤ bs.length) :
    ∃ m f last tail, bs = blocksBytes m f ++ (blockBytes last ++ tail) ∧ tail.length < 16 := by
  refine ⟨bs.length / 16 - 1, blockAt bs, blockAt bs (bs.length / 16 - 1), bs.drop (16 * (bs.length / 16)), ?_, ?_⟩
  · have hN : bs.length / 16 - 1 + 1 = bs.length / 16 := by omega
    rw [← List.append_assoc, ← blocksBytes_succ, hN, blocksBytes_blockAt _ _ (by omega), List.take_append_drop]
  · simp; omega

/-- `SectorFn` of blocks, a last full block and a tail. -/
theorem sectorFn_blocks (E : Dir → Block → Block → Block) (d : Dir) (t0 : Block) (m : Nat) (f : Nat → Block)
    (last : Block) {tail : List Byte} (ht : tail.length < 16) :
    sectorFn E d t0 (blocksBytes m f ++ (blockBytes last ++ tail)) =
      blocksBytes m (fun j => E d (tweakAt t0 j) (f j)) ++
        sectorEnd E d (tweakAt t0 m) (tweakAt t0 (m + 1)) last tail := by
  have hN : (blocksBytes m f ++ (blockBytes last ++ tail)).length / 16 = m + 1 := by simp; omega
  have htail : (blocksBytes m f ++ (blockBytes last ++ tail)).drop (16 * (m + 1)) = tail := by
    rw [← List.append_assoc, List.drop_left' (by simp; omega)]
  simp only [sectorFn, hN, Nat.add_sub_cancel, blockAt_blocksBytes_append, htail]
  congr 1
  exact blocksBytes_congr fun j hj => by rw [blockAt_blocksBytes f _ hj]

/-! ### The stealing end (43_sector_processor.md R154, R170) -/

/-- The tweak of the first of the two passes over the last block when there is a tail: `T_(N-1)` to encrypt, `T_N` to
decrypt. The second pass uses the other one. -/
def firstTweak (tPrev tNext : Block) : Dir → Block
  | .enc => tPrev
  | .dec => tNext

/-- What the first pass leaves of the last full block. -/
def firstPass (E : Dir → Block → Block → Block) (d : Dir) (tPrev tNext last : Block) : List Byte :=
  blockBytes (E d (firstTweak tPrev tNext d) last)

@[simp] theorem length_firstPass (E : Dir → Block → Block → Block) (d : Dir) (tPrev tNext last : Block) :
    (firstPass E d tPrev tNext last).length = 16 := length_blockBytes _

/-- Both directions steal alike: the tail takes the place of the first bytes the first pass left, the second pass
follows, and those bytes become the tail. -/
theorem sectorEnd_of_tail (E : Dir → Block → Block → Block) (d : Dir) (tPrev tNext last : Block) {tail : List Byte}
    (ht : tail ≠ []) : sectorEnd E d tPrev tNext last tail =
      blockBytes (E d (firstTweak tPrev tNext d.opposite)
        (leBlock (tail ++ (firstPass E d tPrev tNext last).drop tail.length))) ++
      (firstPass E d tPrev tNext last).take tail.length := by
  cases d <;> simp only [sectorEnd, if_neg ht] <;> rfl

/-- The end of a sector is again a last full block and a tail as long as before, and the opposite direction turns them
back: its first pass undoes the second one and finds the old tail, its second pass undoes the first one. -/
theorem sectorEnd_opposite {E : Dir → Block → Block → Block} {d : Dir}
    (hE : ∀ t x, E d.opposite t (E d t x) = x) (tPrev tNext last : Block) {tail : List Byte}
    (ht : tail.length < 16) :
    ∃ last' tail', tail'.length = tail.length ∧
      sectorEnd E d tPrev tNext last tail = blockBytes last' ++ tail' ∧
      sectorEnd E d.opposite tPrev tNext last' tail' = blockBytes last ++ tail := by
  by_cases h0 : tail = []
  · subst h0
    exact ⟨E d tPrev last, [], rfl, by simp [sectorEnd], by simp [sectorEnd, hE]⟩
  · have hpos : 0 < tail.length := List.length_pos_iff.2 h0
    have hstolen : (tail ++ (firstPass E d tPrev tNext last).drop tail.length).length = 16 := by simp; omega
    have htake : ((firstPass E d tPrev tNext last).take tail.length).length = tail.length := by simp; omega
    refine ⟨_, _, htake, sectorEnd_of_tail E d tPrev tNext last h0, ?_⟩
    have hback : firstPass E d.opposite tPrev tNext (E d (firstTweak tPrev tNext d.opposite)
        (leBlock (tail ++ (firstPass E d tPrev tNext last).drop tail.length))) =
          tail ++ (firstPass E d tPrev tNext last).drop tail.length := by
      rw [firstPass, hE, blockBytes_leBlock _ hstolen]
    rw [sectorEnd_of_tail _ _ _ _ _ (List.ne_nil_of_length_pos (by omega)), hback, htake, List.take_left,
      List.drop_left, List.take_append_drop, Dir.opposite_opposite, firstPass, leBlock_blockBytes, hE]

/-- R170 for any transform whose two directions are inverse to each other. -/
theorem sectorFn_opposite {E : Dir → Block → Block → Block} {d : Dir} (hE : ∀ t x, E d.opposite t (E d t x) = x)
    (t0 : Block) {bs : List Byte} (h : 16 ≤ bs.length) :
    sectorFn E d.opposite t0 (sectorFn E d t0 bs) = bs := by
  obtain ⟨m, f, last, tail, rfl, ht⟩ := exists_blocks_last_tail bs h
  obtain ⟨last', tail', hlen, hthere, hback⟩ :=
    sectorEnd_opposite hE (tweakAt t0 m) (tweakAt t0 (m + 1)) last ht
  rw [sectorFn_blocks E d t0 m f last ht, hthere, sectorFn_blocks _ _ _ _ _ _ (by omega), hback]
  simp only [hE]

/-- Settles O31: the two transforms of a correct cipher are inverse to each other, so every full block and the stealing
end turn back. -/
theorem sectorFnRoundTrip : Obligations.SectorFnRoundTrip := fun _ t0 _ hc h =>
  ⟨sectorFn_opposite (d := .enc) (xex_opposite hc .enc) t0 h, sectorFn_opposite (d := .dec) (xex_opposite hc .dec) t0 h⟩

end Sys2Proof.Machine
end

section
/-! The sector commands (43_sector_processor.md R154 to R160): from acceptance to TailEntry, from there to the end, and
the region they leave. -/

namespace Sys2Proof.Machine

/-! ### Bytes of the buffer -/

theorem Memory.readBytes_append (m : Memory) (a k l : Nat) :
    m.readBytes a (k + l) = m.readBytes a k ++ m.readBytes (a + k) l := by
  rw [← List.take_append_drop k (m.readBytes a (k + l)), take_readBytes _ _ _ _ (Nat.le_add_right k l), drop_readBytes,
    Nat.add_sub_cancel_left]

theorem getElem?_blocksBytes (f : Nat → Block) {m i : Nat} (hi : i < 16 * m) :
    (blocksBytes m f)[i]? = some (byteOf (f (i / 16)) (i % 16)) := by
  rw [blocksBytes, getElem_flatMap_blocks _ _ _ (fun _ => length_blockBytes _) hi,
    List.getElem?_eq_getElem (by simp; omega), getElem_blockBytes]

/-- The bytes at `a` are those of the blocks `f` when each byte is. -/
theorem readBytes_eq_blocksBytes {m : Memory} {a n : Nat} {f : Nat → Block}
    (h : ∀ i < 16 * n, m.read (a + i) = byteOf (f (i / 16)) (i % 16)) :
    m.readBytes a (16 * n) = blocksBytes n f := by
  refine List.ext_getElem (by simp) fun i h1 h2 => ?_
  have hi : i < 16 * n := by simpa using h1
  rw [Memory.getElem_readBytes, h i hi]
  exact ((List.getElem_eq_iff h2).2 (getElem?_blocksBytes f hi)).symm

theorem blocksBytes_readBytes (m : Memory) (a n : Nat) :
    blocksBytes n (fun j => leBlock (m.readBytes (a + 16 * j) 16)) = m.readBytes a (16 * n) := by
  induction n with
  | zero => rfl
  | succ n ih =>
    rw [blocksBytes_succ, ih, blockBytes_leBlock _ (Memory.length_readBytes _ _ _), Nat.mul_succ,
      Memory.readBytes_append]

/-- `SectorFn` of the buffer's bytes: `n` blocks, a last full block and a tail. -/
theorem sectorFn_readBytes (E : Dir → Block → Block → Block) (d : Dir) (t0 : Block) (m : Memory) (a n : Nat) {r : Nat}
    (hr : r < 16) : sectorFn E d t0 (m.readBytes a (16 * n + (16 + r))) =
      blocksBytes n (fun j => E d (tweakAt t0 j) (leBlock (m.readBytes (a + 16 * j) 16))) ++
        sectorEnd E d (tweakAt t0 n) (tweakAt t0 (n + 1)) (leBlock (m.readBytes (a + 16 * n) 16))
          (m.readBytes (a + 16 * n + 16) r) := by
  rw [← sectorFn_blocks E d t0 n _ _ (by simpa using hr), blocksBytes_readBytes,
    blockBytes_leBlock _ (Memory.length_readBytes _ _ _), ← Memory.readBytes_append, ← Memory.readBytes_append]

/-! ### From acceptance to TailEntry -/

/-- Block `j` of the region as the body leaves it: the transform of what stood there, with `T_j`
(43_sector_processor.md R154). -/
def bodyBlock (s : State) (j : Nat) : Block :=
  xex s s.dirl (tweakAt s.t j) (leBlock (s.mem.readBytes (offAddr s + 16 * j) 16))

/-- `t` is where the command accepted in `s` stands at TailEntry: all full blocks but the last one are transformed,
and T is `T_(N-1)` (43_sector_processor.md R156, R157). -/
structure AtTail (s t : State) : Prop where
  run : ∀ k, sectorRun (k + 2 * (s.n.toNat - 1)) s = sectorRun k t
  frame : SameFrame s t
  phase : t.phase = tailEntry t
  tweak : t.t = tweakAt s.t (s.n.toNat - 1)
  memWf : t.mem.wf = true
  body : t.mem.readBytes (offAddr s) (16 * (s.n.toNat - 1)) = blocksBytes (s.n.toNat - 1) (bodyBlock s)
  outside : ∀ x, ¬(offAddr s ≤ x ∧ x < offAddr s + 16 * (s.n.toNat - 1)) → t.mem.read x = s.mem.read x

theorem SameFrame.refl (s : State) : SameFrame s s := by constructor <;> rfl

theorem tailEntry_congr {s t : State} (h : SameFrame s t) : tailEntry t = tailEntry s := by
  rw [tailEntry, tailEntry, h.rem, h.dirl]

theorem lastAddr_congr {s t : State} (h : SameFrame s t) : lastAddr t = lastAddr s := by
  rw [lastAddr, lastAddr, h.off, h.n]

/-- With one full block there is no body: acceptance goes to TailEntry. -/
theorem atTail_oneBlock {s : State} (hn : s.n.toNat = 1) (hp : s.phase = tailEntry s) (hw : s.mem.wf = true) :
    AtTail s s where
  run k := by rw [hn]; rfl
  frame := SameFrame.refl s
  phase := hp
  tweak := by rw [hn]; rfl
  memWf := hw
  body := by rw [hn]; rfl
  outside _ _ := rfl

/-- With two full blocks or more the body loop leads there. -/
theorem atTail_bodyLoop {s : State} (hn : 2 ≤ s.n.toNat) (hj : s.j = 0#28) (hp : s.phase = .sBodyX)
    (hr : s.off.toNat + 16 * s.n.toNat ≤ s.bufBytes) (hw : s.mem.wf = true) : ∃ t, AtTail s t := by
  have hj0 : s.j.toNat = 0 := by rw [hj]; rfl
  obtain ⟨t, hrun, hframe, hphase, htweak, hwf, -, -, hread⟩ :=
    body_loop (s.n.toNat - 1) s (by omega) (by omega) hp hr hw
  simp only [hj0, Nat.mul_zero, Nat.add_zero, Nat.sub_zero] at hread
  refine ⟨t, hrun, hframe, hphase.trans (tailEntry_congr hframe).symm, htweak, hwf,
    readBytes_eq_blocksBytes fun i hi => ?_, fun x hx => ?_⟩
  · have hin : s.off.toNat ≤ offAddr s + i ∧ offAddr s + i < s.off.toNat + 16 * (s.n.toNat - 1) := by
      unfold offAddr; omega
    rw [hread, if_pos hin, offAddr, Nat.add_sub_cancel_left]
    rfl
  · exact (hread x).trans (if_neg hx)

theorem exists_atTail {s : State} (hl : SectorLatches s) (hj : s.j = 0#28)
    (hp : s.phase = if 2 ≤ s.n.toNat then .sBodyX else tailEntry s) (hw : s.mem.wf = true) : ∃ t, AtTail s t := by
  have hn := hl.n
  have hlen := hl.len
  have hregion := hl.region
  by_cases h2 : 2 ≤ s.n.toNat
  · exact atTail_bodyLoop h2 hj (by rw [hp, if_pos h2]) (by omega) hw
  · exact ⟨s, atTail_oneBlock (by omega) (by rw [hp, if_neg h2]) hw⟩

/-! ### From TailEntry to the end -/

/-- `u` holds `SectorFn` of the region of `s`, and outside the region the bytes of `s` (43_sector_processor.md R154). -/
structure RegionDone (d : Dir) (s u : State) : Prop where
  region : u.mem.readBytes (offAddr s) s.len.toNat =
    sectorFn (xex s) d s.t (s.mem.readBytes (offAddr s) s.len.toNat)
  outside : ∀ x, ¬(offAddr s ≤ x ∧ x < offAddr s + s.len.toNat) → u.mem.read x = s.mem.read x

/-- A region is the body, the last full block and the tail (43_sector_processor.md R151). -/
theorem SectorLatches.len_eq {s : State} (h : SectorLatches s) :
    s.len.toNat = 16 * (s.n.toNat - 1) + (16 + s.rem.toNat) := by
  have hlen := h.len
  rw [h.n, h.rem]
  omega

/-- The body leaves the blocks before the last one, the end turns the rest into `sectorEnd`, and each leaves the bytes
of the other alone. -/
theorem AtTail.regionDone {s t u : State} (h : AtTail s t) (hl : SectorLatches s)
    (hout : ∀ x, (x < lastAddr t ∨ lastAddr t + 16 + t.rem.toNat ≤ x) → u.mem.read x = t.mem.read x)
    (hend : u.mem.readBytes (lastAddr t) (16 + t.rem.toNat) =
      sectorEnd (xex t) t.dirl t.t (gfDouble t.t).1 (leBlock (t.mem.readBytes (lastAddr t) 16))
        (t.mem.readBytes (lastAddr t + 16) t.rem.toNat)) : RegionDone s.dirl s u := by
  have hlen := hl.len_eq
  have hrem : t.rem = s.rem := h.frame.rem
  have hlast : lastAddr t = offAddr s + 16 * (s.n.toNat - 1) := lastAddr_congr h.frame
  rw [hlast, hrem] at hout hend
  have hbody : u.mem.readBytes (offAddr s) (16 * (s.n.toNat - 1)) = blocksBytes (s.n.toNat - 1) (bodyBlock s) := by
    rw [← h.body]
    exact readBytes_congr fun x _ hx => hout x (by omega)
  have hkeep : ∀ a l, offAddr s + 16 * (s.n.toNat - 1) ≤ a → t.mem.readBytes a l = s.mem.readBytes a l :=
    fun a l ha => readBytes_congr fun x hx _ => h.outside x (by omega)
  rw [hkeep _ _ (by omega), hkeep _ _ (by omega), xex_same h.frame, h.frame.dirl, h.tweak] at hend
  refine ⟨?_, fun x hx => ?_⟩
  · rw [hlen, Memory.readBytes_append, hbody, hend, sectorFn_readBytes _ _ _ _ _ _ s.rem.isLt]
    rfl
  · rw [hout x (by omega), h.outside x (by omega)]

theorem AtTail.stepsLeft_eq {s t : State} (h : AtTail s t) (hj : s.j = 0#28) (hn : 1 ≤ s.n.toNat)
    (hp : s.phase = if 2 ≤ s.n.toNat then .sBodyX else tailEntry s) :
    stepsLeft s = tailSteps t + 2 * (s.n.toNat - 1) := by
  have ht : tailSteps t = tailSteps s := by rw [tailSteps, tailSteps, h.frame.rem, h.frame.dirl]
  have hj0 : s.j.toNat = 0 := by rw [hj]; rfl
  by_cases h2 : 2 ≤ s.n.toNat
  · rw [if_pos h2] at hp
    simp only [stepsLeft, hp, ht, hj0]
    omega
  · rw [if_neg h2] at hp
    have hn1 : s.n.toNat - 1 = 0 := by omega
    rw [ht, hn1, stepsLeft, hp, tailEntry, tailSteps]
    by_cases h0 : s.rem = 0#4
    · simp [h0]
    · cases hd : s.dirl <;> simp [h0]

/-- The whole run of a sector command from its acceptance (43_sector_processor.md R154). -/
theorem sectorRun_regionDone {s : State} (hl : SectorLatches s) (hj : s.j = 0#28)
    (hp : s.phase = if 2 ≤ s.n.toNat then .sBodyX else tailEntry s) (hw : s.mem.wf = true) :
    ∃ u, sectorRun (stepsLeft s) s = .ok u ∧ RegionDone s.dirl s u ∧ u.mem.wf = true ∧ u.tv = false ∧
      u.inflight = none := by
  obtain ⟨t, ht⟩ := exists_atTail hl hj hp hw
  have hn : 1 ≤ s.n.toNat := by rw [hl.n]; have := hl.len; omega
  have hfits : lastAddr t + 16 + t.rem.toNat ≤ t.bufBytes := by
    have hregion := hl.region
    rw [lastAddr_congr ht.frame, ht.frame.rem, ht.frame.bufBytes, lastAddr]
    rw [hl.len_eq] at hregion
    omega
  obtain ⟨u, hu, hframe, huw, hout, hend⟩ := tail_run halveUndoesDouble t ht.phase hfits ht.memWf
  refine ⟨u, ?_, ht.regionDone hl hout hend, huw, hframe.tv, hframe.inflight⟩
  rw [ht.stepsLeft_eq hj hn hp, ht.run, hu]

/-! ### The two commands -/

theorem enterOf_sectorCommand (d : Dir) (s : State) :
    enterOf (sectorCommand d) s = enterSector (opcode (sectorCommand d)) s := by
  cases d <;> rfl

theorem opcodeDir_sectorCommand (d : Dir) : opcodeDir (opcode (sectorCommand d)) = d := by cases d <;> rfl

theorem opcode_sectorCommand (d : Dir) :
    opcode (sectorCommand d) = opcode .secte ∨ opcode (sectorCommand d) = opcode .sectd := by
  cases d
  · exact .inl rfl
  · exact .inr rfl

theorem firstCause_sectorCommand (d : Dir) (s : State) : firstCause (sectorCommand d) s = sectorCheck s := by
  rw [← checkOf_eq]
  cases d <;> rfl

theorem firstCause_sectorCommand_eq_none (d : Dir) {s : State} (hlen : 16 ≤ s.len.toNat) (htv : s.tv = true)
    (hr : s.off.toNat + s.len.toNat ≤ s.bufBytes) : firstCause (sectorCommand d) s = none := by
  simp [firstCause_sectorCommand, sectorCheck, htv, Nat.not_lt.2 hr, Nat.not_lt.2 hlen]

/-- A sector command that passes its checks completes and leaves `SectorFn` of its region. -/
theorem exec_sectorCommand {d : Dir} {s : State} (hp : s.phase = .idle) (hlen : 16 ≤ s.len.toNat) (htv : s.tv = true)
    (hr : s.off.toNat + s.len.toNat ≤ s.bufBytes) (hw : s.mem.wf = true) :
    ∃ u, exec (sectorCommand d) s = .next u ∧ RegionDone d s u ∧ u.mem.wf = true ∧ u.tv = false ∧ u.phase = .idle ∧
      u.done = true ∧ u.err = false ∧ u.ecode = 0#4 ∧ u.inflight = none ∧ hostSideSame s u := by
  have hf := firstCause_sectorCommand_eq_none d hlen htv hr
  have ha : acceptInstr (sectorCommand d) s = enterSector (opcode (sectorCommand d)) (clearStatus s) := by
    rw [acceptInstr_enter hp hf, enterOf_sectorCommand]
  obtain ⟨hlatches, hbusy⟩ := latches_acceptInstr hp hf
  rw [ha] at hlatches hbusy
  obtain ⟨hsector, -⟩ := (latchesOk_sector (busy_enterSector _ _)).1 hlatches
  obtain ⟨u, hrun, hdone, hwf, htv', hinflight⟩ := sectorRun_regionDone hsector rfl rfl hw
  rw [sectorRun_eq _ _ hlatches (opcode_sectorCommand d)] at hrun
  obtain ⟨u', hrun', hphase, hdone', hkept⟩ := seqRun_stepsLeft _ _ hlatches hbusy rfl
  obtain rfl : u' = u := Except.ok.inj (hrun'.symm.trans hrun)
  have hdirl : (enterSector (opcode (sectorCommand d)) (clearStatus s)).dirl = d := opcodeDir_sectorCommand d
  rw [hdirl] at hdone
  refine ⟨u', ?_, ⟨hdone.region, hdone.outside⟩, hwf, htv', hphase, hdone', hkept.err, hkept.ecode, hinflight,
    hkept.host⟩
  rw [exec_run hp hf, ha, hrun]
  rfl

/-- Settles O29: the body loop transforms the blocks before the last one, and the end leaves `sectorEnd` of the rest,
where the halving restores the tweak on the way that steals to decrypt (R160). -/
theorem sectorCommandsComputeSectorFn : Obligations.SectorCommandsComputeSectorFn := by
  intro p hmem s hp hlen htv hr hw
  obtain ⟨d, rfl⟩ : ∃ d, p = (sectorCommand d, d) := by
    simp only [List.mem_cons, List.not_mem_nil, or_false] at hmem
    obtain rfl | rfl := hmem
    · exact ⟨.enc, rfl⟩
    · exact ⟨.dec, rfl⟩
  obtain ⟨u, hu, hdone, hrest⟩ := exec_sectorCommand (d := d) hp hlen htv hr hw
  exact ⟨u, hu, hdone.region, hdone.outside, hrest⟩

end Sys2Proof.Machine
end

section
/-! Ciphertext stealing: the word of CTSSWAP, its one error and its one step (44_ciphertext_stealing.md R180, R181). -/

namespace Sys2Proof.Machine

/-- `rem` stands in bits 11:8 and the opcode 0x06 below it (30_encoding.md R91, R92, R94). -/
theorem toNat_encode_ctsswap : ∀ rem : BitVec 4, (encode (.ctsswap rem)).toNat = rem.toNat * 256 + 6 := by
  decide

theorem firstCause_ctsswap_of_range {rem : BitVec 4} {s : State} (h0 : rem ≠ 0#4)
    (hr : s.bufBytes < s.off.toNat + 16 + rem.toNat) : firstCause (.ctsswap rem) s = some .bufferRange := by
  rw [← checkOf_eq, checkOf, swapCheck, if_neg h0, if_pos hr]

theorem firstCause_ctsswap_eq_none {rem : BitVec 4} {s : State} (h0 : rem ≠ 0#4)
    (hr : s.off.toNat + 16 + rem.toNat ≤ s.bufBytes) : firstCause (.ctsswap rem) s = none := by
  rw [← checkOf_eq, checkOf, swapCheck, if_neg h0, if_neg (Nat.not_lt.2 hr)]

theorem stepSwap_eq {s : State} (hr : offAddr s + 16 + s.rem.toNat ≤ s.bufBytes) :
    stepSwap s = .ok (complete (swapPost (offAddr s) s.rem.toNat s)) := by
  rw [stepSwap, swapAt_eq, if_pos hr]
  rfl

/-- What CTSSWAP leaves when it passes its checks: acceptance and completion write STATUS and latches only, so the swap
is that of the state before the command (46_system.md R212, R216). -/
def swapDone (rem : BitVec 4) (s : State) : State :=
  complete (enterSwap rem (clearStatus (swapPost (offAddr s) rem.toNat s)))

theorem exec_ctsswap {rem : BitVec 4} {s : State} (hp : s.phase = .idle) (h0 : rem ≠ 0#4)
    (hr : s.off.toNat + 16 + rem.toNat ≤ s.bufBytes) : exec (.ctsswap rem) s = .next (swapDone rem s) :=
  exec_oneStep hp (firstCause_ctsswap_eq_none h0 hr) rfl (stepSwap_eq (s := enterSwap rem (clearStatus s)) hr)

theorem sameButLatches_swapDone (rem : BitVec 4) {s : State} (hp : s.phase = .idle) :
    SameButLatches { swapPost (offAddr s) rem.toNat s with done := true, err := false, ecode := 0#4 }
      (swapDone rem s) :=
  ⟨s.n, rem, s.j, opcode (.ctsswap rem), s.dirl, by rw [swapDone, complete, ← hp]; rfl⟩

/-- Settles O28: the one error of a legal `rem` is BufferRange, and the one step of a command that passes its checks is
the swap at OFF, whose two ranges do not meet because `rem` is below 16. -/
theorem ctsswapExchangesHeadAndTail : Obligations.CtsswapExchangesHeadAndTail := by
  refine fun rem h0 => ⟨toNat_encode_ctsswap rem, fun s hp => ⟨fun hr => ?_, fun hr hw => ?_⟩⟩
  · exact exec_error hp (firstCause_ctsswap_of_range h0 hr)
  · dsimp only
    rw [acceptInstr_enter hp (firstCause_ctsswap_eq_none h0 hr)]
    exact ⟨rfl, rfl, _, _, exec_ctsswap hp h0 hr, sameButLatches_swapDone rem hp, wf_swapPost _ _ hw,
      fun a => read_swapPost _ _ s a hw rem.isLt.le⟩

end Sys2Proof.Machine
end

section
/-! The register port and NOP: a host write index by index (46_system.md R210), and the one command that writes STATUS
and nothing else (R214). -/

namespace Sys2Proof.Machine

/-! ### A host write, index by index -/

/-- A write while BUSY = 1 is lost (10_state.md R39). -/
theorem hostWrite_of_busy {s : State} (hb : s.busy = true) (idx : BitVec 4) (wdata : Block) :
    hostWrite idx wdata s = s := if_pos hb

section Idle

variable {s : State} (hb : s.busy = false) (wdata : Block)
include hb

theorem hostWrite_off : hostWrite 2#4 wdata s = { s with off := wdata.extractLsb' 0 32 } := by simp [hostWrite, hb]

theorem hostWrite_len : hostWrite 3#4 wdata s = { s with len := wdata.extractLsb' 0 32 } := by simp [hostWrite, hb]

theorem hostWrite_t : hostWrite 4#4 wdata s = { s with t := wdata, tv := true } := by simp [hostWrite, hb]

theorem hostWrite_sidx : hostWrite 5#4 wdata s = { s with sidx := wdata } := by simp [hostWrite, hb]

theorem hostWrite_cf : hostWrite 6#4 wdata s = { s with cf := wdata.getLsbD 0 } := by simp [hostWrite, hb]

/-- STATUS is read only, and no register stands at the indices from 7 on (10_state.md R36, 46_system.md R210). -/
theorem hostWrite_readOnly {idx : BitVec 4} (hi : idx = 1#4 ∨ 7#4 ≤ idx) : hostWrite idx wdata s = s := by
  have hn : idx.toNat = 1 ∨ 7 ≤ idx.toNat := hi.imp (congrArg BitVec.toNat) BitVec.le_def.1
  rw [hostWrite, if_neg (by simp [hb])]
  split
  case h_7 => rfl
  all_goals omega

end Idle

/-- Settles O11: while BUSY = 1 the write is lost; on an idle unit each index has its own equation. -/
theorem hostWriteSetsTheNamedRegister : Obligations.HostWriteSetsTheNamedRegister := fun s d =>
  ⟨fun hb idx => hostWrite_of_busy hb idx d, fun hb =>
    ⟨hostWrite_cmd ((busy_eq_false_iff s).1 hb) d, hostWrite_off hb d, hostWrite_len hb d, hostWrite_t hb d,
      hostWrite_sidx hb d, hostWrite_cf hb d, fun _ hi => hostWrite_readOnly hb d hi⟩⟩

/-! ### NOP -/

/-- Settles O22: NOP makes no check, and its one step completes with T and CF as they were. -/
theorem nopWritesOnlyStatus : Obligations.NopWritesOnlyStatus := by
  refine ⟨by decide, fun s hp => ?_⟩
  have hf : firstCause .nop s = none := (checkOf_eq .nop s).symm
  rw [acceptInstr_enter hp hf]
  exact ⟨rfl, rfl, _, exec_oneStep hp hf rfl rfl, sameButLatches_complete_enterPhase hp (opcode .nop) .pNop s.t s.cf⟩

end Sys2Proof.Machine
end

section
/-! Errors: the checks of a short sector and of a range that leaves the buffer (60_exceptions.md R231, R234). -/

namespace Sys2Proof.Machine

theorem exists_eq_xexCommand {i : Instr} (hi : i ∈ [Instr.xexe, .xexd]) : ∃ d, i = xexCommand d := by
  simp only [List.mem_cons, List.not_mem_nil, or_false] at hi
  obtain rfl | rfl := hi
  · exact ⟨.enc, rfl⟩
  · exact ⟨.dec, rfl⟩

theorem exists_eq_sectorCommand {i : Instr} (hi : i ∈ [Instr.secte, .sectd]) : ∃ d, i = sectorCommand d := by
  simp only [List.mem_cons, List.not_mem_nil, or_false] at hi
  obtain rfl | rfl := hi
  · exact ⟨.enc, rfl⟩
  · exact ⟨.dec, rfl⟩

/-- BufferRange is the last check of SECTE and SECTD (43_sector_processor.md R153). -/
theorem firstCause_sectorCommand_of_range (d : Dir) {s : State} (hlen : 16 ≤ s.len.toNat) (htv : s.tv = true)
    (hr : s.bufBytes < s.off.toNat + s.len.toNat) : firstCause (sectorCommand d) s = some .bufferRange := by
  simp [firstCause_sectorCommand, sectorCheck, Nat.not_lt.2 hlen, htv, hr]

/-- Settles O36: SectorTooShort is the first check of both commands, so the other causes do not matter. -/
theorem shortSectorsAreRejectedInBothDirections : Obligations.ShortSectorsAreRejectedInBothDirections :=
  fun _ hi _ hp hl => exec_error hp (firstCause_of_short_sector hi hl)

/-- Settles O37: with the checks before it passed, each command finds its range on natural numbers. -/
theorem rangeErrorsUseUnboundedSums : Obligations.RangeErrorsUseUnboundedSums := by
  refine ⟨fun i hi s hp htv hr => ?_, fun rem s hp h0 hr => ?_, fun i hi s hp htv hlen hr => ?_⟩
  · obtain ⟨d, rfl⟩ := exists_eq_xexCommand hi
    exact exec_error hp (firstCause_xexCommand_of_range d htv hr)
  · exact exec_error hp (firstCause_ctsswap_of_range h0 hr)
  · obtain ⟨d, rfl⟩ := exists_eq_sectorCommand hi
    exact exec_error hp (firstCause_sectorCommand_of_range d hlen htv hr)

end Sys2Proof.Machine
end

section
/-! Encoding: the fields of a command word, and decoding as the inverse of encoding (30_encoding.md R91 to R97). -/

namespace Sys2Proof

/-- A command word is its three fields, the opcode lowest (30_encoding.md R91). -/
theorem word_eq_fields (w : Word) :
    w.extractLsb' 12 20 ++ w.extractLsb' 8 4 ++ w.extractLsb' 0 8 = w := by
  rw [BitVec.extractLsb'_append_extractLsb'_eq_extractLsb' (by rfl),
    BitVec.extractLsb'_append_extractLsb'_eq_extractLsb' (by rfl)]
  exact BitVec.extractLsb'_eq_self

/-- The commands `c0Command` lists are well formed, have no immediate and are not CTSSWAP (30_encoding.md R92, R94). -/
theorem of_c0Command {opc : BitVec 8} {i : Instr} (h : c0Command opc = some i) :
    i.wf = true ∧ immediate i = 0#4 ∧ opcode i = opc ∧ ∀ rem, i ≠ .ctsswap rem := by
  unfold c0Command at h
  split_ifs at h <;> cases h <;> subst opc <;> exact ⟨rfl, rfl, rfl, nofun⟩

/-- A legal word is that of a well-formed command, field by field. -/
theorem fields_of_decode {w : Word} {i : Instr} (h : decode w = .ok i) :
    i.wf = true ∧ w.extractLsb' 12 20 = 0#20 ∧ w.extractLsb' 8 4 = immediate i ∧ w.extractLsb' 0 8 = opcode i := by
  have hz : w.extractLsb' 12 20 = 0#20 := by
    by_contra hz
    rw [decode_of_highBits hz] at h
    cases h
  by_cases hs : w.extractLsb' 0 8 = 0x06#8
  · rw [decode_of_swapOpcode hz hs] at h
    split at h
    next => cases h
    next hr =>
      cases h
      exact ⟨bne_iff_ne.2 hr, hz, rfl, hs⟩
  · cases hc : c0Command (w.extractLsb' 0 8) with
    | none =>
      rw [decode_of_freeOpcode hz (((c0Command_eq_none_iff _).1 hc).resolve_left hs)] at h
      cases h
    | some k =>
      rw [decode_of_c0Command hz hc] at h
      split at h
      next hr =>
        cases h
        obtain ⟨hwf, himm, hopc, -⟩ := of_c0Command hc
        exact ⟨hwf, hz, hr.trans himm.symm, hopc.symm⟩
      next => cases h

/-- Settles O2: the eight commands of format C0 have one word each, and CTSSWAP one for each of the fifteen legal values
of its field. -/
theorem decodeOfEncodeIsTheCommand : Obligations.DecodeOfEncodeIsTheCommand := by
  intro i hi
  cases i with
  | ctsswap rem => revert rem; decide
  | nop | double | halve | twgen | xexe | xexd | secte | sectd => decide

/-- Settles O3: the fields of a legal word are those of the command it decodes to, and a word is its fields. -/
theorem encodeOfDecodeIsTheWord : Obligations.EncodeOfDecodeIsTheWord := by
  intro w i h
  obtain ⟨hwf, hz, himm, hopc⟩ := fields_of_decode h
  refine ⟨hwf, ?_⟩
  rw [encode, ← hz, ← himm, ← hopc, word_eq_fields]

/-- A word decodes to a well-formed command exactly when it is its word. -/
theorem decode_eq_ok_iff {w : Word} {i : Instr} : decode w = .ok i ↔ i.wf = true ∧ w = encode i := by
  refine ⟨fun h => ?_, fun ⟨hwf, hw⟩ => hw ▸ decodeOfEncodeIsTheCommand i hwf⟩
  obtain ⟨hwf, hw⟩ := encodeOfDecodeIsTheWord w i h
  exact ⟨hwf, hw.symm⟩

/-! ### The legal words (30_encoding.md R97) -/

/-- The commands of format C0 (30_encoding.md R94). -/
def c0Commands : List Instr := [.nop, .double, .halve, .twgen, .xexe, .xexd, .secte, .sectd]

/-- CTSSWAP with each legal value of its field (30_encoding.md R98). -/
def swapCommands : List Instr := (List.range 15).map fun k => .ctsswap (BitVec.ofNat 4 (k + 1))

theorem mem_c0Commands (i : Instr) : i ∈ c0Commands ↔ ∀ rem, i ≠ .ctsswap rem := by
  cases i <;> simp [c0Commands]

theorem wf_of_mem_c0Commands : ∀ i ∈ c0Commands, i.wf = true := by decide

theorem mem_swapCommands (rem : BitVec 4) : Instr.ctsswap rem ∈ swapCommands ↔ rem ≠ 0#4 := by
  revert rem
  decide

theorem exists_of_mem_swapCommands {i : Instr} (h : i ∈ swapCommands) : ∃ rem, i = .ctsswap rem := by
  obtain ⟨k, -, rfl⟩ := List.mem_map.1 h
  exact ⟨_, rfl⟩

/-- Settles O5: a legal word is the word of the command it decodes to, so the legal words are those of the two lists of
commands. -/
theorem legalWordsAreTwentyThree : Obligations.LegalWordsAreTwentyThree := by
  refine ⟨c0Commands.map encode, swapCommands.map encode, rfl, rfl, by decide, fun w => ?_, fun w => ?_⟩
  · simp only [List.mem_map, mem_c0Commands, decode_eq_ok_iff]
    constructor
    · rintro ⟨i, hi, rfl⟩
      exact ⟨i, ⟨wf_of_mem_c0Commands i ((mem_c0Commands i).2 hi), rfl⟩, hi⟩
    · rintro ⟨i, ⟨-, rfl⟩, hi⟩
      exact ⟨i, hi, rfl⟩
  · simp only [List.mem_map, decode_eq_ok_iff, Instr.wf, remInRange, bne_iff_ne]
    constructor
    · rintro ⟨i, hi, rfl⟩
      obtain ⟨rem, rfl⟩ := exists_of_mem_swapCommands hi
      exact ⟨rem, (mem_swapCommands rem).1 hi, rfl⟩
    · rintro ⟨rem, hr, rfl⟩
      exact ⟨_, (mem_swapCommands rem).2 hr, rfl⟩

/-- Settles O1: each word is decoded as it stands. -/
theorem wordsOfTheOpcodeMapDecode : Obligations.WordsOfTheOpcodeMapDecode := by
  unfold Obligations.WordsOfTheOpcodeMapDecode
  decide

end Sys2Proof
end

section
/-! One step of the sequencer as two parts: what it does on the two ports, and what it then does to the registers
(43_sector_processor.md R156, R173, 46_system.md R215). Every rule about the sequencer below goes through the two. -/

namespace Sys2Proof.Machine

/-! ### What a step does on the ports -/

/-- What one step of the sequencer does on the buffer port and the cipher port. -/
inductive PortAct where
  /-- Nothing. -/
  | quiet
  /-- The transaction of TWGEN under K2 (41_tweak_generator.md R131). -/
  | tweak
  /-- `XexAt(dir, a)` (42_block_transform.md R140). -/
  | xex (dir : Dir) (a : Nat)
  /-- `Swap(a, r)` (44_ciphertext_stealing.md R180). -/
  | swap (a r : Nat)

/-- What the next step of the sequencer does on the ports, by PHASE. -/
def portAct (s : State) : PortAct :=
  match s.phase with
  | .idle | .pNop | .pDouble | .pHalve | .sBodyD | .sE2 | .sD1 | .sD3 => .quiet
  | .pTwgen => .tweak
  | .pXex => .xex s.dirl (offAddr s)
  | .pSwap => .swap (offAddr s) s.rem.toNat
  | .sBodyX => .xex s.dirl (bodyAddr s)
  | .sLast => .xex s.dirl (lastAddr s)
  | .sE1 | .sE4 => .xex .enc (lastAddr s)
  | .sD2 | .sD5 => .xex .dec (lastAddr s)
  | .sE3 | .sD4 => .swap (lastAddr s) s.rem.toNat

/-- The state those transactions leave. -/
def PortAct.perform : PortAct → State → State
  | .quiet, s => s
  | .tweak, s => twgenPost s
  | .xex dir a, s => xexPost dir a s
  | .swap a r, s => swapPost a r s

/-- The ranges `(start, length)` the transactions touch. -/
def PortAct.ranges : PortAct → List (Nat × Nat)
  | .quiet | .tweak => []
  | .xex _ a => [(a, 16)]
  | .swap a r => [(a, r), (a + 16, r)]

/-- The first address above them. -/
def PortAct.top : PortAct → Nat
  | .quiet | .tweak => 0
  | .xex _ a => a + 16
  | .swap a r => a + 16 + r

/-! ### What a step does to the registers -/

/-- What a step of the sequencer in phase `p` does after its transactions. -/
def settle (p : Phase) (s : State) : State :=
  match p with
  | .idle => s
  | .pNop | .pTwgen | .pXex | .pSwap => complete s
  | .pDouble => complete (doubleTweak s)
  | .pHalve => complete (halveTweak s)
  | .sBodyX => goto .sBodyD s
  | .sBodyD =>
    goto (if (s.j + 1#28).toNat + 2 ≤ s.n.toNat then .sBodyX else tailEntry s) { doubleTweak s with j := s.j + 1#28 }
  | .sLast | .sE4 | .sD5 => finish s
  | .sE1 => goto .sE2 s
  | .sE2 => goto .sE3 (doubleTweak s)
  | .sE3 => goto .sE4 s
  | .sD1 => goto .sD2 (doubleTweak s)
  | .sD2 => goto .sD3 s
  | .sD3 => goto .sD4 (halveTweak s)
  | .sD4 => goto .sD5 s

/-- Everything one step of the sequencer can do, from any state. -/
theorem seqStep_eq (s : State) : seqStep s =
    if (portAct s).top ≤ s.bufBytes then .ok (settle s.phase ((portAct s).perform s)) else .error .outsideBuffer := by
  cases hp : s.phase with
  | idle => simp only [seqStep, portAct, hp, PortAct.top, PortAct.perform, settle, Nat.zero_le, if_true]
  | pNop | pDouble | pHalve | sBodyD | sE2 | sD1 | sD3 =>
    simp only [seqStep, sectorStep, portAct, hp, PortAct.top, PortAct.perform, settle, Nat.zero_le, if_true]
    rfl
  | pTwgen =>
    simp only [seqStep, portAct, hp, PortAct.top, PortAct.perform, settle, Nat.zero_le, if_true, stepTwgen_eq]
  | pXex | sBodyX | sLast | sE1 | sE4 | sD2 | sD5 =>
    simp only [seqStep, sectorStep, portAct, hp, PortAct.top, PortAct.perform, settle, stepXex, stepBodyX, stepLast,
      stepE1, stepE4, stepD2, stepD5, xexAt_eq]
    split <;> rfl
  | pSwap | sE3 | sD4 =>
    simp only [seqStep, sectorStep, portAct, hp, PortAct.top, PortAct.perform, settle, stepSwap, stepE3, stepD4,
    swapAt_eq]
    split <;> rfl

theorem seqStep_of_fit {s : State} (h : (portAct s).top ≤ s.bufBytes) :
    seqStep s = .ok (settle s.phase ((portAct s).perform s)) := by rw [seqStep_eq, if_pos h]

/-- A step that answers: its transactions fit the buffer, and its state is known. -/
theorem seqStep_ok {s t : State} (h : seqStep s = .ok t) :
    (portAct s).top ≤ s.bufBytes ∧ t = settle s.phase ((portAct s).perform s) := by
  rw [seqStep_eq] at h
  split at h
  next hfit => exact ⟨hfit, (Except.ok.inj h).symm⟩
  next => cases h

/-! ### What each part leaves unchanged -/

@[simp] theorem settle_mem (p : Phase) (s : State) : (settle p s).mem = s.mem := by cases p <;> rfl

@[simp] theorem settle_portLog (p : Phase) (s : State) : (settle p s).portLog = s.portLog := by cases p <;> rfl

/-- What the registers become does not depend on the buffer. -/
theorem settle_mem_update (p : Phase) (s : State) (m : Memory) :
    settle p { s with mem := m } = { settle p s with mem := m } := by cases p <;> rfl

end Sys2Proof.Machine
end

section
/-! The bytes of a step of the sequencer: which ones it touches, and that its result depends on no other byte
(20_memory.md R61, R80). -/

namespace Sys2Proof.Machine

/-! ### Ranges -/

theorem inRanges_iff {rs : List (Nat × Nat)} {a : Nat} :
    inRanges rs a = true ↔ ∃ r ∈ rs, r.1 ≤ a ∧ a < r.1 + r.2 := by
  simp [inRanges]

theorem not_inRanges_iff {rs : List (Nat × Nat)} {a : Nat} :
    inRanges rs a = false ↔ ∀ r ∈ rs, ¬(r.1 ≤ a ∧ a < r.1 + r.2) := by
  simp [← Bool.not_eq_true, inRanges_iff]

/-- A command owns the byte at `a` when `a` lies in one of its ranges. -/
theorem owns_one (s : State) (a : Nat) : owns s a 1 = inRanges (ownedRanges s) a := by
  refine Bool.eq_iff_iff.2 ?_
  simp only [owns, List.any_eq_true, inRanges_iff, rangesMeet, Bool.and_eq_true, decide_eq_true_eq]
  refine exists_congr fun r => and_congr_right fun _ => ?_
  omega

/-! ### Writes -/

theorem Memory.read_writeBytes_outside {m : Memory} {a x : Nat} {bs : List Byte} (hw : m.wf = true)
    (hx : ¬(a ≤ x ∧ x < a + bs.length)) : (m.writeBytes a bs).read x = m.read x := by
  rw [Memory.read_writeBytes _ _ _ hw, dif_neg hx]

/-- Where two contents agree they agree after one write to both. -/
theorem Memory.read_writeBytes_congr {m m' : Memory} {x : Nat} (hw : m.wf = true) (hw' : m'.wf = true)
    (h : m.read x = m'.read x) (a : Nat) (bs : List Byte) :
    (m.writeBytes a bs).read x = (m'.writeBytes a bs).read x := by
  rw [Memory.read_writeBytes _ _ _ hw, Memory.read_writeBytes _ _ _ hw', h]

/-! ### The transactions of a step -/

theorem wf_perform (p : PortAct) {s : State} (hw : s.mem.wf = true) : (p.perform s).mem.wf = true := by
  cases p with
  | quiet | tweak => exact hw
  | xex dir a => exact wf_xexPost dir a hw
  | swap a r => exact wf_swapPost a r hw

/-- The transactions leave every byte they do not touch. -/
theorem read_perform_outside (p : PortAct) {s : State} (hw : s.mem.wf = true) {x : Nat}
    (hx : inRanges p.ranges x = false) : (p.perform s).mem.read x = s.mem.read x := by
  rw [not_inRanges_iff] at hx
  cases p with
  | quiet | tweak => rfl
  | xex dir a => exact Memory.read_writeBytes_outside hw (by simpa using hx (a, 16) (by simp [PortAct.ranges]))
  | swap a r =>
    have hlow := hx (a, r) (by simp [PortAct.ranges])
    have hhigh := hx (a + 16, r) (by simp [PortAct.ranges])
    exact (Memory.read_writeBytes_outside (Memory.wf_writeBytes _ _ hw) (by simpa using hhigh)).trans
      (Memory.read_writeBytes_outside hw (by simpa using hlow))

/-- On a buffer with the same bytes where the transactions touch it they do the same, and two buffers that agreed on a
byte still do. -/
theorem perform_congr (p : PortAct) {s : State} {m : Memory} (hw : s.mem.wf = true) (hm : m.wf = true)
    (h : ∀ x, inRanges p.ranges x = true → m.read x = s.mem.read x) :
    ∃ m1, p.perform { s with mem := m } = { p.perform s with mem := m1 } ∧ m1.wf = true ∧
      ∀ x, m.read x = s.mem.read x → m1.read x = (p.perform s).mem.read x := by
  have hread : ∀ r ∈ p.ranges, m.readBytes r.1 r.2 = s.mem.readBytes r.1 r.2 := fun r hr =>
    readBytes_congr fun x h1 h2 => h x (inRanges_iff.2 ⟨r, hr, h1, h2⟩)
  cases p with
  | quiet | tweak => exact ⟨m, rfl, hm, fun _ hx => hx⟩
  | xex dir a =>
    have hb : m.readBytes a 16 = s.mem.readBytes a 16 := hread (a, 16) (by simp [PortAct.ranges])
    have hxex : xexBlock { s with mem := m } dir a = xexBlock s dir a := by
      simp only [xexBlock, hb]
      rfl
    refine ⟨m.writeBytes a (blockBytes (xexBlock s dir a)), ?_, Memory.wf_writeBytes _ _ hm,
      fun x hx => Memory.read_writeBytes_congr hm hw hx _ _⟩
    simp only [PortAct.perform, xexPost, hxex, hb]
    rfl
  | swap a r =>
    have hlow : m.readBytes a r = s.mem.readBytes a r := hread (a, r) (by simp [PortAct.ranges])
    have hhigh : m.readBytes (a + 16) r = s.mem.readBytes (a + 16) r := hread (a + 16, r) (by simp [PortAct.ranges])
    refine ⟨(swapPost a r { s with mem := m }).mem, ?_, wf_swapPost a r hm, fun x hx => ?_⟩
    · simp only [PortAct.perform, swapPost, hlow, hhigh]
    · simp only [PortAct.perform, swapPost, hlow, hhigh]
      exact Memory.read_writeBytes_congr (Memory.wf_writeBytes _ _ hm) (Memory.wf_writeBytes _ _ hw)
        (Memory.read_writeBytes_congr hm hw hx _ _) _ _

/-! ### The range of the running command -/

theorem ownedRanges_sector {s : State} (h : isSectorPhase s.phase = true) :
    ownedRanges s = [(s.off.toNat, s.len.toNat)] := by
  cases hp : s.phase <;> simp_all [ownedRanges, isSectorPhase]

/-- The last full block and the tail end the region of a sector command (43_sector_processor.md R152). -/
theorem SectorLatches.lastAddr_eq {s : State} (h : SectorLatches s) :
    s.off.toNat ≤ lastAddr s ∧ lastAddr s + 16 + s.rem.toNat = s.off.toNat + s.len.toNat := by
  have := h.len_eq
  unfold lastAddr
  omega

/-- The transactions of a running command touch bytes of its range only (20_memory.md R61). -/
theorem inRanges_owned_of_portAct {s : State} (hl : LatchesOk s) {x : Nat}
    (hx : inRanges (portAct s).ranges x = true) : inRanges (ownedRanges s) x = true := by
  by_cases hsec : isSectorPhase s.phase = true
  · obtain ⟨hs, hph⟩ := (latchesOk_sector hsec).1 hl
    obtain ⟨hlow, hhigh⟩ := hs.lastAddr_eq
    have hn := hs.n
    obtain ⟨r, hr, hrange⟩ := inRanges_iff.1 hx
    rw [ownedRanges_sector hsec, inRanges_iff]
    refine ⟨_, List.mem_singleton_self _, ?_⟩
    cases hp : s.phase with
    | idle | pNop | pDouble | pHalve | pTwgen | pXex | pSwap => rw [hp] at hsec; cases hsec
    | sBodyD | sE2 | sD1 | sD3 => simp [portAct, hp, PortAct.ranges] at hr
    | sBodyX =>
      have hj : s.j.toNat + 2 ≤ s.n.toNat := by simpa [PhaseOk, hp] using hph
      simp only [portAct, hp, PortAct.ranges, List.mem_singleton, bodyAddr] at hr
      subst hr
      dsimp only at hrange ⊢
      omega
    | sLast | sE1 | sE4 | sD2 | sD5 =>
      simp only [portAct, hp, PortAct.ranges, List.mem_singleton] at hr
      subst hr
      dsimp only at hrange ⊢
      omega
    | sE3 | sD4 =>
      simp only [portAct, hp, PortAct.ranges, List.mem_cons, List.not_mem_nil, or_false] at hr
      have hr16 := s.rem.isLt
      obtain rfl | rfl := hr <;> dsimp only at hrange ⊢ <;> omega
  · cases hp : s.phase with
    | idle | pNop | pDouble | pHalve | pTwgen => simp [portAct, hp, PortAct.ranges, inRanges] at hx
    | pXex | pSwap => simpa only [portAct, ownedRanges, hp, PortAct.ranges, offAddr] using hx
    | sBodyX | sBodyD | sLast | sE1 | sE2 | sE3 | sE4 | sD1 | sD2 | sD3 | sD4 | sD5 =>
      rw [hp] at hsec
      exact absurd rfl hsec

/-- A step leaves every byte the running command does not own. -/
theorem read_of_seqStep {s t : State} (hl : LatchesOk s) (hw : s.mem.wf = true) (h : seqStep s = .ok t) {a : Nat}
    (ha : owns s a 1 = false) : t.mem.read a = s.mem.read a := by
  obtain ⟨-, rfl⟩ := seqStep_ok h
  rw [owns_one, ← Bool.not_eq_true] at ha
  rw [settle_mem, read_perform_outside _ hw]
  rw [← Bool.not_eq_true]
  exact mt (inRanges_owned_of_portAct hl) ha

/-- Settles O44: the bytes a step touches lie in the running command's range. -/
theorem sequencerWritesOnlyItsRange : Obligations.SequencerWritesOnlyItsRange :=
  fun _ _ hi h _ => read_of_seqStep hi.latchesOk hi.memWf h

end Sys2Proof.Machine
end

section
/-! The run of a command: what every step of it keeps, what it reads and writes of the buffer, and the three ways a
command as one transition goes (46_system.md R212, R217, R218). -/

namespace Sys2Proof.Machine

/-! ### Steps of a running command -/

/-- A step keeps what the latches need, whether or not a command is running. -/
theorem kept_of_seqStep {s t : State} (hl : LatchesOk s) (h : seqStep s = .ok t) : Kept s t ∧ LatchesOk t := by
  by_cases hp : s.phase = .idle
  · obtain rfl : s = t := by simpa [seqStep, hp] using h
    exact ⟨Kept.refl s, hl⟩
  · obtain ⟨u, hu, hs⟩ := seqStep_stepped s hl ((busy_iff s).2 hp)
    obtain rfl : u = t := Except.ok.inj (hu.symm.trans h)
    exact ⟨hs.kept, hs.latches⟩

theorem isSectorPhase_tailEntry (s : State) : isSectorPhase (tailEntry s) = true := by
  unfold tailEntry
  split
  · rfl
  · split <;> rfl

/-- Where a round of the body leads is a phase of a sector command. -/
theorem isSectorPhase_afterBody {c : Prop} [Decidable c] (s : State) :
    isSectorPhase (if c then .sBodyX else tailEntry s) = true := by
  split
  · rfl
  · exact isSectorPhase_tailEntry s

/-- A step ends the command, or it is a step inside a sector command. -/
theorem phase_settle {p : Phase} {s : State} (hp : s.phase = p) :
    (settle p s).phase = .idle ∨ isSectorPhase p = true ∧ isSectorPhase (settle p s).phase = true := by
  cases p with
  | idle => exact .inl hp
  | pNop | pDouble | pHalve | pTwgen | pXex | pSwap | sLast | sE4 | sD5 => exact .inl rfl
  | sBodyD => exact .inr ⟨rfl, isSectorPhase_afterBody s⟩
  | sBodyX | sE1 | sE2 | sE3 | sD1 | sD2 | sD3 | sD4 => exact .inr ⟨rfl, rfl⟩

@[simp] theorem perform_phase (p : PortAct) (s : State) : (p.perform s).phase = s.phase := by cases p <;> rfl

theorem phase_of_seqStep {s t : State} (h : seqStep s = .ok t) :
    t.phase = .idle ∨ isSectorPhase s.phase = true ∧ isSectorPhase t.phase = true := by
  obtain ⟨-, rfl⟩ := seqStep_ok h
  exact phase_settle (perform_phase _ s)

/-- A command owns its range to its end (20_memory.md R61). -/
theorem ownedRanges_of_seqStep {s t : State} (hl : LatchesOk s) (h : seqStep s = .ok t) :
    t.phase = .idle ∨ ownedRanges t = ownedRanges s := by
  refine (phase_of_seqStep h).imp_right fun ⟨hs, ht⟩ => ?_
  obtain ⟨-, hoff, hlen, -⟩ := (kept_of_seqStep hl h).1.host
  rw [ownedRanges_sector hs, ownedRanges_sector ht, hoff, hlen]

/-- What each step keeps a run keeps. -/
theorem seqRun_induction {P : State → Prop} (hstep : ∀ u v, P u → seqStep u = .ok v → P v) {k : Nat} {s t : State}
    (hs : P s) (h : seqRun k s = .ok t) : P t := by
  induction k generalizing s with
  | zero => exact Except.ok.inj h ▸ hs
  | succ k ih =>
    cases hu : seqStep s with
    | error f => simp [seqRun, hu, bind, Except.bind] at h
    | ok u =>
      rw [seqRun, hu] at h
      exact ih (hstep s u hs hu) h

/-! ### The buffer along a run -/

/-- The running command, if there is one, owns bytes of `rs` only. -/
structure Within (rs : List (Nat × Nat)) (s : State) : Prop where
  latches : LatchesOk s
  owned : ∀ x, inRanges (ownedRanges s) x = true → inRanges rs x = true

theorem Within.step {rs : List (Nat × Nat)} {s t : State} (h : Within rs s) (ht : seqStep s = .ok t) :
    Within rs t := by
  refine ⟨(kept_of_seqStep h.latches ht).2, fun x hx => ?_⟩
  obtain hp | ho := ownedRanges_of_seqStep h.latches ht
  · rw [ownedRanges_idle hp] at hx
    cases hx
  · exact h.owned x (ho ▸ hx)

theorem Within.touched {rs : List (Nat × Nat)} {s : State} (h : Within rs s) {x : Nat}
    (hx : inRanges (portAct s).ranges x = true) : inRanges rs x = true :=
  h.owned x (inRanges_owned_of_portAct h.latches hx)

/-- A run keeps the canonical form, and every byte outside the ranges (10_state.md R26). -/
theorem seqRun_outside {rs : List (Nat × Nat)} {k : Nat} {s t : State} (h : Within rs s) (hw : s.mem.wf = true)
    (ht : seqRun k s = .ok t) :
    t.mem.wf = true ∧ ∀ x, inRanges rs x = false → t.mem.read x = s.mem.read x := by
  suffices Within rs t ∧ t.mem.wf = true ∧ ∀ x, inRanges rs x = false → t.mem.read x = s.mem.read x from this.2
  refine seqRun_induction (P := fun u => Within rs u ∧ u.mem.wf = true ∧ ∀ x, inRanges rs x = false →
    u.mem.read x = s.mem.read x) ?_ ⟨h, hw, fun _ _ => rfl⟩ ht
  rintro u v ⟨hu, huw, hus⟩ hv
  have hwithin := hu.step hv
  obtain ⟨-, rfl⟩ := seqStep_ok hv
  refine ⟨hwithin, by rw [settle_mem]; exact wf_perform _ huw, fun x hx => ?_⟩
  have hout : inRanges (portAct u).ranges x = false := by
    rw [← Bool.not_eq_true] at hx ⊢
    exact mt hu.touched hx
  rw [settle_mem, read_perform_outside _ huw hout, hus x hx]

/-- A step does the same on another buffer with the same bytes in the ranges, and where the two buffers agreed they
still do (20_memory.md R61). -/
theorem seqStep_congr_mem {rs : List (Nat × Nat)} {s t : State} {m : Memory} (h : Within rs s) (hw : s.mem.wf = true)
    (hm : m.wf = true) (hrs : ∀ x, inRanges rs x = true → m.read x = s.mem.read x) (ht : seqStep s = .ok t) :
    ∃ m1, seqStep { s with mem := m } = .ok { t with mem := m1 } ∧ m1.wf = true ∧
      ∀ x, m.read x = s.mem.read x → m1.read x = t.mem.read x := by
  obtain ⟨hfit, rfl⟩ := seqStep_ok ht
  obtain ⟨m1, he, hm1, hx⟩ := perform_congr (portAct s) hw hm fun x hx => hrs x (h.touched hx)
  refine ⟨m1, ?_, hm1, by simpa only [settle_mem] using hx⟩
  calc seqStep { s with mem := m }
      = .ok (settle s.phase ((portAct s).perform { s with mem := m })) := seqStep_of_fit (s := { s with mem := m }) hfit
    _ = .ok (settle s.phase { (portAct s).perform s with mem := m1 }) := by rw [he]
    _ = .ok { settle s.phase ((portAct s).perform s) with mem := m1 } :=
        congrArg Except.ok (settle_mem_update s.phase _ m1)

theorem seqRun_congr_mem {rs : List (Nat × Nat)} {k : Nat} {s t : State} {m : Memory} (h : Within rs s)
    (hw : s.mem.wf = true) (hm : m.wf = true) (hrs : ∀ x, inRanges rs x = true → m.read x = s.mem.read x)
    (ht : seqRun k s = .ok t) :
    ∃ m1, seqRun k { s with mem := m } = .ok { t with mem := m1 } ∧
      ∀ x, inRanges rs x = true → m1.read x = t.mem.read x := by
  induction k generalizing s m with
  | zero =>
    obtain rfl := Except.ok.inj ht
    exact ⟨m, rfl, hrs⟩
  | succ k ih =>
    cases hu : seqStep s with
    | error f => simp [seqRun, hu, bind, Except.bind] at ht
    | ok u =>
      obtain ⟨m1, he, hm1, hx⟩ := seqStep_congr_mem h hw hm hrs hu
      rw [seqRun, hu] at ht
      rw [seqRun, he]
      exact ih (h.step hu) ((kept_of_seqStep h.latches hu).1.memWf hw) hm1 (fun x hxr => hx x (hrs x hxr)) ht

/-! ### A command as one transition -/

/-- A command written while BUSY = 1 is lost (10_state.md R39, 46_system.md R219). -/
theorem exec_busy (i : Instr) {s : State} (hb : s.busy = true) : exec i s = .next s := by
  cases i <;> exact if_pos hb

/-- A command that passes its checks answers, idle and without error. -/
theorem exec_complete {i : Instr} {s : State} (hp : s.phase = .idle) (hf : firstCause i s = none) :
    ∃ t, exec i s = .next t ∧ seqRun (stepsLeft (acceptInstr i s)) (acceptInstr i s) = .ok t ∧
      t.phase = .idle ∧ t.done = true ∧ Kept (acceptInstr i s) t := by
  obtain ⟨hl, hb⟩ := latches_acceptInstr hp hf
  obtain ⟨t, ht, hidle, hdone, hk⟩ := seqRun_stepsLeft _ _ hl hb rfl
  exact ⟨t, by rw [exec_run hp hf, ht]; rfl, ht, hidle, hdone, hk⟩

/-- The three ways a command goes: it is lost, it ends in its first error, or it runs. -/
theorem exec_cases (i : Instr) (s : State) :
    (s.busy = true ∧ exec i s = .next s) ∨
    (s.phase = .idle ∧ ∃ e, firstCause i s = some e ∧ exec i s = .next (raiseError e (clearStatus s))) ∨
    (s.phase = .idle ∧ firstCause i s = none ∧ ∃ t, exec i s = .next t ∧
      seqRun (stepsLeft (acceptInstr i s)) (acceptInstr i s) = .ok t ∧ t.phase = .idle ∧ t.done = true ∧
      Kept (acceptInstr i s) t) := by
  by_cases hp : s.phase = .idle
  · cases hf : firstCause i s with
    | some e => exact .inr (.inl ⟨hp, e, rfl, exec_error hp hf⟩)
    | none => exact .inr (.inr ⟨hp, rfl, exec_complete hp hf⟩)
  · exact .inl ⟨(busy_iff s).2 hp, exec_busy i ((busy_iff s).2 hp)⟩

/-- No command faults and none is refused, from any state. -/
theorem exec_answers (i : Instr) (s : State) : ∃ t, exec i s = .next t := by
  obtain ⟨-, h⟩ | ⟨-, e, -, h⟩ | ⟨-, -, t, h, -⟩ := exec_cases i s
  · exact ⟨_, h⟩
  · exact ⟨_, h⟩
  · exact ⟨_, h⟩

/-- As `exec_cases`, of a next state that is given. -/
theorem exec_next {i : Instr} {s t : State} (h : exec i s = .next t) :
    (s.busy = true ∧ t = s) ∨
    (s.phase = .idle ∧ ∃ e, firstCause i s = some e ∧ t = raiseError e (clearStatus s)) ∨
    (s.phase = .idle ∧ firstCause i s = none ∧
      seqRun (stepsLeft (acceptInstr i s)) (acceptInstr i s) = .ok t ∧ t.phase = .idle ∧ t.done = true ∧
      Kept (acceptInstr i s) t) := by
  have hinj : ∀ u, exec i s = .next u → t = u := fun u hu => Host.Outcome.next.inj (h.symm.trans hu)
  obtain ⟨hb, hu⟩ | ⟨hp, e, hf, hu⟩ | ⟨hp, hf, u, hu, hrest⟩ := exec_cases i s
  · exact .inl ⟨hb, hinj _ hu⟩
  · exact .inr (.inl ⟨hp, e, hf, hinj _ hu⟩)
  · exact .inr (.inr ⟨hp, hf, hinj u hu ▸ hrest⟩)

/-- Acceptance keeps SIDX, OFF, LEN, the parameters, the keys and the record of the host. -/
theorem hostSideSame_enterOf (i : Instr) (s : State) : hostSideSame s (enterOf i (clearStatus s)) := by
  cases i <;> exact hostSideSame_refl s

/-- Acceptance clears STATUS (46_system.md R212). -/
theorem status_enterOf (i : Instr) (s : State) : (enterOf i (clearStatus s)).done = false ∧
    (enterOf i (clearStatus s)).err = false ∧ (enterOf i (clearStatus s)).ecode = 0#4 := by
  cases i <;> exact ⟨rfl, rfl, rfl⟩

@[simp] theorem enterOf_mem (i : Instr) (s : State) : (enterOf i s).mem = s.mem := by cases i <;> rfl

/-- An accepted command owns what it stores to (10_state.md R26). -/
theorem ownedRanges_enterOf (i : Instr) (s : State) : ownedRanges (enterOf i (clearStatus s)) = storedRanges i s := by
  cases i with
  | nop | double | halve | twgen | xexe | xexd | ctsswap => rfl
  | secte | sectd => exact ownedRanges_sector (busy_enterSector _ _)

theorem within_enterOf {i : Instr} {s : State} (hf : firstCause i s = none) :
    Within (storedRanges i s) (enterOf i (clearStatus s)) :=
  ⟨latches_enterOf hf, fun x hx => by rwa [ownedRanges_enterOf] at hx⟩

/-- Neither the checks nor what a command latches depend on the buffer. -/
theorem firstCause_mem (i : Instr) (s : State) (m : Memory) : firstCause i { s with mem := m } = firstCause i s := by
  rw [← checkOf_eq, ← checkOf_eq]
  cases i <;> rfl

theorem enterOf_mem_update (i : Instr) (s : State) (m : Memory) :
    enterOf i (clearStatus { s with mem := m }) = { enterOf i (clearStatus s) with mem := m } := by cases i <;> rfl

/-! ### The rules -/

/-- Settles O38: an idle unit is not busy, so the command ends in its first error or runs, and a run keeps the ERR and
ECODE that acceptance cleared. -/
theorem commandsEndInTheirFirstErrorOrComplete : Obligations.CommandsEndInTheirFirstErrorOrComplete := by
  intro i s hp
  cases hf : firstCause i s with
  | some e => exact exec_error hp hf
  | none =>
    obtain ⟨t, ht, -, hidle, hdone, hk⟩ := exec_complete hp hf
    rw [acceptInstr_enter hp hf] at hk
    obtain ⟨-, herr, hecode⟩ := status_enterOf i s
    exact ⟨t, ht, hidle, hdone, hk.err.trans herr, hk.ecode.trans hecode⟩

/-- Settles O39: acceptance keeps the host's side, and so does each step. -/
theorem commandsLeaveTheHostSideAlone : Obligations.CommandsLeaveTheHostSideAlone := by
  intro i s t h
  obtain ⟨-, rfl⟩ | ⟨-, e, -, rfl⟩ | ⟨hp, hf, -, -, -, hk⟩ := exec_next h
  · exact hostSideSame_refl _
  · exact hostSideSame_refl s
  · rw [acceptInstr_enter hp hf] at hk
    exact hostSideSame_trans (hostSideSame_enterOf i s) hk.host

/-- Settles O40: a lost or failed command leaves the buffer, and the ranges of an accepted one are those it owns. -/
theorem commandsStoreOnlyToTheirRanges : Obligations.CommandsStoreOnlyToTheirRanges := by
  intro i s t hw h
  obtain ⟨-, rfl⟩ | ⟨-, e, -, rfl⟩ | ⟨hp, hf, hrun, -⟩ := exec_next h
  · exact ⟨hw, fun _ _ => rfl⟩
  · exact ⟨hw, fun _ _ => rfl⟩
  · rw [acceptInstr_enter hp hf] at hrun
    have hout := seqRun_outside (within_enterOf hf) (by rwa [enterOf_mem]) hrun
    rwa [enterOf_mem] at hout

/-- Settles O45: the checks do not look at the buffer, and each step of the run does the same on either buffer. -/
theorem commandsReadNothingOutsideTheirRanges : Obligations.CommandsReadNothingOutsideTheirRanges := by
  intro i s t m hw hm hrs h
  obtain ⟨hb, rfl⟩ | ⟨hp, e, hf, rfl⟩ | ⟨hp, hf, hrun, -⟩ := exec_next h
  · exact ⟨m, exec_busy i hb, hrs⟩
  · exact ⟨m, exec_error hp ((firstCause_mem i s m).trans hf), hrs⟩
  · rw [acceptInstr_enter hp hf] at hrun
    obtain ⟨m1, hrun1, hm1⟩ := seqRun_congr_mem (within_enterOf hf) (by rwa [enterOf_mem]) hm
      (by rwa [enterOf_mem]) hrun
    refine ⟨m1, ?_, hm1⟩
    have hp1 : ({ s with mem := m } : State).phase = .idle := hp
    have hf1 := (firstCause_mem i s m).trans hf
    rw [exec_run hp1 hf1, acceptInstr_enter hp1 hf1, enterOf_mem_update]
    exact congrArg toOutcome hrun1

end Sys2Proof.Machine
end

section
/-! The transactions of a run on the two ports, in order and by kind (43_sector_processor.md R173, 20_memory.md R71,
R72), and the requests among them. -/

namespace Sys2Proof.Machine

/-! ### Transactions added to the record -/

/-- From `s` to `t` the record of the ports grows by transactions of these shapes, oldest first. -/
def AddsShapes (s t : State) (shapes : List PortShape) : Prop :=
  ∃ new, t.portLog = new ++ s.portLog ∧ new.reverse.map PortEvent.shape = shapes

theorem addsShapes_of_same {s t : State} (h : t.portLog = s.portLog) : AddsShapes s t [] := ⟨[], h, rfl⟩

theorem AddsShapes.trans {s t u : State} {l k : List PortShape} (h : AddsShapes s t l) (h' : AddsShapes t u k) :
    AddsShapes s u (l ++ k) := by
  obtain ⟨new, hnew, rfl⟩ := h
  obtain ⟨new', hnew', rfl⟩ := h'
  exact ⟨new' ++ new, by rw [hnew', hnew, List.append_assoc], by simp⟩

/-- The shapes of the transactions, oldest first. -/
def PortAct.shapes : PortAct → List PortShape
  | .quiet => []
  | .tweak => [.request .k2 .enc, .answer]
  | .xex dir a => xexShapes dir a
  | .swap a r => swapShapes a r

theorem addsShapes_perform (p : PortAct) (s : State) : AddsShapes s (p.perform s) p.shapes := by
  cases p with
  | quiet => exact addsShapes_of_same rfl
  | tweak => exact ⟨[_, _], rfl, rfl⟩
  | xex dir a =>
    exact ⟨[_, _, _, _], rfl, by simp [PortEvent.shape, PortAct.shapes, xexShapes]⟩
  | swap a r =>
    exact ⟨[_, _, _, _], rfl, by simp [PortEvent.shape, PortAct.shapes, swapShapes]⟩

theorem addsShapes_of_seqStep {s t : State} (h : seqStep s = .ok t) : AddsShapes s t (portAct s).shapes := by
  obtain ⟨-, rfl⟩ := seqStep_ok h
  obtain ⟨new, hnew, hshapes⟩ := addsShapes_perform (portAct s) s
  exact ⟨new, by rw [settle_portLog, hnew], hshapes⟩

/-! ### Requests -/

theorem mem_requestsOf {l : List PortEvent} {r : CipherRequest} : r ∈ requestsOf l ↔ .request r ∈ l := by
  simp only [requestsOf, List.mem_filterMap]
  constructor
  · rintro ⟨e, he, hr⟩
    cases e with
    | request r' => exact Option.some.inj hr ▸ he
    | memRead | memWrite | answer => cases hr
  · exact fun h => ⟨_, h, rfl⟩

/-- The requests of a list of shapes. -/
def requestShapes (l : List PortShape) : List (KeySel × Dir) :=
  l.filterMap fun e => match e with
    | .request ksel op => some (ksel, op)
    | .read _ _ | .write _ _ | .answer => none

/-- A request has the shape of its key and its direction. -/
theorem requestShapes_map_shape (l : List PortEvent) :
    requestShapes (l.map PortEvent.shape) = (requestsOf l).map fun r => (r.ksel, r.op) := by
  induction l with
  | nil => rfl
  | cons e l ih => cases e <;> simpa [requestShapes, requestsOf, PortEvent.shape] using ih

theorem requestsOf_reverse (l : List PortEvent) : requestsOf l.reverse = (requestsOf l).reverse :=
  List.filterMap_reverse

/-- The requests that transactions of given shapes hold, oldest first. -/
theorem requests_of_shapes {new : List PortEvent} {shapes : List PortShape}
    (h : new.reverse.map PortEvent.shape = shapes) :
    ((requestsOf new).map fun r => (r.ksel, r.op)).reverse = requestShapes shapes := by
  rw [← h, requestShapes_map_shape, requestsOf_reverse, List.map_reverse]

/-! ### What a running command has still to do -/

/-- The transforms of blocks `j` to `j + m - 1`. -/
def bodyShapes (s : State) (j m : Nat) : List PortShape :=
  (List.range' j m).flatMap fun i => xexShapes s.dirl (offAddr s + 16 * i)

/-- The transactions of the swap of a sector command and of the pass after it. -/
def stealShapes (s : State) : List PortShape :=
  swapShapes (lastAddr s) s.rem.toNat ++ xexShapes s.dirl (lastAddr s)

/-- The transactions from TailEntry on. -/
def endShapes (s : State) : List PortShape :=
  xexShapes s.dirl (lastAddr s) ++ if s.rem = 0#4 then [] else stealShapes s

/-- The transactions the running command still makes, by PHASE. -/
def shapesLeft (s : State) : List PortShape :=
  match s.phase with
  | .idle | .pNop | .pDouble | .pHalve | .pTwgen | .pXex | .pSwap => (portAct s).shapes
  | .sBodyX => bodyShapes s s.j.toNat (s.n.toNat - 1 - s.j.toNat) ++ endShapes s
  | .sBodyD => bodyShapes s (s.j.toNat + 1) (s.n.toNat - 2 - s.j.toNat) ++ endShapes s
  | .sLast | .sE1 | .sD1 | .sD2 => endShapes s
  | .sE2 | .sE3 | .sD3 | .sD4 => stealShapes s
  | .sE4 | .sD5 => xexShapes s.dirl (lastAddr s)

theorem shapesLeft_idle {s : State} (h : s.phase = .idle) : shapesLeft s = [] := by
  simp [shapesLeft, portAct, h, PortAct.shapes]

theorem shapesLeft_tailEntry {s : State} (h : s.phase = tailEntry s) : shapesLeft s = endShapes s := by
  unfold tailEntry at h
  split at h
  · simp [shapesLeft, h]
  · split at h <;> simp [shapesLeft, h]

theorem bodyShapes_succ (s : State) (j m : Nat) :
    bodyShapes s j (m + 1) = xexShapes s.dirl (offAddr s + 16 * j) ++ bodyShapes s (j + 1) m := by
  simp [bodyShapes, List.range'_succ]

/-- On the stealing path of a direction the latched direction is that one (43_sector_processor.md R156). -/
theorem PhaseOk.stealing {s : State} (h : PhaseOk s) :
    (s.phase ∈ [Phase.sE1, .sE2, .sE3, .sE4] → s.rem ≠ 0#4 ∧ s.dirl = .enc) ∧
    (s.phase ∈ [Phase.sD1, .sD2, .sD3, .sD4, .sD5] → s.rem ≠ 0#4 ∧ s.dirl = .dec) := by
  have hdec : s.dirl ≠ .enc → s.dirl = .dec := by cases s.dirl <;> simp
  constructor <;> intro hp <;> simp only [List.mem_cons, List.not_mem_nil, or_false] at hp
  · obtain hp | hp | hp | hp := hp <;> simp [PhaseOk, hp] at h <;> exact h.2
  · obtain hp | hp | hp | hp | hp := hp <;> simp [PhaseOk, hp] at h <;> exact h.2.imp_right hdec

/-- In the body J is at most `N - 2`, so the next J is one more (43_sector_processor.md R156). -/
theorem toNat_nextBlock {s : State} (hl : LatchesOk s) (hp : s.phase = .sBodyD) :
    (s.j + 1#28).toNat = s.j.toNat + 1 := by
  obtain ⟨-, hph⟩ := (latchesOk_sector (by rw [hp]; rfl)).1 hl
  have hj : s.j.toNat + 2 ≤ s.n.toNat := by simpa [PhaseOk, hp] using hph
  have hn := s.n.isLt
  rw [BitVec.toNat_add]
  simp
  omega

/-- A step makes the first of the transactions that are left. -/
theorem shapesLeft_of_seqStep {s t : State} (hl : LatchesOk s) (h : seqStep s = .ok t) :
    (portAct s).shapes ++ shapesLeft t = shapesLeft s := by
  obtain ⟨-, rfl⟩ := seqStep_ok h
  by_cases hsec : isSectorPhase s.phase = true
  · obtain ⟨-, hph⟩ := (latchesOk_sector hsec).1 hl
    obtain ⟨henc, hdec⟩ := hph.stealing
    cases hp : s.phase with
    | idle | pNop | pDouble | pHalve | pTwgen | pXex | pSwap => rw [hp] at hsec; cases hsec
    | sBodyX =>
      have hj : s.j.toNat + 2 ≤ s.n.toNat := by simpa [PhaseOk, hp] using hph
      have hm : s.n.toNat - 1 - s.j.toNat = s.n.toNat - 2 - s.j.toNat + 1 := by omega
      simp only [portAct, shapesLeft, hp, hm, bodyShapes_succ, List.append_assoc]
      rfl
    | sBodyD =>
      have hj : s.j.toNat + 2 ≤ s.n.toNat := by simpa [PhaseOk, hp] using hph
      have hj1 := toNat_nextBlock hl hp
      have hleft : shapesLeft s = bodyShapes s (s.j.toNat + 1) (s.n.toNat - 2 - s.j.toNat) ++ endShapes s := by
        simp only [shapesLeft, hp]
      simp only [portAct, hp, PortAct.shapes, PortAct.perform, settle, List.nil_append, hj1, hleft]
      by_cases hc : s.j.toNat + 1 + 2 ≤ s.n.toNat
      · have hm : s.n.toNat - 2 - s.j.toNat = s.n.toNat - 1 - (s.j + 1#28).toNat := by omega
        rw [if_pos hc, hm, ← hj1]
        rfl
      · have hm : s.n.toNat - 2 - s.j.toNat = 0 := by omega
        rw [if_neg hc, hm, shapesLeft_tailEntry rfl]
        rfl
    | sLast =>
      have h0 : s.rem = 0#4 := by simp [PhaseOk, hp] at hph; exact hph.2
      simp only [portAct, hp, settle, shapesLeft, endShapes, h0, if_true]
      rfl
    | sE1 | sE2 | sE3 | sE4 =>
      obtain ⟨h0, hd⟩ := henc (by simp [hp])
      conv_rhs => simp only [shapesLeft, hp, endShapes, if_neg h0]
      simp only [portAct, hp, ← hd]
      rfl
    | sD1 =>
      conv_rhs => simp only [shapesLeft, hp]
      simp only [portAct, hp]
      rfl
    | sD2 | sD3 | sD4 | sD5 =>
      obtain ⟨h0, hd⟩ := hdec (by simp [hp])
      conv_rhs => simp only [shapesLeft, hp, endShapes, if_neg h0]
      simp only [portAct, hp, ← hd]
      rfl
  · have hidle : (settle s.phase ((portAct s).perform s)).phase = .idle :=
      (phase_of_seqStep h).resolve_right fun hs => hsec hs.1
    rw [shapesLeft_idle hidle, List.append_nil]
    cases hp : s.phase with
    | idle | pNop | pDouble | pHalve | pTwgen | pXex | pSwap => simp only [shapesLeft, hp]
    | sBodyX | sBodyD | sLast | sE1 | sE2 | sE3 | sE4 | sD1 | sD2 | sD3 | sD4 | sD5 =>
      rw [hp] at hsec
      exact absurd rfl hsec

/-- The transactions of a run, with those that are left, are those of the whole command. -/
theorem shapesLeft_of_seqRun {k : Nat} {s t : State} (hl : LatchesOk s) (h : seqRun k s = .ok t) :
    ∃ shapes, AddsShapes s t shapes ∧ shapes ++ shapesLeft t = shapesLeft s := by
  refine (seqRun_induction (P := fun u => LatchesOk u ∧ ∃ shapes, AddsShapes s u shapes ∧
    shapes ++ shapesLeft u = shapesLeft s) ?_ ⟨hl, [], addsShapes_of_same rfl, rfl⟩ h).2
  rintro u v ⟨hu, shapes, hadd, hleft⟩ hv
  refine ⟨(kept_of_seqStep hu hv).2, _, hadd.trans (addsShapes_of_seqStep hv), ?_⟩
  rw [List.append_assoc, shapesLeft_of_seqStep hu hv, hleft]

/-- A run to the end makes all of them. -/
theorem addsShapes_of_complete {k : Nat} {s t : State} (hl : LatchesOk s) (h : seqRun k s = .ok t)
    (hp : t.phase = .idle) : AddsShapes s t (shapesLeft s) := by
  obtain ⟨shapes, hadd, hleft⟩ := shapesLeft_of_seqRun hl h
  rw [shapesLeft_idle hp, List.append_nil] at hleft
  exact hleft ▸ hadd

/-! ### Sector commands -/

section Accepted

variable (opc : BitVec 8) (s : State)

@[simp] theorem enterSector_n : (enterSector opc s).n = blockCount s.len := rfl
@[simp] theorem enterSector_rem : (enterSector opc s).rem = remainder s.len := rfl
@[simp] theorem enterSector_j : (enterSector opc s).j = 0#28 := rfl
@[simp] theorem enterSector_dirl : (enterSector opc s).dirl = opcodeDir opc := rfl
@[simp] theorem enterSector_t : (enterSector opc s).t = s.t := rfl
@[simp] theorem enterSector_portLog : (enterSector opc s).portLog = s.portLog := rfl

/-- Acceptance goes to the body when there is a block before the last one, and else to TailEntry
(43_sector_processor.md R156). -/
theorem enterSector_phase : (enterSector opc s).phase =
    if 2 ≤ (enterSector opc s).n.toNat then .sBodyX else tailEntry (enterSector opc s) := rfl

end Accepted

theorem remainder_eq_zero_iff (len : Word) : remainder len = 0#4 ↔ len.toNat % 16 = 0 := by
  rw [← BitVec.toNat_inj, toNat_remainder]
  rfl

/-- The transactions of `SectorFn` in the reference order: each full block, and with a tail the swap and the last block
again (43_sector_processor.md R154, R173). -/
def sectorShapes (d : Dir) (off n r : Nat) : List PortShape :=
  (List.range n).flatMap (fun j => xexShapes d (off + 16 * j)) ++
    if r = 0 then [] else swapShapes (off + 16 * (n - 1)) r ++ xexShapes d (off + 16 * (n - 1))

/-- An accepted sector command has all of them before it. -/
theorem shapesLeft_enterSector (opc : BitVec 8) {s : State} (hlen : 16 ≤ s.len.toNat) :
    shapesLeft (enterSector opc s) =
      sectorShapes (opcodeDir opc) (offAddr s) (s.len.toNat / 16) (s.len.toNat % 16) := by
  obtain ⟨e, he⟩ : ∃ e, e = enterSector opc s := ⟨_, rfl⟩
  have hn : e.n.toNat = s.len.toNat / 16 := by rw [he, enterSector_n, toNat_blockCount]
  have hr : e.rem.toNat = s.len.toNat % 16 := by rw [he, enterSector_rem, toNat_remainder]
  have hj : e.j.toNat = 0 := by rw [he]; rfl
  have hr0 : e.rem = 0#4 ↔ s.len.toNat % 16 = 0 := by rw [he, enterSector_rem, remainder_eq_zero_iff]
  have hd : e.dirl = opcodeDir opc := by rw [he, enterSector_dirl]
  have hlast : lastAddr e = offAddr s + 16 * (e.n.toNat - 1) := by rw [he]; rfl
  have hphase : e.phase = if 2 ≤ e.n.toNat then .sBodyX else tailEntry e := by rw [he]; exact enterSector_phase opc s
  have hleft : shapesLeft e = bodyShapes e 0 (e.n.toNat - 1) ++ endShapes e := by
    by_cases h2 : 2 ≤ e.n.toNat
    · rw [if_pos h2] at hphase
      simp only [shapesLeft, hphase, hj, Nat.sub_zero]
    · rw [if_neg h2] at hphase
      have hm : e.n.toNat - 1 = 0 := by omega
      rw [shapesLeft_tailEntry hphase, hm]
      rfl
  obtain ⟨m, hm⟩ : ∃ m, e.n.toNat = m + 1 := ⟨e.n.toNat - 1, by omega⟩
  have hrem : e.rem.toNat = 0 ↔ e.rem = 0#4 := by rw [hr, hr0]
  have hoff : offAddr e = offAddr s := by rw [he]; rfl
  rw [← he, hleft, endShapes, stealShapes, sectorShapes, bodyShapes, hlast, hoff, hd, ← hn, ← hr, hm,
    Nat.add_sub_cancel, List.range_succ, ← List.range_eq_range']
  simp only [hrem, List.flatMap_append, List.flatMap_singleton, List.append_assoc]

theorem exists_sectorCommand_pair {p : Instr × Dir} (h : p ∈ [(Instr.secte, Dir.enc), (Instr.sectd, Dir.dec)]) :
    ∃ d, p = (sectorCommand d, d) := by
  simp only [List.mem_cons, List.not_mem_nil, or_false] at h
  obtain rfl | rfl := h
  · exact ⟨.enc, rfl⟩
  · exact ⟨.dec, rfl⟩

/-- A sector command with no failing check has a sector of at least one block (43_sector_processor.md R153). -/
theorem le_len_of_firstCause {d : Dir} {s : State} (hf : firstCause (sectorCommand d) s = none) :
    16 ≤ s.len.toNat := by
  have := not_lt_of_causes hf .sectorTooShort
  cases d <;> simpa [causeApplies, sectorCommand] using this

/-- A sector command with no failing check makes the transactions of `SectorFn`. -/
theorem exec_sectorCommand_shapes {d : Dir} {s : State} (hp : s.phase = .idle)
    (hf : firstCause (sectorCommand d) s = none) :
    ∃ t, exec (sectorCommand d) s = .next t ∧
      AddsShapes s t (sectorShapes d (offAddr s) (s.len.toNat / 16) (s.len.toNat % 16)) := by
  obtain ⟨t, ht, hrun, hidle, -, -⟩ := exec_complete hp hf
  refine ⟨t, ht, ?_⟩
  have hadd := addsShapes_of_complete (latches_acceptInstr hp hf).1 hrun hidle
  rw [acceptInstr_enter hp hf, enterOf_sectorCommand,
    shapesLeft_enterSector _ (s := clearStatus s) (le_len_of_firstCause hf), opcodeDir_sectorCommand] at hadd
  exact hadd

/-- One request under K1 for each full block, and one more with a tail. -/
theorem requestShapes_sectorShapes (d : Dir) (off n r : Nat) :
    requestShapes (sectorShapes d off n r) = List.replicate (n + if r = 0 then 0 else 1) (.k1, d) := by
  have happend : ∀ l k, requestShapes (l ++ k) = requestShapes l ++ requestShapes k :=
    fun l k => List.filterMap_append
  have hbody : requestShapes ((List.range n).flatMap fun j => xexShapes d (off + 16 * j)) =
      List.replicate n (.k1, d) := by
    induction n with
    | zero => rfl
    | succ n ih =>
      rw [List.range_succ, List.flatMap_append, happend, ih, List.replicate_succ']
      rfl
  rw [sectorShapes, happend, hbody, List.replicate_add]
  split <;> rfl

/-- Settles O35: the run makes the transactions left at acceptance. -/
theorem sectorCommandsAccessTheBlocksInOrder : Obligations.SectorCommandsAccessTheBlocksInOrder := by
  intro p hmem s hp hf
  obtain ⟨d, rfl⟩ := exists_sectorCommand_pair hmem
  obtain ⟨t, ht, hnew⟩ := exec_sectorCommand_shapes hp hf
  obtain ⟨new, hlog, hshapes⟩ := hnew
  exact ⟨t, new, ht, hlog, hshapes⟩

/-- Settles O34: among those transactions each transform has one request, under K1 in the direction of the command. -/
theorem sectorCommandsRequestOncePerTransform : Obligations.SectorCommandsRequestOncePerTransform := by
  intro p hmem s t hp hf ht
  obtain ⟨d, rfl⟩ := exists_sectorCommand_pair hmem
  obtain ⟨t', ht', new, hlog, hshapes⟩ := exec_sectorCommand_shapes hp hf
  obtain rfl : t' = t := Host.Outcome.next.inj (ht'.symm.trans ht)
  have hreq := requests_of_shapes hshapes
  rw [requestShapes_sectorShapes] at hreq
  refine ⟨new, hlog, ?_, fun r hr => ?_⟩
  · simpa using congrArg List.length hreq
  · have hmem : (r.ksel, r.op) ∈ ((requestsOf new).map fun r => (r.ksel, r.op)).reverse :=
      List.mem_reverse.2 (List.mem_map_of_mem hr)
    rw [hreq] at hmem
    exact Prod.mk.inj (List.eq_of_mem_replicate hmem)

end Sys2Proof.Machine
end

section
/-! The phases of a sector command along its run: how long it takes (43_sector_processor.md R169), what its last step
leaves of T and CF (R168), the run without a tail (R172) and the halving on the stealing path (R160). -/

namespace Sys2Proof.Machine

/-! ### The number of steps -/

/-- Before its last step a command is still running, its latches agree with it, and each step has brought it one step
nearer its end. -/
theorem seqRun_before_end {s : State} (hl : LatchesOk s) {k : Nat} (hk : k < stepsLeft s) :
    ∃ u, seqRun k s = .ok u ∧ u.busy = true ∧ u.done = s.done ∧ LatchesOk u ∧ stepsLeft u + k = stepsLeft s := by
  induction k generalizing s with
  | zero =>
    refine ⟨s, rfl, ?_, rfl, hl, rfl⟩
    rw [busy_iff, ne_eq, ← stepsLeft_eq_zero hl]
    omega
  | succ k ih =>
    have hb : s.busy = true := by
      rw [busy_iff, ne_eq, ← stepsLeft_eq_zero hl]
      omega
    obtain ⟨t, ht, hs⟩ := seqStep_stepped s hl hb
    have hleft := hs.left
    obtain ⟨u, hu, hub, hud, hul, hun⟩ := ih hs.latches (by omega)
    have htp : t.phase ≠ .idle := by
      rw [ne_eq, ← stepsLeft_eq_zero hs.latches]
      omega
    have hdone := hs.done
    rw [if_neg htp] at hdone
    exact ⟨u, by rw [seqRun, ht]; exact hu, hub, hud.trans hdone, hul, by omega⟩

/-- An accepted sector command has two steps for each block before the last one, and those of its end
(43_sector_processor.md R169). -/
theorem stepsLeft_enterSector (opc : BitVec 8) (s : State) :
    stepsLeft (enterSector opc s) = 2 * (s.len.toNat / 16 - 1) + tailSteps (enterSector opc s) := by
  have hn : (enterSector opc s).n.toNat = s.len.toNat / 16 := by rw [enterSector_n, toNat_blockCount]
  rw [← hn]
  have hphase := enterSector_phase opc s
  by_cases h2 : 2 ≤ (enterSector opc s).n.toNat
  · rw [if_pos h2] at hphase
    simp only [stepsLeft, hphase]
    rfl
  · rw [if_neg h2] at hphase
    have hm : (enterSector opc s).n.toNat - 1 = 0 := by omega
    rw [hm, stepsLeft, hphase, tailEntry, tailSteps]
    by_cases h0 : (enterSector opc s).rem = 0#4
    · simp only [if_pos h0]
    · simp only [if_neg h0]
      cases (enterSector opc s).dirl <;> rfl

/-- The steps of the stealing end in each direction (43_sector_processor.md R169). -/
def stealSteps : Dir → Nat
  | .enc => 4
  | .dec => 5

theorem tailSteps_eq (s : State) : tailSteps s = if s.rem = 0#4 then 1 else stealSteps s.dirl := by
  unfold tailSteps
  cases s.dirl <;> rfl

/-- Settles O50: a step brings a running command one step nearer its end, and acceptance leaves two steps a block of the
body and those of the end. -/
theorem runningCommandsCompleteOnTime : Obligations.RunningCommandsCompleteOnTime := by
  refine ⟨fun s hi hb => ⟨?_, fun k hk => ?_⟩, fun p hmem s hp hf => ?_⟩
  · obtain ⟨t, ht, hidle, hdone, -⟩ := seqRun_stepsLeft _ s hi.latchesOk hb rfl
    exact ⟨t, ht, hidle, hdone⟩
  · obtain ⟨u, hu, hub, -⟩ := seqRun_before_end hi.latchesOk hk
    exact ⟨u, hu, hub⟩
  · obtain ⟨d, rfl⟩ : ∃ d, p = (sectorCommand d, stealSteps d) := by
      simp only [List.mem_cons, List.not_mem_nil, or_false] at hmem
      obtain rfl | rfl := hmem
      · exact ⟨.enc, rfl⟩
      · exact ⟨.dec, rfl⟩
    rw [acceptInstr_enter hp hf, enterOf_sectorCommand, stepsLeft_enterSector, tailSteps_eq]
    simp only [clearStatus_len, enterSector_rem, enterSector_dirl, opcodeDir_sectorCommand, remainder_eq_zero_iff]

/-! ### The last step -/

/-- A step of a sector command keeps TV and the count of free values, or it is the last one, which draws T and CF
(43_sector_processor.md R168). -/
theorem settle_sector {p : Phase} (hp : isSectorPhase p = true) (s : State) :
    (isSectorPhase (settle p s).phase = true ∧ (settle p s).tv = s.tv ∧ (settle p s).draws = s.draws ∧
      (settle p s).unitNo = s.unitNo) ∨
    (p ∈ [Phase.sLast, .sE4, .sD5] ∧ settle p s = finish s) := by
  cases p with
  | idle | pNop | pDouble | pHalve | pTwgen | pXex | pSwap => cases hp
  | sLast | sE4 | sD5 => exact .inr ⟨by simp, rfl⟩
  | sBodyD => exact .inl ⟨isSectorPhase_afterBody s, rfl, rfl, rfl⟩
  | sBodyX | sE1 | sE2 | sE3 | sD1 | sD2 | sD3 | sD4 => exact .inl ⟨rfl, rfl, rfl, rfl⟩

/-- The transactions of a sector command keep TV, the count of free values and the number of the unit. -/
theorem perform_sector {s : State} (hs : isSectorPhase s.phase = true) :
    ((portAct s).perform s).tv = s.tv ∧ ((portAct s).perform s).draws = s.draws ∧
      ((portAct s).perform s).unitNo = s.unitNo := by
  cases h : portAct s with
  | quiet | xex | swap => exact ⟨rfl, rfl, rfl⟩
  | tweak => cases hp : s.phase <;> simp_all [portAct, isSectorPhase]

/-- Where a sector command accepted in `s` can stand: in a phase of its own with TV as acceptance found it, or idle with
TV = 0 and T and CF drawn. -/
def SectorRun (s u : State) : Prop :=
  (isSectorPhase u.phase = true ∧ u.tv = s.tv ∧ u.draws = s.draws ∧ u.unitNo = s.unitNo) ∨
  (u.phase = .idle ∧ u.tv = false ∧ u.t = Config.freeTweak s.unitNo s.draws ∧
    u.cf = Config.freeCarry s.unitNo s.draws ∧ u.draws = s.draws + 1)

theorem SectorRun.step {s u v : State} (h : SectorRun s u) (hv : seqStep u = .ok v) : SectorRun s v := by
  obtain ⟨hs, htv, hd, hun⟩ | ⟨hp, hrest⟩ := h
  · obtain ⟨-, rfl⟩ := seqStep_ok hv
    obtain ⟨htv', hd', hun'⟩ := perform_sector hs
    obtain ⟨hs2, htv2, hd2, hun2⟩ | ⟨-, hfin⟩ := settle_sector hs ((portAct u).perform u)
    · exact .inl ⟨hs2, htv2.trans (htv'.trans htv), hd2.trans (hd'.trans hd), hun2.trans (hun'.trans hun)⟩
    · rw [hfin]
      refine .inr ⟨rfl, rfl, ?_, ?_, ?_⟩ <;> simp [hd', hd, hun', hun]
  · have huv : u = v := by simpa [seqStep, hp] using hv
    exact .inr (huv ▸ ⟨hp, hrest⟩)

/-- What a completed sector command leaves of TV, T, CF and the count of free values (10_state.md R27). -/
theorem sectorCommand_free {d : Dir} {s t : State} (hp : s.phase = .idle)
    (hf : firstCause (sectorCommand d) s = none) (ht : exec (sectorCommand d) s = .next t) :
    t.phase = .idle ∧ t.done = true ∧ t.tv = false ∧ t.t = Config.freeTweak s.unitNo s.draws ∧
      t.cf = Config.freeCarry s.unitNo s.draws ∧ t.draws = s.draws + 1 := by
  obtain ⟨t', ht', hrun, hidle, hdone, -⟩ := exec_complete hp hf
  obtain rfl : t' = t := Host.Outcome.next.inj (ht'.symm.trans ht)
  rw [acceptInstr_enter hp hf, enterOf_sectorCommand] at hrun
  have hstart : SectorRun s (enterSector (opcode (sectorCommand d)) (clearStatus s)) :=
    .inl ⟨busy_enterSector _ _, rfl, rfl, rfl⟩
  obtain ⟨hsec, -⟩ | ⟨-, hrest⟩ := seqRun_induction (fun u v => SectorRun.step) hstart hrun
  · rw [hidle] at hsec
    cases hsec
  · exact ⟨hidle, hdone, hrest⟩

/-- Settles O30: a sector command that ends without error has run to its last step. -/
theorem sectorCommandsLeaveTweakAndCarryFree : Obligations.SectorCommandsLeaveTweakAndCarryFree := by
  intro i hi s t hp ht herr
  obtain ⟨d, rfl⟩ := exists_eq_sectorCommand hi
  cases hf : firstCause (sectorCommand d) s with
  | some e =>
    obtain rfl := Host.Outcome.next.inj ((exec_error hp hf).symm.trans ht)
    cases herr
  | none =>
    obtain ⟨-, -, -, hrest⟩ := sectorCommand_free hp hf ht
    exact hrest

/-! ### A sector without a tail -/

/-- Where a sector command accepted in `s` can stand when there is no tail: T is `T_J` as long as it runs
(43_sector_processor.md R172). -/
structure AlignedRun (s u : State) : Prop where
  latches : LatchesOk u
  rem : u.rem = 0#4
  phase : u.phase ∈ [Phase.sBodyX, .sBodyD, .sLast, .idle]
  tweak : u.busy = true → u.t = tweakAt s.t u.j.toNat

theorem tailEntry_of_rem_zero {s : State} (h : s.rem = 0#4) : tailEntry s = .sLast := if_pos h

theorem AlignedRun.step {s u v : State} (h : AlignedRun s u) (hv : seqStep u = .ok v) : AlignedRun s v := by
  have hlatches := (kept_of_seqStep h.latches hv).2
  have hrem := h.rem
  have hphase := h.phase
  simp only [List.mem_cons, List.not_mem_nil, or_false] at hphase
  obtain hp | hp | hp | hp := hphase
  · have ht := h.tweak ((busy_iff u).2 (by simp [hp]))
    obtain ⟨-, rfl⟩ := seqStep_ok hv
    simp only [portAct, hp] at hlatches ⊢
    exact ⟨hlatches, hrem, by simp [settle], fun _ => ht⟩
  · have ht := h.tweak ((busy_iff u).2 (by simp [hp]))
    have hj := toNat_nextBlock h.latches hp
    obtain ⟨-, rfl⟩ := seqStep_ok hv
    simp only [portAct, hp] at hlatches ⊢
    refine ⟨hlatches, hrem, ?_, fun _ => ?_⟩
    · simp only [settle, goto_phase, PortAct.perform, tailEntry_of_rem_zero hrem]
      split <;> simp
    · simp only [settle, goto_t, goto_j, PortAct.perform, hj]
      rw [doubleTweak_t, ht]
      rfl
  · obtain ⟨-, rfl⟩ := seqStep_ok hv
    simp only [portAct, hp] at hlatches ⊢
    exact ⟨hlatches, hrem, by simp [settle], fun hb => by cases hb⟩
  · obtain rfl : u = v := by simpa [seqStep, hp] using hv
    exact h

/-- Without a tail every access of a sector command is one of 16 bytes. -/
theorem length_of_mem_sectorShapes {d : Dir} {off n : Nat} {e : PortShape} (h : e ∈ sectorShapes d off n 0) {a l : Nat}
    (he : e = .read a l ∨ e = .write a l) : l = 16 := by
  simp only [sectorShapes, if_true, List.append_nil, List.mem_flatMap, xexShapes, List.mem_cons, List.not_mem_nil,
    or_false] at h
  obtain ⟨j, -, rfl | rfl | rfl | rfl⟩ := h <;> simp at he <;> exact he.2.symm

/-- Settles O32: the run stays in the body, S_LAST and IDLE because TailEntry leads to S_LAST, and its transactions are
the first of those of `SectorFn`, where nothing is swapped. -/
theorem alignedSectorsNeverSteal : Obligations.AlignedSectorsNeverSteal := by
  intro i hi s hp hf h0 k u hrun
  obtain ⟨d, rfl⟩ := exists_eq_sectorCommand hi
  have hl := (latches_acceptInstr hp hf).1
  rw [acceptInstr_enter hp hf, enterOf_sectorCommand] at hrun hl
  have hlen : 16 ≤ (clearStatus s).len.toNat := le_len_of_firstCause hf
  have hrem : (enterSector (opcode (sectorCommand d)) (clearStatus s)).rem = 0#4 :=
    (remainder_eq_zero_iff _).2 h0
  have hstart : AlignedRun s (enterSector (opcode (sectorCommand d)) (clearStatus s)) := by
    refine ⟨hl, hrem, ?_, fun _ => rfl⟩
    rw [enterSector_phase, tailEntry_of_rem_zero hrem]
    split <;> simp
  have haligned := seqRun_induction (fun _ _ => AlignedRun.step) hstart hrun
  obtain ⟨shapes, ⟨new, hnew, hshapes⟩, hleft⟩ := shapesLeft_of_seqRun hl hrun
  rw [shapesLeft_enterSector _ hlen, show (clearStatus s).len.toNat % 16 = 0 from h0] at hleft
  refine ⟨haligned.phase, ⟨new, hnew, fun e he a l hshape => ?_⟩, haligned.tweak⟩
  have hmem : e.shape ∈ shapes := hshapes ▸ List.mem_map_of_mem (List.mem_reverse.2 he)
  have hall := List.mem_append_left (shapesLeft u) hmem
  rw [hleft] at hall
  exact length_of_mem_sectorShapes hall hshape

/-! ### The halving on the stealing path -/

/-- Settles O33: the steps of S_D1 and S_D3 are a doubling and a halving with its carry, and the pass between them
leaves T and CF. -/
theorem halveRestoresTheTweakOnTheStealingPath : Obligations.HalveRestoresTheTweakOnTheStealingPath := by
  intro s hi hp
  obtain ⟨hs, -⟩ := (latchesOk_sector (by rw [hp]; rfl)).1 hi.latchesOk
  have hfit : lastAddr s + 16 ≤ s.bufBytes := by
    have := hs.lastAddr_eq
    have := hs.region
    omega
  obtain ⟨u, hu⟩ : ∃ u, u = xexPost .dec (lastAddr s) (goto .sD2 (doubleTweak s)) := ⟨_, rfl⟩
  have h1 : seqStep s = .ok (goto .sD2 (doubleTweak s)) := by simp only [seqStep, sectorStep, hp, stepD1]
  have h2 : seqStep (goto .sD2 (doubleTweak s)) = .ok (goto .sD3 u) := by
    rw [hu]
    exact seqStep_of_fit (s := goto .sD2 (doubleTweak s)) hfit
  refine ⟨goto .sD4 (halveTweak (goto .sD3 u)), ?_, rfl, ?_, ?_⟩
  · rw [seqRun, h1]
    change (seqStep (goto .sD2 (doubleTweak s)) >>= seqRun 1) = _
    rw [h2]
    rfl
  · rw [hu]
    exact halveUndoesDouble s.t
  · rw [hu]
    exact gfDouble_carry s.t

end Sys2Proof.Machine
end

section
/-! Steps of the machine: the action it takes, and a command taken step by step against the same command as one
transition (46_system.md R212, R218, 45_host_sequences.md R203). -/

namespace Sys2Proof.Machine

/-! ### The inbox and the last answer do not matter to a command -/

/-- The state with another inbox and another last answer. -/
def State.withHost (l : List HostAction) (d : Block) (s : State) : State := { s with inbox := l, rdata := d }

@[simp] theorem State.withHost_done (l : List HostAction) (d : Block) (s : State) :
    (s.withHost l d).done = s.done := rfl

theorem perform_withHost (p : PortAct) (l : List HostAction) (d : Block) (s : State) :
    p.perform (s.withHost l d) = (p.perform s).withHost l d := by cases p <;> rfl

theorem settle_withHost (p : Phase) (l : List HostAction) (d : Block) (s : State) :
    settle p (s.withHost l d) = (settle p s).withHost l d := by cases p <;> rfl

theorem seqStep_withHost (l : List HostAction) (d : Block) (s : State) :
    seqStep (s.withHost l d) = (seqStep s).map (State.withHost l d) := by
  have hact : portAct (s.withHost l d) = portAct s := rfl
  have hbuf : (s.withHost l d).bufBytes = s.bufBytes := rfl
  have hphase : (s.withHost l d).phase = s.phase := rfl
  rw [seqStep_eq, seqStep_eq, hact, hbuf, hphase, perform_withHost, settle_withHost]
  split <;> rfl

theorem seqRun_withHost (k : Nat) (l : List HostAction) (d : Block) (s : State) :
    seqRun k (s.withHost l d) = (seqRun k s).map (State.withHost l d) := by
  induction k generalizing s with
  | zero => rfl
  | succ k ih =>
    rw [seqRun, seqRun, seqStep_withHost]
    cases seqStep s with
    | ok t => exact ih t
    | error f => rfl

theorem acceptInstr_withHost (i : Instr) (l : List HostAction) (d : Block) (s : State) :
    acceptInstr i (s.withHost l d) = (acceptInstr i s).withHost l d := by
  have hcheck : checkOf i (s.withHost l d) = checkOf i s := by cases i <;> rfl
  have hbusy : (s.withHost l d).busy = s.busy := rfl
  simp only [acceptInstr_eq, accept, hcheck, hbusy]
  cases s.busy with
  | true => rfl
  | false =>
    cases checkOf i s with
    | some e => rfl
    | none => cases i <;> rfl

/-! ### The action a step takes -/

theorem step_empty {s : State} (h : s.inbox = []) : step s = advance s := by simp [step, nextStep, h]

theorem commandWord_of_ok {w : Word} {i : Instr} (hd : decode w = .ok i) (s : State) :
    commandWord w s = exec i s := by simp [commandWord, hd]

theorem acceptWord_of_ok {w : Word} {i : Instr} (hd : decode w = .ok i) (s : State) :
    acceptWord w s = acceptInstr i s := by simp [acceptWord, hd]

/-- The word a host places is the one that runs (30_encoding.md R90). -/
theorem step_withFetchWord (s : State) (w : Word) :
    step (s.withFetchWord 32 w.toNat) = commandWord w { s with phase := .idle } := by
  have hw : BitVec.ofNat 32 (w.toNat % 2 ^ 32) = w := by
    rw [Nat.mod_eq_of_lt w.isLt, BitVec.ofNat_toNat, BitVec.setWidth_eq]
  rw [State.withFetchWord, hw]
  rfl

/-- Settles O7: the action is a command word, and its meaning is `exec` of what it decodes to. -/
theorem stepRunsTheDecodedCommand : Obligations.StepRunsTheDecodedCommand := by
  refine ⟨fun s w i rest hd => ?_, fun s i hi => ?_⟩
  · rw [step_cons, hostAct, commandWord_of_ok hd]
  · rw [step_withFetchWord, commandWord_of_ok (decodeOfEncodeIsTheCommand i hi)]

/-- Settles O8: either turn is `advance`, and an idle unit has no step to take. -/
theorem turnsWithoutTransactionRunTheSequencer : Obligations.TurnsWithoutTransactionRunTheSequencer := by
  refine fun s rest => ⟨step_empty, step_cons .pass s rest, fun hp => ?_⟩
  simp only [seqStep, hp]

/-! ### Small steps -/

/-- The acceptance of a command, and enough steps after it, leave what the command as one transition leaves
(46_system.md R218). -/
theorem seqRun_acceptInstr {i : Instr} {s t : State} (hp : s.phase = .idle) (h : exec i s = .next t) {k : Nat}
    (hk : stepsLeft (acceptInstr i s) ≤ k) : seqRun k (acceptInstr i s) = .ok t := by
  obtain ⟨hb, -⟩ | ⟨-, e, hf, rfl⟩ | ⟨-, hf, hrun, hidle, -⟩ := exec_next h
  · exact absurd hp ((busy_iff s).1 hb)
  · rw [acceptInstr_error hp hf]
    exact seqRun_idle _ _ hp
  · obtain ⟨m, rfl⟩ := Nat.exists_eq_add_of_le hk
    rw [seqRun_add, hrun]
    exact seqRun_idle m t hidle

section Run

variable {M : Host.Core} (k : Nat) {s : M.State}

theorem run_of_next {t : M.State} (h : M.step s = .next t) : M.run (k + 1) s = M.run k t := by
  rw [Host.Core.run, h]

theorem run_of_fault {f : M.Fault} (h : M.step s = .fault f) : M.run (k + 1) s = .fault f := by
  rw [Host.Core.run, h]

theorem run_of_refused {r : M.Refusal} (h : M.step s = .refused r) : M.run (k + 1) s = .refused r := by
  rw [Host.Core.run, h]

end Run

/-- A run is a step and the rest of the run. -/
theorem run_succ (k : Nat) (s : State) : Host.Core.run core (k + 1) s = andThen (step s) (Host.Core.run core k) := by
  cases h : step s with
  | next t => exact run_of_next k h
  | fault f => exact run_of_fault k h
  | refused r => exact run_of_refused k h

/-- Turns with no transaction are steps of the sequencer. -/
theorem run_passes (k : Nat) (rest : List HostAction) (d : Block) (s : State) :
    Host.Core.run core k (s.withHost (List.replicate k .pass ++ rest) d) =
      toOutcome (seqRun k (s.withHost rest d)) := by
  induction k generalizing s with
  | zero => rfl
  | succ k ih =>
    have hstep : step (s.withHost (List.replicate (k + 1) .pass ++ rest) d) =
        toOutcome (seqStep (s.withHost (List.replicate k .pass ++ rest) d)) := rfl
    rw [run_succ, hstep, seqRun, seqStep_withHost, seqStep_withHost]
    cases seqStep s with
    | ok t => exact ih t
    | error f => rfl

/-- A write of a well-formed command's word to CMD is the acceptance of the command (46_system.md R212). -/
theorem step_writeCommand {i : Instr} {s : State} (hi : i.wf = true) (hp : s.phase = .idle) (l : List HostAction) :
    step { s with inbox := .write 0#4 ((encode i).setWidth 128) :: l } =
      .next ((acceptInstr i s).withHost l s.rdata) := by
  have hp' : (s.withHost l s.rdata).phase = .idle := hp
  calc step { s with inbox := .write 0#4 ((encode i).setWidth 128) :: l }
      = .next (hostWrite 0#4 ((encode i).setWidth 128) (s.withHost l s.rdata)) := rfl
    _ = .next (acceptInstr i (s.withHost l s.rdata)) := by
        rw [hostWrite_cmd hp', lowWord_setWidth, acceptWord_of_ok (decodeOfEncodeIsTheCommand i hi)]
    _ = .next ((acceptInstr i s).withHost l s.rdata) := by rw [acceptInstr_withHost]

/-- Settles O51: after the write each pass is a step of the sequencer, and the steps the command does not need leave it
as it is. -/
theorem smallStepsAgreeWithTheBigStep : Obligations.SmallStepsAgreeWithTheBigStep := by
  intro i s t rest k hi hp ht hk
  have hp' : (s.withHost rest s.rdata).phase = .idle := hp
  have hrun : seqRun k ((acceptInstr i s).withHost rest s.rdata) = .ok t := by
    rw [← acceptInstr_withHost]
    refine seqRun_acceptInstr hp' ht ?_
    rw [acceptInstr_withHost]
    exact hk
  rw [run_succ, step_writeCommand hi hp]
  exact (run_passes k rest s.rdata (acceptInstr i s)).trans (congrArg toOutcome hrun)

/-! ### WAIT -/

theorem hostRead_status (s : State) : hostRead 1#4 s = s.withHost s.inbox (statusWord s) := rfl

/-- A poll that reads DONE = 1 is the last one (45_host_sequences.md R203). -/
theorem waitTurn_done {s : State} (h : s.done = true) : waitTurn s = .next (hostRead 1#4 s) := if_pos h

/-- A poll that reads DONE = 0 gives the sequencer its turn, and WAIT goes on. -/
theorem waitTurn_not_done {s : State} (h : s.done = false) :
    waitTurn s = toOutcome (seqStep (s.withHost (.wait :: s.inbox) (statusWord s))) := by
  have hdone : ¬(hostRead 1#4 s).done = true := by simp [hostRead_status, State.withHost, h]
  exact if_neg hdone

theorem step_wait (rest : List HostAction) (d : Block) (s : State) :
    step (s.withHost (.wait :: rest) d) = waitTurn (s.withHost rest d) := rfl

/-- While a command runs DONE = 0, and its last step sets DONE. -/
theorem Stepped.done_eq {s t : State} (h : Stepped s t) (hs : s.done = false) : t.done = !t.busy := by
  have hd := h.done
  by_cases hp : t.phase = .idle
  · rw [if_pos hp] at hd
    rw [hd, (busy_false_iff t).2 hp]
    rfl
  · rw [if_neg hp] at hd
    rw [hd, hs, (busy_iff t).2 hp]
    rfl

/-- WAIT polls once before each step of the command and once after the last. -/
theorem run_wait {k : Nat} {s : State} (hl : LatchesOk s) (hd : s.done = !s.busy) (hk : stepsLeft s = k)
    (rest : List HostAction) (d : Block) :
    ∃ t, seqRun k s = .ok t ∧
      Host.Core.run core (k + 1) (s.withHost (.wait :: rest) d) = .next (t.withHost rest (statusWord t)) := by
  induction k generalizing s d with
  | zero =>
    have hp := (stepsLeft_eq_zero hl).1 hk
    have hdone : (s.withHost rest d).done = true := by
      rw [State.withHost_done, hd, (busy_false_iff s).2 hp]
      rfl
    rw [run_succ, step_wait, waitTurn_done hdone]
    exact ⟨s, rfl, rfl⟩
  | succ k ih =>
    have hb : s.busy = true := by
      rw [busy_iff, ne_eq, ← stepsLeft_eq_zero hl]
      omega
    have hdone : (s.withHost rest d).done = false := by
      rw [State.withHost_done, hd, hb]
      rfl
    obtain ⟨u, hu, hs⟩ := seqStep_stepped s hl hb
    have hleft := hs.left
    obtain ⟨t, ht, hrun⟩ := ih hs.latches (hs.done_eq (hd.trans (by rw [hb]; rfl))) (by omega) (statusWord s)
    refine ⟨t, by rw [seqRun, hu]; exact ht, ?_⟩
    rw [run_succ, step_wait, waitTurn_not_done hdone]
    change andThen (toOutcome (seqStep (s.withHost (.wait :: rest) (statusWord s)))) _ = _
    rw [seqStep_withHost, hu]
    exact hrun

theorem latchesOk_idle {s : State} (h : s.phase = .idle) : LatchesOk s := by simp only [LatchesOk, h]

/-- Acceptance leaves the latches right, and DONE = 1 exactly when the command has already ended. -/
theorem acceptInstr_status {i : Instr} {s : State} (hp : s.phase = .idle) :
    LatchesOk (acceptInstr i s) ∧ (acceptInstr i s).done = !(acceptInstr i s).busy := by
  cases hf : firstCause i s with
  | some e =>
    have hidle : (raiseError e (clearStatus s)).phase = .idle := hp
    rw [acceptInstr_error hp hf, (busy_false_iff _).2 hidle]
    exact ⟨latchesOk_idle hidle, rfl⟩
  | none =>
    obtain ⟨hl, hb⟩ := latches_acceptInstr hp hf
    rw [hb, acceptInstr_enter hp hf] at *
    exact ⟨hl, (status_enterOf i s).1⟩

/-- Settles O52: WAIT runs the accepted command to its end, and its last read is of the STATUS it leaves. -/
theorem waitEndsWithTheStatusOfTheCommand : Obligations.WaitEndsWithTheStatusOfTheCommand := by
  intro i s t rest hi hp ht
  have hp' : (s.withHost rest s.rdata).phase = .idle := hp
  obtain ⟨hl, hd⟩ := acceptInstr_status (i := i) hp
  obtain ⟨u, hu, hrun⟩ := run_wait hl hd rfl rest s.rdata
  have htu : .ok t = (seqRun (stepsLeft (acceptInstr i s)) (acceptInstr i s)).map (State.withHost rest s.rdata) := by
    rw [← seqRun_withHost, ← acceptInstr_withHost]
    exact (seqRun_acceptInstr hp' ht (by rw [acceptInstr_withHost]; exact le_rfl)).symm
  rw [hu] at htu
  obtain rfl : t = u.withHost rest s.rdata := Except.ok.inj htu
  rw [run_succ, step_writeCommand hi hp]
  exact hrun

end Sys2Proof.Machine
end

section
/-! The invariant of the machine (`State.Inv`): reset meets it and every step keeps it; and what can stop a step
(20_memory.md R60, R79, 70_reset_and_hazards.md R275). -/

namespace Sys2Proof.Machine

/-! ### Reset -/

/-- Settles O46: the buffer is empty and the unit idle. -/
theorem resetMeetsTheInvariant : Obligations.ResetMeetsTheInvariant where
  memWf := rfl
  memBelow := rfl
  bufBytesOk := by decide
  statusOk := by decide
  ecodeOk := by decide
  inflightOk := rfl
  latchesOk := trivial

/-- The range of a running command lies in the buffer (20_memory.md R64). -/
theorem ownedRanges_le {s : State} (hl : LatchesOk s) : ∀ r ∈ ownedRanges s, r.1 + r.2 ≤ s.bufBytes := by
  by_cases hsec : isSectorPhase s.phase = true
  · have hregion := ((latchesOk_sector hsec).1 hl).1.region
    simpa [ownedRanges_sector hsec] using hregion
  · cases hp : s.phase with
    | idle | pNop | pDouble | pHalve | pTwgen => simp [ownedRanges, hp]
    | pXex =>
      simp only [LatchesOk, hp] at hl
      simpa [ownedRanges, hp] using hl.2.2.2
    | pSwap =>
      simp only [LatchesOk, hp] at hl
      simp [ownedRanges, hp]
      omega
    | sBodyX | sBodyD | sLast | sE1 | sE2 | sE3 | sE4 | sD1 | sD2 | sD3 | sD4 | sD5 =>
      rw [hp] at hsec
      exact absurd rfl hsec

section Scramble

variable (u d : Nat) (rs : List (Nat × Nat)) {m : Memory}

theorem wf_scramble (hw : m.wf = true) : (rs.foldl (scrambleRange u d) m).wf = true := by
  induction rs generalizing m with
  | nil => exact hw
  | cons r rs ih => exact ih (Memory.wf_writeBytes _ _ hw)

theorem below_scramble {limit : Nat} (hr : ∀ r ∈ rs, r.1 + r.2 ≤ limit) (hb : m.below limit = true) :
    (rs.foldl (scrambleRange u d) m).below limit = true := by
  induction rs generalizing m with
  | nil => exact hb
  | cons r rs ih =>
    refine ih (fun q hq => hr q (List.mem_cons_of_mem r hq)) (Memory.below_writeBytes ?_ hb)
    simpa using hr r List.mem_cons_self

theorem read_scramble_outside {x : Nat} (hx : inRanges rs x = false) (hw : m.wf = true) :
    (rs.foldl (scrambleRange u d) m).read x = m.read x := by
  induction rs generalizing m with
  | nil => rfl
  | cons r rs ih =>
    rw [not_inRanges_iff] at hx
    have hr := hx r List.mem_cons_self
    have hrest : inRanges rs x = false := not_inRanges_iff.2 fun q hq => hx q (List.mem_cons_of_mem r hq)
    exact (ih hrest (Memory.wf_writeBytes _ _ hw)).trans (Memory.read_writeBytes_outside hw (by simpa using hr))

end Scramble

/-- Settles O15: the registers are those of reset, and only the ranges of the ended command are scrambled. -/
theorem resetWhileBusyLosesOnlyTheCommandRange : Obligations.ResetWhileBusyLosesOnlyTheCommandRange := by
  intro s rest hi _
  refine ⟨_, step_cons .reset s rest, rfl, rfl, rfl, rfl, rfl, rfl, rfl, rfl, rfl, rfl, rfl, rfl, fun a ha => ?_⟩
  rw [owns_one] at ha
  exact read_scramble_outside s.unitNo s.draws (ownedRanges s) ha hi.memWf

/-! ### What the invariant does not depend on -/

section Keeps

variable {s : State} (h : s.Inv)
include h

/-- The record of the host and the keys. -/
theorem State.Inv.record (l : List HostAction) (d : Block) (b : List Byte) (k : Nat) (k1 k2 : Key) :
    State.Inv { s with inbox := l, rdata := d, bdata := b, draws := k, k1 := k1, k2 := k2 } :=
  ⟨h.memWf, h.memBelow, h.bufBytesOk, h.statusOk, h.ecodeOk, h.inflightOk, h.latchesOk⟩

/-- Which canonical contents stand in the buffer. -/
theorem State.Inv.setMem {m : Memory} (hw : m.wf = true) (hb : m.below s.bufBytes = true) :
    State.Inv { s with mem := m } :=
  ⟨hw, hb, h.bufBytesOk, h.statusOk, h.ecodeOk, h.inflightOk, h.latchesOk⟩

/-- On an idle unit, the registers the host can write. -/
theorem State.Inv.registers (hp : s.phase = .idle) (t : Block) (tv : Bool) (sidx : Block) (off len : Word)
    (cf : Bool) : State.Inv { s with t := t, tv := tv, sidx := sidx, off := off, len := len, cf := cf } :=
  ⟨h.memWf, h.memBelow, h.bufBytesOk, h.statusOk, h.ecodeOk, h.inflightOk, latchesOk_idle hp⟩

end Keeps

/-! ### Commands -/

/-- The codes of 60_exceptions.md R230 are 1 to 4. -/
theorem code_legal (e : ErrorCause) : e.code ≠ 0#4 ∧ e.code.toNat ≤ 4 := by cases e <;> decide

/-- An error completion leaves a legal STATUS (60_exceptions.md R241). -/
theorem inv_raiseError {s : State} (h : s.Inv) (hp : s.phase = .idle) (e : ErrorCause) :
    (raiseError e (clearStatus s)).Inv where
  memWf := h.memWf
  memBelow := h.memBelow
  bufBytesOk := h.bufBytesOk
  statusOk := ⟨fun hb => absurd hp ((busy_iff _).1 hb), fun _ => rfl⟩
  ecodeOk := ⟨iff_of_true (code_legal e).1 rfl, (code_legal e).2⟩
  inflightOk := h.inflightOk
  latchesOk := latchesOk_idle hp

/-- Acceptance clears STATUS, and loads latches that agree with the command. -/
theorem inv_enterOf {i : Instr} {s : State} (h : s.Inv) (hf : firstCause i s = none) :
    (enterOf i (clearStatus s)).Inv := by
  obtain ⟨hdone, herr, hecode⟩ := status_enterOf i s
  obtain ⟨-, -, -, hbuf, -⟩ := hostSideSame_enterOf i s
  refine ⟨?_, ?_, ?_, ?_, ?_, ?_, latches_enterOf hf⟩
  · rw [enterOf_mem]
    exact h.memWf
  · rw [enterOf_mem, hbuf]
    exact h.memBelow
  · rw [hbuf]
    exact h.bufBytesOk
  · rw [hdone, herr]
    exact ⟨fun _ => ⟨rfl, rfl⟩, nofun⟩
  · rw [hecode, herr]
    decide
  · cases i <;> exact h.inflightOk

theorem inv_acceptInstr {s : State} (h : s.Inv) (hp : s.phase = .idle) (i : Instr) : (acceptInstr i s).Inv := by
  cases hf : firstCause i s with
  | some e =>
    rw [acceptInstr_error hp hf]
    exact inv_raiseError h hp e
  | none =>
    rw [acceptInstr_enter hp hf]
    exact inv_enterOf h hf

theorem inv_seqStep {s t : State} (h : s.Inv) (ht : seqStep s = .ok t) : t.Inv := by
  by_cases hp : s.phase = .idle
  · obtain rfl : s = t := by simpa [seqStep, hp] using ht
    exact h
  · have hb := (busy_iff s).2 hp
    obtain ⟨u, hu, hs⟩ := seqStep_stepped s h.latchesOk hb
    obtain rfl : u = t := Except.ok.inj (hu.symm.trans ht)
    exact hs.inv h hb

theorem inv_exec {i : Instr} {s t : State} (h : s.Inv) (ht : exec i s = .next t) : t.Inv := by
  obtain ⟨-, rfl⟩ | ⟨hp, e, -, rfl⟩ | ⟨hp, -, hrun, -⟩ := exec_next ht
  · exact h
  · exact inv_raiseError h hp e
  · exact seqRun_induction (fun _ _ => inv_seqStep) (inv_acceptInstr h hp i) hrun

/-! ### Actions of the host and of other agents -/

theorem inv_acceptReserved {s : State} (h : s.Inv) : (acceptReserved s).Inv := by
  by_cases hp : s.phase = .idle
  · rw [acceptReserved_idle hp]
    exact inv_raiseError h hp .illegalCommand
  · have hlost : acceptReserved s = s := if_pos ((busy_iff s).2 hp)
    rwa [hlost]

theorem inv_commandWord {w : Word} {s t : State} (h : s.Inv) (ht : commandWord w s = .next t) : t.Inv := by
  cases hd : decode w with
  | ok i =>
    rw [commandWord_of_ok hd] at ht
    exact inv_exec h ht
  | error e =>
    rw [commandWord_of_error hd] at ht
    exact Host.Outcome.next.inj ht ▸ inv_acceptReserved h

theorem inv_acceptWord {s : State} (h : s.Inv) (hp : s.phase = .idle) (w : Word) : (acceptWord w s).Inv := by
  cases hd : decode w with
  | ok i =>
    rw [acceptWord_of_ok hd]
    exact inv_acceptInstr h hp i
  | error e =>
    rw [acceptWord_of_error hd]
    exact inv_acceptReserved h

theorem inv_hostWrite {s : State} (h : s.Inv) (idx : BitVec 4) (d : Block) : (hostWrite idx d s).Inv := by
  cases hb : s.busy with
  | true => rwa [hostWrite_of_busy hb]
  | false =>
    have hp := (busy_false_iff s).1 hb
    rw [hostWrite, if_neg (by simp [hb])]
    split
    · exact inv_acceptWord h hp _
    · exact h.registers hp ..
    · exact h.registers hp ..
    · exact h.registers hp ..
    · exact h.registers hp ..
    · exact h.registers hp ..
    · exact h

/-- A read changes the last answer and the count of free values at most (46_system.md R211). -/
theorem hostRead_fields (idx : BitVec 4) (s : State) : ∃ d k, hostRead idx s = { s with rdata := d, draws := k } := by
  unfold hostRead
  split
  case h_4 => split <;> exact ⟨_, _, rfl⟩
  case h_6 => split <;> exact ⟨_, _, rfl⟩
  all_goals exact ⟨_, _, rfl⟩

theorem inv_hostRead {s : State} (h : s.Inv) (idx : BitVec 4) : (hostRead idx s).Inv := by
  obtain ⟨d, k, hr⟩ := hostRead_fields idx s
  rw [hr]
  exact h.record ..

/-- The turn of the sequencer answers from every state whose latches agree with the command. -/
theorem advance_answers {s : State} (hl : LatchesOk s) : ∃ t, advance s = .next t ∧ seqStep s = .ok t := by
  by_cases hp : s.phase = .idle
  · have hs : seqStep s = .ok s := by simp only [seqStep, hp]
    exact ⟨s, by rw [advance, hs]; rfl, hs⟩
  · obtain ⟨t, ht, -⟩ := seqStep_stepped s hl ((busy_iff s).2 hp)
    exact ⟨t, by rw [advance, ht]; rfl, ht⟩

theorem seqStep_of_advance {s t : State} (h : advance s = .next t) : seqStep s = .ok t := by
  unfold advance at h
  cases hs : seqStep s with
  | ok u => rw [hs] at h; exact congrArg Except.ok (Host.Outcome.next.inj h)
  | error f => rw [hs] at h; cases h

/-- A poll of WAIT is the last read of STATUS, or a turn of the sequencer after one. -/
theorem waitTurn_cases (s : State) :
    waitTurn s = .next (hostRead 1#4 s) ∨
    waitTurn s = advance (s.withHost (.wait :: s.inbox) (statusWord s)) := by
  cases hd : s.done with
  | true => exact .inl (waitTurn_done hd)
  | false => exact .inr (waitTurn_not_done hd)

theorem agentRead_next {a n : Nat} {s t : State} (h : agentRead a n s = .next t) :
    t = { s with bdata := s.mem.readBytes a n } := by
  unfold agentRead at h
  split at h
  · cases h
  · split at h
    · cases h
    · exact (Host.Outcome.next.inj h).symm

theorem agentWrite_next {a : Nat} {bs : List Byte} {s t : State} (h : agentWrite a bs s = .next t) :
    a + bs.length ≤ s.bufBytes ∧ t = { s with mem := s.mem.writeBytes a bs } := by
  unfold agentWrite at h
  split at h
  · cases h
  next hin =>
    split at h
    · cases h
    · exact ⟨by simpa [inBuffer] using hin, (Host.Outcome.next.inj h).symm⟩

theorem bindKeys_next {k1 k2 : Key} {s t : State} (h : bindKeys k1 k2 s = .next t) :
    t = { s with k1 := k1, k2 := k2 } := by
  unfold bindKeys at h
  split at h
  · cases h
  · exact (Host.Outcome.next.inj h).symm

/-- The reset input leaves the register values of `State.reset` over a buffer of the same size. -/
theorem inv_resetUnit {s : State} (h : s.Inv) : (resetUnit s).Inv where
  memWf := wf_scramble _ _ _ h.memWf
  memBelow := below_scramble _ _ _ (ownedRanges_le h.latchesOk) h.memBelow
  bufBytesOk := h.bufBytesOk
  statusOk := resetMeetsTheInvariant.statusOk
  ecodeOk := resetMeetsTheInvariant.ecodeOk
  inflightOk := rfl
  latchesOk := trivial

theorem inv_hostAct {a : HostAction} {s t : State} (h : s.Inv) (ht : hostAct a s = .next t) : t.Inv := by
  cases a with
  | pass => exact inv_seqStep h (seqStep_of_advance ht)
  | command w => exact inv_commandWord h ht
  | write idx d => exact Host.Outcome.next.inj ht ▸ inv_hostWrite h idx d
  | read idx => exact Host.Outcome.next.inj ht ▸ inv_hostRead h idx
  | wait =>
    obtain hw | hw := waitTurn_cases s
    · exact Host.Outcome.next.inj (hw.symm.trans ht) ▸ inv_hostRead h 1#4
    · have hi : (s.withHost (.wait :: s.inbox) (statusWord s)).Inv := h.record ..
      exact inv_seqStep hi (seqStep_of_advance (hw.symm.trans ht))
  | bufRead a n => exact agentRead_next ht ▸ h.record ..
  | bufWrite a bs =>
    obtain ⟨hfit, rfl⟩ := agentWrite_next ht
    exact h.setMem (Memory.wf_writeBytes a bs h.memWf) (Memory.below_writeBytes hfit h.memBelow)
  | bindKeys k1 k2 => exact bindKeys_next ht ▸ h.record ..
  | reset => exact Host.Outcome.next.inj ht ▸ inv_resetUnit h

theorem step_of_inbox {s : State} {a : HostAction} {rest : List HostAction} (h : s.inbox = a :: rest) :
    step s = hostAct a { s with inbox := rest } := by simp [step, nextStep, h]

/-- Settles O47: whichever action a step takes keeps the invariant, and so does the sequencer. -/
theorem everyStepKeepsTheInvariant : Obligations.EveryStepKeepsTheInvariant := by
  intro s t h ht
  cases hin : s.inbox with
  | nil =>
    rw [step_empty hin] at ht
    exact inv_seqStep h (seqStep_of_advance ht)
  | cons a rest =>
    rw [step_of_inbox hin] at ht
    exact inv_hostAct (h.record rest s.rdata s.bdata s.draws s.k1 s.k2) ht

/-! ### What stops a step -/

theorem commandWord_answers (w : Word) (s : State) : ∃ t, commandWord w s = .next t := by
  cases hd : decode w with
  | ok i =>
    rw [commandWord_of_ok hd]
    exact exec_answers i s
  | error e => exact ⟨_, commandWord_of_error hd s⟩

theorem advance_ne_refused (s : State) (r : Refusal) : advance s ≠ .refused r := by
  unfold advance
  cases seqStep s <;> nofun

/-- Another agent's access faults above BUF_BYTES only (20_memory.md R60). -/
theorem bufBytes_lt_of_not_inBuffer {s : State} {a n : Nat} (h : (!inBuffer s a n) = true) : s.bufBytes < a + n := by
  simpa [inBuffer] using h

theorem agentRead_stops {a n : Nat} {s : State} :
    (∀ f, agentRead a n s = .fault f → f = .outsideBuffer ∧ s.bufBytes < a + n) ∧
    ∀ r, agentRead a n s = .refused r → r = .bufferRace ∧ owns s a n = true := by
  unfold agentRead
  split
  next hin => exact ⟨fun f hf => by cases hf; exact ⟨rfl, bufBytes_lt_of_not_inBuffer hin⟩, nofun⟩
  next =>
    split
    next hown => exact ⟨nofun, fun r hr => by cases hr; exact ⟨rfl, hown⟩⟩
    next => exact ⟨nofun, nofun⟩

theorem agentWrite_stops {a : Nat} {bs : List Byte} {s : State} :
    (∀ f, agentWrite a bs s = .fault f → f = .outsideBuffer ∧ s.bufBytes < a + bs.length) ∧
    ∀ r, agentWrite a bs s = .refused r → r = .bufferRace ∧ owns s a bs.length = true := by
  unfold agentWrite
  split
  next hin => exact ⟨fun f hf => by cases hf; exact ⟨rfl, bufBytes_lt_of_not_inBuffer hin⟩, nofun⟩
  next =>
    split
    next hown => exact ⟨nofun, fun r hr => by cases hr; exact ⟨rfl, hown⟩⟩
    next => exact ⟨nofun, nofun⟩

theorem bindKeys_stops {k1 k2 : Key} {s : State} :
    (∀ f, bindKeys k1 k2 s ≠ .fault f) ∧
    ∀ r, bindKeys k1 k2 s = .refused r →
      r = .keysChangedWhileBusy ∧ s.busy = true ∧ ¬(k1 = s.k1 ∧ k2 = s.k2) := by
  unfold bindKeys
  split
  next hc =>
    exact ⟨nofun, fun r hr => by cases hr; exact ⟨rfl, by simpa [changesKeysWhileBusy, imp_iff_not_or] using hc⟩⟩
  next => exact ⟨nofun, nofun⟩

/-- An idle unit owns no byte. -/
theorem busy_of_owns {s : State} {a n : Nat} (h : owns s a n = true) : s.busy = true := by
  by_contra hb
  rw [Bool.not_eq_true, busy_false_iff] at hb
  simp [owns, ownedRanges_idle hb] at h

/-- Settles O48: the sequencer answers from legal latches, a command answers from every state, and what is left are the
accesses of other agents. -/
theorem legalStatesFaultOnlyByForeignAddresses : Obligations.LegalStatesFaultOnlyByForeignAddresses := by
  intro s f h hf
  have hadvance : ∀ u : State, LatchesOk u → advance u ≠ .fault f := by
    intro u hu hfu
    obtain ⟨t, ht, -⟩ := advance_answers hu
    rw [ht] at hfu
    cases hfu
  cases hin : s.inbox with
  | nil =>
    rw [step_empty hin] at hf
    exact absurd hf (hadvance s h.latchesOk)
  | cons a rest =>
    have hi : State.Inv { s with inbox := rest } := h.record rest s.rdata s.bdata s.draws s.k1 s.k2
    rw [step_of_inbox hin] at hf
    cases a with
    | pass => exact absurd hf (hadvance _ hi.latchesOk)
    | command w =>
      obtain ⟨t, ht⟩ := commandWord_answers w { s with inbox := rest }
      rw [hostAct, ht] at hf
      cases hf
    | write | read | reset => cases hf
    | wait =>
      obtain hw | hw := waitTurn_cases { s with inbox := rest } <;> rw [hostAct, hw] at hf
      · cases hf
      · exact absurd hf (hadvance _ (hi.record ..).latchesOk)
    | bufRead a n =>
      obtain ⟨hname, hout⟩ := agentRead_stops.1 f hf
      exact ⟨hname, rest, .inl ⟨a, n, rfl, hout⟩⟩
    | bufWrite a bs =>
      obtain ⟨hname, hout⟩ := agentWrite_stops.1 f hf
      exact ⟨hname, rest, .inr ⟨a, bs, rfl, hout⟩⟩
    | bindKeys k1 k2 => exact absurd hf (bindKeys_stops.1 f)

/-- Settles O49: the sequencer and the commands refuse nothing, and an idle unit owns no byte. -/
theorem stepsAreRefusedOnlyForHostViolations : Obligations.StepsAreRefusedOnlyForHostViolations := by
  intro s r hr
  cases hin : s.inbox with
  | nil =>
    rw [step_empty hin] at hr
    exact absurd hr (advance_ne_refused s r)
  | cons a rest =>
    rw [step_of_inbox hin] at hr
    cases a with
    | pass => exact absurd hr (advance_ne_refused _ r)
    | command w =>
      obtain ⟨t, ht⟩ := commandWord_answers w { s with inbox := rest }
      rw [hostAct, ht] at hr
      cases hr
    | write | read | reset => cases hr
    | wait =>
      obtain hw | hw := waitTurn_cases { s with inbox := rest } <;> rw [hostAct, hw] at hr
      · cases hr
      · exact absurd hr (advance_ne_refused _ r)
    | bufRead a n =>
      obtain ⟨hname, hown⟩ := agentRead_stops.2 r hr
      exact ⟨busy_of_owns hown, rest, .inl ⟨hname, .inl ⟨a, n, rfl, hown⟩⟩⟩
    | bufWrite a bs =>
      obtain ⟨hname, hown⟩ := agentWrite_stops.2 r hr
      exact ⟨busy_of_owns hown, rest, .inl ⟨hname, .inr ⟨a, bs, rfl, hown⟩⟩⟩
    | bindKeys k1 k2 =>
      obtain ⟨hname, hbusy, hkeys⟩ := bindKeys_stops.2 r hr
      exact ⟨hbusy, rest, .inr ⟨hname, k1, k2, rfl, hkeys⟩⟩

end Sys2Proof.Machine
end

section
/-! What commands and steps do to T, TV and CF (10_state.md R22, R29), and that no request under K2 is a decryption
(41_tweak_generator.md R132). -/

namespace Sys2Proof.Machine

/-! ### The commands of one step -/

theorem seqRun_one (s : State) : seqRun 1 s = seqStep s := by
  rw [seqRun]
  cases seqStep s <;> rfl

/-- Every command but the sector commands takes one step (46_system.md R215). -/
theorem stepsLeft_enterOf {i : Instr} (hi : i ∉ [Instr.secte, .sectd]) (s : State) :
    stepsLeft (enterOf i (clearStatus s)) = 1 := by
  cases i with
  | nop | double | halve | twgen | xexe | xexd | ctsswap => rfl
  | secte | sectd => simp at hi

theorem seqStep_of_exec {i : Instr} {s t : State} (hi : i ∉ [Instr.secte, .sectd]) (hp : s.phase = .idle)
    (hf : firstCause i s = none) (h : exec i s = .next t) : seqStep (enterOf i (clearStatus s)) = .ok t := by
  obtain ⟨u, hu, hrun, -⟩ := exec_complete hp hf
  obtain rfl : u = t := Host.Outcome.next.inj (hu.symm.trans h)
  rwa [acceptInstr_enter hp hf, stepsLeft_enterOf hi, seqRun_one] at hrun

/-- What a command of one step does to CF, TV and T. -/
theorem flags_of_oneStep {i : Instr} {s t : State} (hi : i ∉ [Instr.secte, .sectd]) (hp : s.phase = .idle)
    (hf : firstCause i s = none) (h : exec i s = .next t) :
    (i ≠ .double → t.cf = s.cf) ∧ (i ≠ .twgen → t.tv = s.tv) ∧ (i ∉ [Instr.double, .halve, .twgen] → t.t = s.t) ∧
      (i = .twgen → t.tv = true) := by
  obtain ⟨-, rfl⟩ := seqStep_ok (seqStep_of_exec hi hp hf h)
  cases i with
  | nop | xexe | xexd | ctsswap => exact ⟨fun _ => rfl, fun _ => rfl, fun _ => rfl, nofun⟩
  | double => exact ⟨fun h => absurd rfl h, fun _ => rfl, fun h => absurd (by simp) h, nofun⟩
  | halve => exact ⟨fun _ => rfl, fun _ => rfl, fun h => absurd (by simp) h, nofun⟩
  | twgen => exact ⟨fun _ => rfl, fun h => absurd rfl h, fun h => absurd (by simp) h, fun _ => rfl⟩
  | secte | sectd => simp at hi

theorem firstCause_twgen (s : State) : firstCause .twgen s = none := (checkOf_eq .twgen s).symm

/-- Settles O41: a command that ends in an error has changed STATUS only, a command of one step does what its step does,
and a sector command draws T and CF and clears TV. -/
theorem commandsKeepTheFlagsTheyDoNotName : Obligations.CommandsKeepTheFlagsTheyDoNotName := by
  intro i s t hp h
  cases hf : firstCause i s with
  | some e =>
    obtain rfl := Host.Outcome.next.inj ((exec_error hp hf).symm.trans h)
    refine ⟨fun _ => ⟨rfl, rfl, rfl⟩, fun _ => rfl, fun _ => rfl, fun _ => rfl, fun hi => ?_,
      fun _ herr => by cases herr⟩
    rw [hi, firstCause_twgen] at hf
    cases hf
  | none =>
    have herr : t.err = false := by
      obtain ⟨u, hu, -, -, -, hk⟩ := exec_complete hp hf
      obtain rfl : u = t := Host.Outcome.next.inj (hu.symm.trans h)
      rw [acceptInstr_enter hp hf] at hk
      exact hk.err.trans (status_enterOf i s).2.1
    by_cases hsec : i ∈ [Instr.secte, .sectd]
    · obtain ⟨d, rfl⟩ := exists_eq_sectorCommand hsec
      obtain ⟨-, -, htv, -⟩ := sectorCommand_free hp hf h
      refine ⟨fun he => ?_, fun hi => ?_, fun hi => ?_, fun hi => ?_, fun hi => ?_, fun _ _ => htv⟩
      · rw [herr] at he
        cases he
      all_goals cases d <;> simp [sectorCommand] at hi
    · obtain ⟨hcf, htv, ht, htwgen⟩ := flags_of_oneStep hsec hp hf h
      simp only [List.mem_cons, List.not_mem_nil, or_false, not_or] at hsec ht ⊢
      refine ⟨fun he => ?_, fun hi => hcf hi.1, fun hi => htv hi.1, fun hi => ht ⟨hi.1, hi.2.1, hi.2.2.1⟩, htwgen,
        fun hi => absurd hi (by tauto)⟩
      rw [herr] at he
      cases he

/-! ### TV over every step (10_state.md R22) -/

/-- A step of the sequencer changes TV only where TWGEN or a sector command completes. -/
theorem tv_of_seqStep {s t : State} (h : seqStep s = .ok t) : t.tv = s.tv ∨ (t.done = true ∧ t.phase = .idle ∧
    (s.phase = .pTwgen ∧ t.tv = true ∨ s.phase ∈ [Phase.sLast, .sE4, .sD5] ∧ t.tv = false)) := by
  obtain ⟨-, rfl⟩ := seqStep_ok h
  by_cases hsec : isSectorPhase s.phase = true
  · obtain ⟨htv, -⟩ := perform_sector hsec
    obtain ⟨-, htv', -⟩ | ⟨hlast, hfin⟩ := settle_sector hsec ((portAct s).perform s)
    · exact .inl (htv'.trans htv)
    · rw [hfin]
      exact .inr ⟨rfl, rfl, .inr ⟨hlast, rfl⟩⟩
  · cases hp : s.phase with
    | idle | pNop | pDouble | pHalve | pXex | pSwap => exact .inl (by simp only [portAct, hp]; rfl)
    | pTwgen => exact .inr (by simp only [portAct, hp]; exact ⟨rfl, rfl, .inl ⟨trivial, rfl⟩⟩)
    | sBodyX | sBodyD | sLast | sE1 | sE2 | sE3 | sE4 | sD1 | sD2 | sD3 | sD4 | sD5 =>
      rw [hp] at hsec
      exact absurd rfl hsec

/-- A command changes TV only where TWGEN or a sector command completes. -/
theorem tv_of_exec {i : Instr} {s t : State} (h : exec i s = .next t) : t.tv = s.tv ∨ (t.done = true ∧ t.phase = .idle ∧
    (i = .twgen ∧ t.tv = true ∨ i ∈ [Instr.secte, .sectd] ∧ t.tv = false)) := by
  obtain ⟨-, rfl⟩ | ⟨-, e, -, rfl⟩ | ⟨hp, hf, -, hidle, hdone, -⟩ := exec_next h
  · exact .inl rfl
  · exact .inl rfl
  · by_cases hsec : i ∈ [Instr.secte, .sectd]
    · obtain ⟨d, rfl⟩ := exists_eq_sectorCommand hsec
      obtain ⟨-, -, htv, -⟩ := sectorCommand_free hp hf h
      exact .inr ⟨hdone, hidle, .inr ⟨hsec, htv⟩⟩
    · obtain ⟨-, htv, -, htwgen⟩ := flags_of_oneStep hsec hp hf h
      by_cases hi : i = .twgen
      · exact .inr ⟨hdone, hidle, .inl ⟨hi, htwgen hi⟩⟩
      · exact .inl (htv hi)

/-! ### What acceptance and a host write leave -/

theorem accept_same (i : Instr) (s : State) :
    (acceptInstr i s).tv = s.tv ∧ (acceptInstr i s).portLog = s.portLog := by
  by_cases hp : s.phase = .idle
  · cases hf : firstCause i s with
    | some e =>
      rw [acceptInstr_error hp hf]
      exact ⟨rfl, rfl⟩
    | none =>
      rw [acceptInstr_enter hp hf]
      cases i <;> exact ⟨rfl, rfl⟩
  · have hlost : acceptInstr i s = s := by
      rw [acceptInstr_eq]
      exact if_pos ((busy_iff s).2 hp)
    rw [hlost]
    exact ⟨rfl, rfl⟩

theorem acceptReserved_same (s : State) :
    (acceptReserved s).tv = s.tv ∧ (acceptReserved s).portLog = s.portLog := by
  unfold acceptReserved accept
  split <;> exact ⟨rfl, rfl⟩

theorem acceptWord_same (w : Word) (s : State) :
    (acceptWord w s).tv = s.tv ∧ (acceptWord w s).portLog = s.portLog := by
  cases hd : decode w with
  | ok i =>
    rw [acceptWord_of_ok hd]
    exact accept_same i s
  | error e =>
    rw [acceptWord_of_error hd]
    exact acceptReserved_same s

/-- A host write makes no transaction on the ports, and changes TV at index 4 only (10_state.md R22). -/
theorem hostWrite_same (idx : BitVec 4) (d : Block) (s : State) :
    ((hostWrite idx d s).tv = s.tv ∨ idx = 4#4 ∧ (hostWrite idx d s).tv = true) ∧
      (hostWrite idx d s).portLog = s.portLog := by
  unfold hostWrite
  split
  · exact ⟨.inl rfl, rfl⟩
  · split
    · exact ⟨.inl (acceptWord_same _ s).1, (acceptWord_same _ s).2⟩
    · exact ⟨.inl rfl, rfl⟩
    · exact ⟨.inl rfl, rfl⟩
    next hidx => exact ⟨.inr ⟨BitVec.eq_of_toNat_eq hidx, rfl⟩, rfl⟩
    · exact ⟨.inl rfl, rfl⟩
    · exact ⟨.inl rfl, rfl⟩
    · exact ⟨.inl rfl, rfl⟩

/-- What a step that takes the action `a`, or none, does to TV: it keeps it, or it is one of the four events of
10_state.md R22. -/
def TvEvent (a : Option HostAction) (s t : State) : Prop :=
  t.tv = s.tv ∨
  (t.tv = true ∧ ((∃ d, a = some (.write 4#4 d)) ∨ t.done = true ∧ t.phase = .idle ∧
    (s.phase = .pTwgen ∨ ∃ w, a = some (.command w) ∧ decode w = .ok .twgen))) ∨
  (t.tv = false ∧ (a = some .reset ∨ t.done = true ∧ t.phase = .idle ∧
    (s.phase ∈ [Phase.sLast, .sE4, .sD5] ∨
      ∃ w, a = some (.command w) ∧ (decode w = .ok .secte ∨ decode w = .ok .sectd))))

theorem tvEvent_of_seqStep {s t : State} (a : Option HostAction) (h : seqStep s = .ok t) : TvEvent a s t := by
  obtain hsame | ⟨hdone, hidle, ⟨hp, htv⟩ | ⟨hp, htv⟩⟩ := tv_of_seqStep h
  · exact .inl hsame
  · exact .inr (.inl ⟨htv, .inr ⟨hdone, hidle, .inl hp⟩⟩)
  · exact .inr (.inr ⟨htv, .inr ⟨hdone, hidle, .inl hp⟩⟩)

theorem tvEvent_of_command {w : Word} {s t : State} (h : commandWord w s = .next t) :
    TvEvent (some (.command w)) s t := by
  cases hd : decode w with
  | error e =>
    obtain rfl := Host.Outcome.next.inj ((commandWord_of_error hd s).symm.trans h)
    exact .inl (acceptReserved_same s).1
  | ok i =>
    obtain hsame | ⟨hdone, hidle, ⟨rfl, htv⟩ | ⟨hi, htv⟩⟩ := tv_of_exec ((commandWord_of_ok hd s).symm.trans h)
    · exact .inl hsame
    · exact .inr (.inl ⟨htv, .inr ⟨hdone, hidle, .inr ⟨w, rfl, hd⟩⟩⟩)
    · have hsector : decode w = .ok .secte ∨ decode w = .ok .sectd := by simpa [hd] using hi
      exact .inr (.inr ⟨htv, .inr ⟨hdone, hidle, .inr ⟨w, rfl, hsector⟩⟩⟩)

theorem tvEvent_of_hostAct {a : HostAction} {s t : State} (h : hostAct a s = .next t) : TvEvent (some a) s t := by
  cases a with
  | pass => exact tvEvent_of_seqStep _ (seqStep_of_advance h)
  | command w => exact tvEvent_of_command h
  | write idx d =>
    obtain rfl := Host.Outcome.next.inj h
    obtain hsame | ⟨rfl, htv⟩ := (hostWrite_same idx d s).1
    · exact .inl hsame
    · exact .inr (.inl ⟨htv, .inl ⟨d, rfl⟩⟩)
  | read idx =>
    obtain rfl := Host.Outcome.next.inj h
    obtain ⟨d, k, hr⟩ := hostRead_fields idx s
    exact .inl (by rw [hr])
  | wait =>
    obtain hw | hw := waitTurn_cases s
    · obtain rfl := Host.Outcome.next.inj (hw.symm.trans h)
      exact .inl rfl
    · exact tvEvent_of_seqStep (s := s.withHost (.wait :: s.inbox) (statusWord s)) _
          (seqStep_of_advance (hw.symm.trans h))
  | bufRead a n =>
    obtain rfl := agentRead_next h
    exact .inl rfl
  | bufWrite a bs =>
    obtain ⟨-, rfl⟩ := agentWrite_next h
    exact .inl rfl
  | bindKeys k1 k2 =>
    obtain rfl := bindKeys_next h
    exact .inl rfl
  | reset =>
    obtain rfl := Host.Outcome.next.inj h
    exact .inr (.inr ⟨rfl, .inl rfl⟩)

/-- Settles O42: of the actions only a write of T and reset change TV themselves, and the sequencer and the commands
change it only where TWGEN or a sector command completes. -/
theorem tweakValidityChangesOnlyByItsFourEvents : Obligations.TweakValidityChangesOnlyByItsFourEvents := by
  intro s t h hne
  have hevent : TvEvent s.inbox.head? s t := by
    cases hin : s.inbox with
    | nil =>
      rw [step_empty hin] at h
      exact tvEvent_of_seqStep _ (seqStep_of_advance h)
    | cons a rest =>
      rw [step_of_inbox hin] at h
      exact tvEvent_of_hostAct (s := { s with inbox := rest }) h
  simp only [TvEvent, List.head?_eq_some_iff, ← exists_and_right] at hevent
  exact hevent.resolve_left fun hsame => hne hsame.symm

/-! ### Requests under K2 -/

/-- From `s` to `t` the record of the ports grows, by no request under K2 that is a decryption. -/
def EncryptsUnderKeyTwo (s t : State) : Prop :=
  ∃ shapes, AddsShapes s t shapes ∧ ∀ op, PortShape.request .k2 op ∈ shapes → op = .enc

theorem encryptsUnderKeyTwo_of_same {s t : State} (h : t.portLog = s.portLog) : EncryptsUnderKeyTwo s t :=
  ⟨[], addsShapes_of_same h, nofun⟩

theorem EncryptsUnderKeyTwo.trans {s t u : State} (h : EncryptsUnderKeyTwo s t) (h' : EncryptsUnderKeyTwo t u) :
    EncryptsUnderKeyTwo s u := by
  obtain ⟨l, hl, hop⟩ := h
  obtain ⟨k, hk, hop'⟩ := h'
  exact ⟨l ++ k, hl.trans hk, fun op hm => (List.mem_append.1 hm).elim (hop op) (hop' op)⟩

/-- The one request under K2 is that of TWGEN. -/
theorem encryptsUnderKeyTwo_of_seqStep {s t : State} (h : seqStep s = .ok t) : EncryptsUnderKeyTwo s t := by
  refine ⟨_, addsShapes_of_seqStep h, fun op hm => ?_⟩
  cases hact : portAct s with
  | quiet => simp [hact, PortAct.shapes] at hm
  | tweak => simpa [hact, PortAct.shapes] using hm
  | xex dir a => simp [hact, PortAct.shapes, xexShapes] at hm
  | swap a r => simp [hact, PortAct.shapes, swapShapes] at hm

theorem encryptsUnderKeyTwo_of_exec {i : Instr} {s t : State} (h : exec i s = .next t) : EncryptsUnderKeyTwo s t := by
  obtain ⟨-, rfl⟩ | ⟨-, e, -, rfl⟩ | ⟨-, -, hrun, -⟩ := exec_next h
  · exact encryptsUnderKeyTwo_of_same rfl
  · exact encryptsUnderKeyTwo_of_same rfl
  · exact seqRun_induction (P := EncryptsUnderKeyTwo s) (fun _ _ hu hv => hu.trans (encryptsUnderKeyTwo_of_seqStep hv))
      (encryptsUnderKeyTwo_of_same (accept_same i s).2) hrun

theorem encryptsUnderKeyTwo_of_hostAct {a : HostAction} {s t : State} (h : hostAct a s = .next t) :
    EncryptsUnderKeyTwo s t := by
  cases a with
  | pass => exact encryptsUnderKeyTwo_of_seqStep (seqStep_of_advance h)
  | command w =>
    cases hd : decode w with
    | ok i => exact encryptsUnderKeyTwo_of_exec ((commandWord_of_ok hd s).symm.trans h)
    | error e =>
      obtain rfl := Host.Outcome.next.inj ((commandWord_of_error hd s).symm.trans h)
      exact encryptsUnderKeyTwo_of_same (acceptReserved_same s).2
  | write idx d => exact Host.Outcome.next.inj h ▸ encryptsUnderKeyTwo_of_same (hostWrite_same idx d s).2
  | read idx =>
    obtain rfl := Host.Outcome.next.inj h
    obtain ⟨d, k, hr⟩ := hostRead_fields idx s
    exact encryptsUnderKeyTwo_of_same (by rw [hr])
  | wait =>
    obtain hw | hw := waitTurn_cases s
    · obtain rfl := Host.Outcome.next.inj (hw.symm.trans h)
      exact encryptsUnderKeyTwo_of_same rfl
    · have hv := encryptsUnderKeyTwo_of_seqStep (seqStep_of_advance (hw.symm.trans h))
      exact (encryptsUnderKeyTwo_of_same (by rfl)).trans hv
  | bufRead a n =>
    obtain rfl := agentRead_next h
    exact encryptsUnderKeyTwo_of_same rfl
  | bufWrite a bs =>
    obtain ⟨-, rfl⟩ := agentWrite_next h
    exact encryptsUnderKeyTwo_of_same rfl
  | bindKeys k1 k2 =>
    obtain rfl := bindKeys_next h
    exact encryptsUnderKeyTwo_of_same rfl
  | reset =>
    obtain rfl := Host.Outcome.next.inj h
    exact encryptsUnderKeyTwo_of_same rfl

/-- Settles O43: each action adds to the record by the sequencer alone. -/
theorem noStepDecryptsUnderKeyTwo : Obligations.NoStepDecryptsUnderKeyTwo := by
  intro s t h
  have hadds : EncryptsUnderKeyTwo s t := by
    cases hin : s.inbox with
    | nil =>
      rw [step_empty hin] at h
      exact encryptsUnderKeyTwo_of_seqStep (seqStep_of_advance h)
    | cons a rest =>
      rw [step_of_inbox hin] at h
      exact encryptsUnderKeyTwo_of_hostAct (s := { s with inbox := rest }) h
  obtain ⟨shapes, ⟨new, hnew, hshapes⟩, hop⟩ := hadds
  refine ⟨new, hnew, fun r hr hk => hop r.op ?_⟩
  rw [← hshapes, ← hk]
  exact List.mem_map_of_mem (List.mem_reverse.2 (mem_requestsOf.1 hr))

end Sys2Proof.Machine
end

section
/-! Acceptance and the register port (46_system.md R211, R212, R215, 10_state.md R36, R39), the laws of Double
(40_gf_arithmetic.md R113) and the buffer primitives (20_memory.md R62, R63). -/

namespace Sys2Proof.Machine

/-! ### Acceptance -/

/-- The first phase of the stealing end in each direction (43_sector_processor.md R156). -/
def stealPhase : Dir → Phase
  | .enc => .sE1
  | .dec => .sD1

theorem tailEntry_eq (s : State) : tailEntry s = if s.rem = 0#4 then .sLast else stealPhase s.dirl := by
  unfold tailEntry
  cases s.dirl <;> rfl

/-- The first phase of a sector command, by LEN (43_sector_processor.md R156). -/
theorem phase_enterSector (d : Dir) (s : State) : (enterSector (opcode (sectorCommand d)) s).phase =
    if 2 ≤ s.len.toNat / 16 then .sBodyX else if s.len.toNat % 16 = 0 then .sLast else stealPhase d := by
  simp only [enterSector_phase, tailEntry_eq, enterSector_n, toNat_blockCount, enterSector_rem, remainder_eq_zero_iff,
    enterSector_dirl, opcodeDir_sectorCommand]

/-- Settles O9: a command with no failing check is entered after STATUS is cleared, and each loads its own latches. -/
theorem acceptanceLatchesTheCommand : Obligations.AcceptanceLatchesTheCommand := by
  intro i s hp hf
  rw [acceptInstr_enter hp hf]
  cases i with
  | nop | double | halve | twgen | xexe | xexd | ctsswap => rfl
  | secte =>
    have hphase := phase_enterSector .enc (clearStatus s)
    exact congrArg (fun p => { enterSector (opcode .secte) (clearStatus s) with phase := p }) hphase
  | sectd =>
    have hphase := phase_enterSector .dec (clearStatus s)
    exact congrArg (fun p => { enterSector (opcode .sectd) (clearStatus s) with phase := p }) hphase

/-! ### Host reads -/

section Reads

variable {s : State}

theorem rdata_readTweak : (hostRead 4#4 s).rdata =
    if s.tv = true ∧ s.busy = false then s.t else Config.freeRead s.unitNo s.draws := by
  cases htv : s.tv <;> cases hb : s.busy <;> simp [hostRead, htv, hb]

theorem rdata_readCarry : (hostRead 6#4 s).rdata =
    if s.busy = true then Config.freeRead s.unitNo s.draws else flagBit 0 s.cf := by
  cases hb : s.busy <;> simp [hostRead, hb]

/-- No register stands at the indices from 7 on (46_system.md R211). -/
theorem rdata_readUnmapped {idx : BitVec 4} (hi : 7#4 ≤ idx) : (hostRead idx s).rdata = 0#128 := by
  have hn : 7 ≤ idx.toNat := BitVec.le_def.1 hi
  unfold hostRead
  split
  case h_7 => rfl
  all_goals omega

end Reads

/-- Settles O10: BUSY = 1 loses a write and a command, and only the reads of T and CF look at it. -/
theorem hostAccessesWhileBusy : Obligations.HostAccessesWhileBusy := by
  intro s hb
  refine ⟨fun idx d => hostWrite_of_busy hb idx d, fun i => exec_busy i hb, rfl, rfl, rfl, rfl, fun idx hi => ?_⟩
  simp only [List.mem_cons, List.not_mem_nil, or_false] at hi
  obtain rfl | rfl := hi
  · rw [rdata_readTweak, if_neg (by simp [hb])]
  · rw [rdata_readCarry, if_pos hb]

/-- Settles O12: index by index. -/
theorem hostReadReturnsTheNamedRegister : Obligations.HostReadReturnsTheNamedRegister := by
  intro s
  refine ⟨rfl, rfl, ?_, ?_, rdata_readTweak, rfl, fun hb => ?_, fun hb => ?_, fun _ => rdata_readUnmapped,
    fun idx => hostRead_fields idx s⟩
  · exact BitVec.toNat_setWidth_of_le (by decide)
  · exact BitVec.toNat_setWidth_of_le (by decide)
  · rw [rdata_readCarry, if_neg (by simp [hb])]
    cases s.cf <;> rfl
  · rw [rdata_readCarry, if_pos hb]

/-! ### STATUS -/

theorem getLsbD_flagBit {k : Nat} (hk : k < 128) (f : Bool) (i : Nat) :
    (flagBit k f).getLsbD i = (f && decide (i = k)) := by
  cases f with
  | false => simp [flagBit]
  | true =>
    simp only [flagBit, if_true, BitVec.getLsbD_shiftLeft, BitVec.getLsbD_one]
    grind

/-- The bits of STATUS (10_state.md R36). -/
theorem getLsbD_statusWord (s : State) (i : Nat) : (statusWord s).getLsbD i =
    ((s.busy && decide (i = 0)) || (s.done && decide (i = 1)) || (s.err && decide (i = 2)) ||
      (s.tv && decide (i = 3)) || (decide (8 ≤ i) && s.ecode.getLsbD (i - 8))) := by
  have hecode : (s.ecode.setWidth 128 <<< 8).getLsbD i = (decide (8 ≤ i) && s.ecode.getLsbD (i - 8)) := by
    rw [BitVec.getLsbD_shiftLeft, BitVec.getLsbD_setWidth]
    by_cases hi : i < 128
    · grind
    · have hz : s.ecode.getLsbD (i - 8) = false := BitVec.getLsbD_of_ge _ _ (by omega)
      simp [hi, hz]
  simp only [statusWord, BitVec.getLsbD_or, hecode]
  simp only [getLsbD_flagBit (show 0 < 128 by decide), getLsbD_flagBit (show 1 < 128 by decide),
    getLsbD_flagBit (show 2 < 128 by decide), getLsbD_flagBit (show 3 < 128 by decide)]

/-- Settles O13: the four flags and ECODE stand apart, and ECODE has four bits. -/
theorem statusBitsAreWhereTheMapPutsThem : Obligations.StatusBitsAreWhereTheMapPutsThem := by
  intro s
  refine ⟨?_, ?_, ?_, ?_, fun k h4 h8 => ?_, fun k hk => ?_, fun k hk => ?_⟩
  all_goals rw [getLsbD_statusWord]
  · simp
  · simp
  · simp
  · simp
  · simp; omega
  · simp; omega
  · rw [BitVec.getLsbD_of_ge s.ecode _ (by omega)]
    simp; omega

/-! ### Double -/

/-- Settles O20: the shift and the reduction are linear in the bits, and the reduction constant has bit 0. -/
theorem doubleIsLinear : Obligations.DoubleIsLinear := by
  refine ⟨fun a b => ⟨BitVec.eq_of_getLsbD_eq fun k hk => ?_, ?_⟩, by decide, fun t => getLsbD_gfDouble_zero t⟩
  · rw [BitVec.getLsbD_xor, getLsbD_gfDouble _ hk, getLsbD_gfDouble _ hk, getLsbD_gfDouble _ hk]
    simp only [getLsbD_reduction, BitVec.getLsbD_xor]
    grind
  · rw [gfDouble_carry, BitVec.getLsbD_xor]

/-! ### The buffer -/

/-- Settles O21: inside the buffer the primitives are `readBytes` and `writeBytes` of its contents. -/
theorem bufferPrimitivesReadAndWriteTheNamedBytes : Obligations.BufferPrimitivesReadAndWriteTheNamedBytes := by
  intro s a hw
  refine ⟨fun n hn => ?_, fun bs hbs => ?_⟩
  · exact ⟨_, _, by rw [memRead_eq, if_pos hn]; rfl, Memory.length_readBytes _ _ _, Memory.getElem_readBytes _ _ _⟩
  · exact ⟨_, _, by rw [memWrite_eq, if_pos hbs]; rfl, Memory.wf_writeBytes a bs hw,
      fun x => Memory.read_writeBytes a bs x hw⟩

end Sys2Proof.Machine
end

section
/-! Two sequencers over one buffer (60_exceptions.md R247 to R249, 20_memory.md R80). -/

namespace Sys2Proof.Machine

theorem andThen_next {α β : Type} {o : Host.Outcome α Fault Refusal} {f : α → Host.Outcome β Fault Refusal} {b : β}
    (h : andThen o f = .next b) : ∃ a, o = .next a ∧ f a = .next b := by
  cases o with
  | next a => exact ⟨a, rfl, h⟩
  | fault r => cases h
  | refused r => cases h

/-- A turn of a unit with no action to take is one step of its sequencer on the shared buffer. -/
theorem turn_next {y z : UnitSystem} {k : Nat} {u : State} (hin : u.inbox = []) (h : UnitSystem.turn k u y = .next z) :
    ∃ u1, seqStep (y.unitView u) = .ok u1 ∧
      z = { units := y.units.set k { u1 with mem := u.mem }, mem := u1.mem } := by
  obtain ⟨u1, hu1, hz⟩ := andThen_next h
  have hin' : (y.unitView u).inbox = [] := hin
  have hadvance : advance (y.unitView u) = .next u1 := (step_empty hin').symm.trans hu1
  refine ⟨u1, seqStep_of_advance hadvance, ?_⟩
  split at hz
  · cases hz
  · exact (Host.Outcome.next.inj hz).symm

theorem unitStep_next {y z : UnitSystem} {k : Nat} {u : State} (hk : y.units[k]? = some u) (hin : u.inbox = [])
    (h : UnitSystem.step k y = .next z) : ∃ u1, seqStep (y.unitView u) = .ok u1 ∧
      z = { units := y.units.set k { u1 with mem := u.mem }, mem := u1.mem } := by
  refine turn_next hin ?_
  simpa only [UnitSystem.step, hk, hin] using h

/-- A step of `p` and then one of `q`, each with no action to take. -/
theorem unitRun_pair {y z : UnitSystem} {p q : Nat} {u v : State} (hpq : p ≠ q) (hu : y.units[p]? = some u)
    (hv : y.units[q]? = some v) (hinu : u.inbox = []) (hinv : v.inbox = [])
    (h : UnitSystem.run [p, q] y = .next z) :
    ∃ u1 v1, seqStep (y.unitView u) = .ok u1 ∧ seqStep { v with mem := u1.mem } = .ok v1 ∧
      z = { units := (y.units.set p { u1 with mem := u.mem }).set q { v1 with mem := v.mem }, mem := v1.mem } := by
  obtain ⟨y1, hy1, hrest⟩ := andThen_next h
  obtain ⟨y2, hy2, hz⟩ := andThen_next hrest
  obtain rfl := Host.Outcome.next.inj hz
  obtain ⟨u1, hu1, rfl⟩ := unitStep_next hu hinu hy1
  obtain ⟨v1, hv1, rfl⟩ := unitStep_next (by rw [List.getElem?_set_ne hpq, hv]) hinv hy2
  exact ⟨u1, v1, hu1, hv1, rfl⟩

/-- A step of `v` after one of `u` does to the registers what it does without it, and leaves in its own range the bytes
it leaves without it, and elsewhere the bytes `u` left. -/
theorem seqStep_after {y : UnitSystem} {u v u1 v1 v2 : State} (hiu : (y.unitView u).Inv) (hiv : (y.unitView v).Inv)
    (hdis : ∀ a, ¬(owns u a 1 = true ∧ owns v a 1 = true)) (hu : seqStep (y.unitView u) = .ok u1)
    (hv : seqStep (y.unitView v) = .ok v1) (hv2 : seqStep { v with mem := u1.mem } = .ok v2) :
    { v2 with mem := v.mem } = { v1 with mem := v.mem } ∧ v2.mem.wf = true ∧
      ∀ a, v2.mem.read a = if owns v a 1 = true then v1.mem.read a else u1.mem.read a := by
  have hw1 : u1.mem.wf = true := (kept_of_seqStep hiu.latchesOk hu).1.memWf hiu.memWf
  have hwithin : Within (ownedRanges v) (y.unitView v) := ⟨hiv.latchesOk, fun _ hx => hx⟩
  have hkept : ∀ a, owns v a 1 = true → u1.mem.read a = y.mem.read a := fun a ha =>
    read_of_seqStep hiu.latchesOk hiu.memWf hu
      (eq_false_of_ne_true fun hua => hdis a ⟨hua, ha⟩)
  obtain ⟨m, hm, hmw, hread⟩ := seqStep_congr_mem hwithin hiv.memWf hw1
    (fun a ha => hkept a (by rwa [owns_one])) hv
  obtain rfl : v2 = { v1 with mem := m } := Except.ok.inj (hv2.symm.trans hm)
  refine ⟨rfl, hmw, fun a => ?_⟩
  split
  next ha => exact hread a (hkept a ha)
  next ha => exact read_of_seqStep (s := { v with mem := u1.mem }) hiv.latchesOk hw1 hv2 (eq_false_of_ne_true ha)

/-- Settles O60: each of the two steps does to its unit what it does alone, and the bytes of each range are those its
own unit leaves. -/
theorem stepsOfDisjointInstancesCommute : Obligations.StepsOfDisjointInstancesCommute := by
  intro y p q u v hpq hu hv hinu hinv hiu hiv hdis z1 z2 h1 h2
  obtain ⟨u1, v2, hu1, hv2, rfl⟩ := unitRun_pair hpq hu hv hinu hinv h1
  obtain ⟨v1, u2, hv1, hu2, rfl⟩ := unitRun_pair hpq.symm hv hu hinv hinu h2
  obtain ⟨hregv, hwv, hreadv⟩ := seqStep_after hiu hiv hdis hu1 hv1 hv2
  obtain ⟨hregu, hwu, hreadu⟩ := seqStep_after hiv hiu (fun a ha => hdis a ha.symm) hv1 hu1 hu2
  have hmem : v2.mem = u2.mem := by
    refine Memory.ext_read hwv hwu fun a => ?_
    rw [hreadv, hreadu]
    by_cases hau : owns u a 1 = true
    · rw [if_neg fun hav => hdis a ⟨hau, hav⟩, if_pos hau]
    · rw [if_neg hau]
      split
      · rfl
      next hav =>
        rw [read_of_seqStep hiu.latchesOk hiu.memWf hu1 (eq_false_of_ne_true hau),
          read_of_seqStep hiv.latchesOk hiv.memWf hv1 (eq_false_of_ne_true hav)]
        rfl
  rw [hregv, hregu, hmem, List.set_comm _ _ hpq]

end Sys2Proof.Machine
end

section
/-! The Codec API on one sector (45_host_sequences.md R190 to R193, R204): the tweak, the sector command and the result
of a call. -/

namespace Sys2Proof.Machine

/-! ### Keys -/

/-- The state with the halves of a key bound (45_host_sequences.md R190). -/
def State.bound (key : List Byte) (s : State) : State := { s with k1 := (splitKey key).1, k2 := (splitKey key).2 }

theorem withKeys_invalid {key : List Byte} {s : State} (hk : keyValid s.cipher key = false)
    (body : State → CodecOutcome) : withKeys key s body = .next (.invalidKeyLength, s) := by
  simp [withKeys, hk]

theorem withKeys_valid {key : List Byte} {s : State} (hk : keyValid s.cipher key = true) (hp : s.phase = .idle)
    (body : State → CodecOutcome) : withKeys key s body = body (s.bound key) := by
  rw [withKeys, if_pos hk, bindKeys_idle _ _ hp]
  rfl

/-- A multi-sector call whose checks pass, on an array that is not empty, treats its sectors in turn
(45_host_sequences.md R194). -/
theorem cryptSectors_valid {dir : Dir} {key : List Byte} {start base length size : Nat} {s : State}
    (hk : keyValid s.cipher key = true) (hp : s.phase = .idle) (hs : 16 ≤ size) (hl : 1 ≤ length) :
    cryptSectors dir key start base length size s =
      sectorLoop dir start base length size (sectorCount length size) 0 (s.bound key) := by
  rw [cryptSectors, if_neg (by simp [hk]), if_neg (by omega), if_neg (by omega), withKeys_valid hk hp]

/-- Settles O53: both checks come before the bindings, and the key's comes first. -/
theorem codecRejectsBadKeysAndSizesFirst : Obligations.CodecRejectsBadKeysAndSizesFirst := by
  refine fun dir key start base len size s => ⟨fun hk => ⟨withKeys_invalid hk _, if_pos (by simp [hk])⟩,
    fun hk hs => ?_⟩
  rw [cryptSectors, if_neg (by simp [hk]), if_pos hs]

/-! ### The tweak -/

/-- What TWGEN leaves (41_tweak_generator.md R131). -/
def twgenDone (s : State) : State := complete (enterPhase (opcode .twgen) .pTwgen (clearStatus (twgenPost s)))

theorem exec_twgen {s : State} (hp : s.phase = .idle) : exec .twgen s = .next (twgenDone s) :=
  exec_oneStep hp (firstCause_twgen s) rfl (stepTwgen_eq _)

/-- Where steps 2 to 5 of a call lead: T is the tweak of the sector, and OFF and LEN hold the low words of its address
and its length (45_host_sequences.md R192). -/
def State.loaded (index addr length : Nat) (s : State) : State :=
  { hostRead 1#4 (twgenDone { s with sidx := BitVec.ofNat 128 index }) with
    off := (BitVec.ofNat 128 addr).extractLsb' 0 32, len := (BitVec.ofNat 128 length).extractLsb' 0 32 }

section Loaded

variable (index addr length : Nat) (s : State)

@[simp] theorem State.loaded_phase : (s.loaded index addr length).phase = .idle := rfl
@[simp] theorem State.loaded_tv : (s.loaded index addr length).tv = true := rfl
@[simp] theorem State.loaded_t : (s.loaded index addr length).t = tweakGen s index := rfl
@[simp] theorem State.loaded_mem : (s.loaded index addr length).mem = s.mem := rfl
@[simp] theorem State.loaded_bufBytes : (s.loaded index addr length).bufBytes = s.bufBytes := rfl
@[simp] theorem State.loaded_cipher : (s.loaded index addr length).cipher = s.cipher := rfl
@[simp] theorem State.loaded_k1 : (s.loaded index addr length).k1 = s.k1 := rfl
@[simp] theorem State.loaded_k2 : (s.loaded index addr length).k2 = s.k2 := rfl

variable {addr length}

theorem toNat_lowWord {n : Nat} (h : n < 2 ^ 32) : ((BitVec.ofNat 128 n).extractLsb' 0 32).toNat = n := by
  rw [BitVec.extractLsb'_toNat, BitVec.toNat_ofNat]
  omega

theorem State.loaded_off (h : addr < 2 ^ 32) : (s.loaded index addr length).off.toNat = addr := toNat_lowWord h

theorem State.loaded_len (h : length < 2 ^ 32) : (s.loaded index addr length).len.toNat = length := toNat_lowWord h

end Loaded

/-- A call on an idle unit is the sector command from the state that steps 2 to 5 lead to. -/
theorem sectorCall_eq {s : State} (hp : s.phase = .idle) (dir : Dir) (index addr length : Nat) :
    sectorCall dir index addr length s =
      andThen (runSector dir addr length (s.loaded index addr length)) fun u => .next (codecResult u, u) := by
  have hb : s.busy = false := (busy_false_iff s).2 hp
  have hp1 : ({ s with sidx := BitVec.ofNat 128 index } : State).phase = .idle := hp
  have htwgen : runAndWait .twgen (hostWrite 5#4 (BitVec.ofNat 128 index) s) =
      .next (hostRead 1#4 (twgenDone { s with sidx := BitVec.ofNat 128 index })) := by
    rw [hostWrite_sidx hb]
    exact runAndWait_of_exec (decodeOfEncodeIsTheCommand .twgen rfl) (exec_twgen hp1) rfl
  rw [sectorCall, htwgen]
  rfl

/-! ### The result -/

/-- A call reports the error it finds in STATUS (45_host_sequences.md R204). -/
theorem codecResult_status (u : State) : codecResult (hostRead 1#4 u) =
    if u.err then if u.ecode = ErrorCause.code .sectorTooShort then .sectorTooShort else .commandFailed u.ecode
    else .success := by
  obtain ⟨-, -, herr, -, -, hecode, -⟩ := statusBitsAreWhereTheMapPutsThem u
  have hfield : (statusWord u).extractLsb' 8 4 = u.ecode := by
    refine BitVec.eq_of_getLsbD_eq fun k hk => ?_
    rw [BitVec.getLsbD_extractLsb', hecode k hk]
    simp [hk]
  have hrdata : (hostRead 1#4 u).rdata = statusWord u := rfl
  rw [codecResult, hrdata, herr, hfield]

/-- What a call returns that ends in an error of XTSU (45_host_sequences.md R204). -/
def errorResult (e : ErrorCause) : CodecResult :=
  if e = .sectorTooShort then .sectorTooShort else .commandFailed e.code

theorem codecResult_raiseError (e : ErrorCause) (s : State) :
    codecResult (hostRead 1#4 (raiseError e s)) = errorResult e := by
  rw [codecResult_status]
  cases e <;> rfl

/-! ### One sector -/

/-- The unit is idle in `u`, its buffer is in canonical form, and it has the parameters and keys of `s`. -/
structure IdleWithKeysOf (s u : State) : Prop where
  idle : u.phase = .idle
  memWf : u.mem.wf = true
  bufBytes : u.bufBytes = s.bufBytes
  cipher : u.cipher = s.cipher
  k1 : u.k1 = s.k1
  k2 : u.k2 = s.k2

theorem IdleWithKeysOf.trans {s t u : State} (h : IdleWithKeysOf s t) (h' : IdleWithKeysOf t u) :
    IdleWithKeysOf s u where
  idle := h'.idle
  memWf := h'.memWf
  bufBytes := h'.bufBytes.trans h.bufBytes
  cipher := h'.cipher.trans h.cipher
  k1 := h'.k1.trans h.k1
  k2 := h'.k2.trans h.k2

/-- A call on `len` bytes at `base` from `s` has left in `u`: `SectorFn` of the sector with the tweak of its index, and
every other byte as it was. -/
structure SectorDone (dir : Dir) (index base len : Nat) (s u : State) : Prop extends IdleWithKeysOf s u where
  region : u.mem.readBytes base len = sectorFn (xex s) dir (tweakGen s index) (s.mem.readBytes base len)
  outside : ∀ a, ¬(base ≤ a ∧ a < base + len) → u.mem.read a = s.mem.read a

/-- The transform depends on the cipher and K1 alone. -/
theorem xex_congr {s t : State} (hc : t.cipher = s.cipher) (hk : t.k1 = s.k1) : xex t = xex s := by
  funext d a b
  simp only [xex, cipherFn, State.key, hc, hk]

/-- The tweak depends on the cipher and K2 alone. -/
theorem tweakGen_congr {s t : State} (hc : t.cipher = s.cipher) (hk : t.k2 = s.k2) : tweakGen t = tweakGen s := by
  funext i
  simp only [tweakGen, cipherFn, State.key, hc, hk]

theorem IdleWithKeysOf.xex_eq {s u : State} (h : IdleWithKeysOf s u) : xex u = xex s := xex_congr h.cipher h.k1

theorem IdleWithKeysOf.tweakGen_eq {s u : State} (h : IdleWithKeysOf s u) : tweakGen u = tweakGen s :=
  tweakGen_congr h.cipher h.k2

theorem decode_sectorCommand (d : Dir) : decode (encode (sectorCommand d)) = .ok (sectorCommand d) :=
  decodeOfEncodeIsTheCommand _ (by cases d <;> rfl)

theorem sectorCall_done {dir : Dir} {index base len : Nat} {s : State} (hp : s.phase = .idle) (hlen : 16 ≤ len)
    (hl : len < 2 ^ 32) (hb : base < 2 ^ 32) (hr : base + len ≤ s.bufBytes) (hw : s.mem.wf = true) :
    ∃ u, sectorCall dir index base len s = .next (.success, u) ∧ SectorDone dir index base len s u := by
  have hoff := s.loaded_off index (length := len) hb
  have hlen' := s.loaded_len index (addr := base) hl
  obtain ⟨u, hu, hdone, hwf, -, hidle, -, herr, -, -, hhost⟩ := exec_sectorCommand (d := dir)
    (s.loaded_phase index base len) (by rwa [hlen']) (s.loaded_tv index base len) (by rwa [hoff, hlen']) hw
  obtain ⟨-, -, -, hbuf, hcipher, hk1, hk2, -⟩ := hhost
  have hrun := runAndWait_of_exec (decode_sectorCommand dir) hu hidle
  have hfits : fitsRegisters base len = true := by
    simpa [fitsRegisters] using ⟨hb, hl⟩
  refine ⟨hostRead 1#4 u, ?_, ⟨hidle, hwf, hbuf, hcipher, hk1, hk2⟩, ?_, ?_⟩
  · rw [sectorCall_eq hp, runSector_fits hfits, hrun]
    simp only [andThen, codecResult_status, herr]
    rfl
  · have hregion := hdone.region
    rw [offAddr, hoff, hlen', xex_congr (s.loaded_cipher index base len) (s.loaded_k1 index base len)] at hregion
    exact hregion
  · have houtside := hdone.outside
    rw [offAddr, hoff, hlen'] at houtside
    exact houtside

/-- A call on a sector that fails a check returns the error and leaves the buffer. -/
theorem sectorCall_error {dir : Dir} {index base len : Nat} {s : State} {e : ErrorCause} (hp : s.phase = .idle)
    (hfit : fitsRegisters base len = true →
      firstCause (sectorCommand dir) (s.loaded index base len) = some e)
    (hunfit : fitsRegisters base len = false → unfitError len (s.loaded index base len) = e) :
    ∃ u, sectorCall dir index base len s = .next (errorResult e, u) ∧ u.mem = s.mem := by
  have hrun : runSector dir base len (s.loaded index base len) =
      .next (hostRead 1#4 (raiseError e (clearStatus (s.loaded index base len)))) := by
    cases hf : fitsRegisters base len with
    | true =>
      rw [runSector_fits hf]
      exact runAndWait_of_exec (decode_sectorCommand dir) (exec_error (s.loaded_phase index base len) (hfit hf)) rfl
    | false => rw [runSector_unfit (s.loaded_phase index base len) hf, hunfit hf]
  refine ⟨hostRead 1#4 (raiseError e (clearStatus (s.loaded index base len))), ?_, rfl⟩
  rw [sectorCall_eq hp, hrun]
  simp only [andThen, codecResult_raiseError]

/-- A call on a short sector returns SectorTooShort (45_host_sequences.md R193). -/
theorem sectorCall_short {dir : Dir} {index base len : Nat} {s : State} (hp : s.phase = .idle) (hlen : len < 16) :
    ∃ u, sectorCall dir index base len s = .next (.sectorTooShort, u) ∧ u.mem = s.mem := by
  refine sectorCall_error (e := .sectorTooShort) hp (fun _ => ?_) fun _ => if_pos hlen
  refine firstCause_of_short_sector (by cases dir <;> simp [sectorCommand]) ?_
  rwa [s.loaded_len index (by omega)]

/-- A call on an array that OFF or LEN cannot express, or that leaves the buffer, returns BufferRange
(45_host_sequences.md R192). -/
theorem sectorCall_range {dir : Dir} {index base len : Nat} {s : State} (hp : s.phase = .idle) (hlen : 16 ≤ len)
    (hr : 2 ^ 32 ≤ len ∨ 2 ^ 32 ≤ base ∨ s.bufBytes < base + len) :
    ∃ u, sectorCall dir index base len s = .next (.commandFailed 4#4, u) ∧ u.mem = s.mem := by
  refine sectorCall_error (e := .bufferRange) hp (fun hfits => ?_) fun _ => if_neg (by omega)
  obtain ⟨hb, hl⟩ : base < 2 ^ 32 ∧ len < 2 ^ 32 := by simpa [fitsRegisters] using hfits
  have hoff := s.loaded_off index (length := len) hb
  have hlen' := s.loaded_len index (addr := base) hl
  refine firstCause_sectorCommand_of_range dir (by rwa [hlen']) (s.loaded_tv index base len) ?_
  rw [hoff, hlen']
  exact (hr.resolve_left (by omega)).resolve_left (by omega)

/-! ### The calls -/

theorem cryptSector_done {dir : Dir} {key : List Byte} {index base len : Nat} {s : State}
    (hk : keyValid s.cipher key = true) (hp : s.phase = .idle) (hlen : 16 ≤ len) (hl : len < 2 ^ 32)
    (hb : base < 2 ^ 32) (hr : base + len ≤ s.bufBytes) (hw : s.mem.wf = true) :
    ∃ u, cryptSector dir key index base len s = .next (.success, u) ∧
      SectorDone dir index base len (s.bound key) u := by
  rw [cryptSector, withKeys_valid hk hp]
  exact sectorCall_done hp hlen hl hb hr hw

/-- Settles O55. -/
theorem singleSectorCallsComputeSectorFn : Obligations.SingleSectorCallsComputeSectorFn := by
  refine fun dir key index base len s hk hp hlen => ⟨fun hl hb hr hw => ?_, fun hr => ?_⟩
  · obtain ⟨u, hu, hdone⟩ := cryptSector_done hk hp hlen hl hb hr hw
    exact ⟨u, hu, hdone.region, hdone.outside⟩
  · rw [cryptSector, withKeys_valid hk hp]
    exact sectorCall_range (s := s.bound key) hp hlen hr

/-- Settles O56: no sector of an empty array is reached, so its keys are not bound. -/
theorem shortAndEmptyCallsLeaveTheBuffer : Obligations.ShortAndEmptyCallsLeaveTheBuffer := by
  refine fun dir key index base s hk => ⟨fun hp len hlen => ?_, fun size hs => ?_⟩
  · rw [cryptSector, withKeys_valid hk hp]
    exact sectorCall_short (s := s.bound key) hp hlen
  · rw [cryptSectors, if_neg (by simp [hk]), if_neg (by omega), if_pos rfl]

/-- Two buffers that agree on a range and outside it are equal. -/
theorem Memory.ext_readBytes {m m' : Memory} (h : m.wf = true) (h' : m'.wf = true) (a n : Nat)
    (hin : m.readBytes a n = m'.readBytes a n) (hout : ∀ x, ¬(a ≤ x ∧ x < a + n) → m.read x = m'.read x) : m = m' := by
  refine Memory.ext_read h h' fun x => ?_
  by_cases hx : a ≤ x ∧ x < a + n
  · have hbyte := List.getElem_of_eq hin (i := x - a) (by rw [Memory.length_readBytes]; omega)
    simpa only [Memory.getElem_readBytes, Nat.add_sub_cancel' hx.1] using hbyte
  · exact hout x hx

/-- Settles O59: the second call binds the same keys and makes the same tweak, and `SectorFn` of the opposite direction
is its inverse. -/
theorem decryptCallUndoesEncryptCall : Obligations.DecryptCallUndoesEncryptCall := by
  intro key index base len s hk hc hp hlen hl hb hr hw
  obtain ⟨t, ht, henc⟩ := cryptSector_done (dir := .enc) (index := index) hk hp hlen hl hb hr hw
  have hcipher : t.cipher = s.cipher := henc.cipher
  have hbuf : t.bufBytes = s.bufBytes := henc.bufBytes
  obtain ⟨u, hu, hdec⟩ := cryptSector_done (dir := .dec) (index := index) (hcipher ▸ hk) henc.idle hlen hl hb
    (hbuf ▸ hr) henc.memWf
  refine ⟨t, u, ht, hu, Memory.ext_readBytes hdec.memWf hw base len ?_ fun a ha => ?_⟩
  · calc u.mem.readBytes base len
        = sectorFn (xex (t.bound key)) .dec (tweakGen (t.bound key) index) (t.mem.readBytes base len) := hdec.region
      _ = sectorFn (xex (s.bound key)) .dec (tweakGen (s.bound key) index) (t.mem.readBytes base len) := by
        rw [xex_congr (t := t.bound key) (s := s.bound key) hcipher rfl,
          tweakGen_congr (t := t.bound key) (s := s.bound key) hcipher rfl]
      _ = s.mem.readBytes base len := by
        rw [henc.region]
        exact sectorFn_opposite (d := .enc) (xex_opposite (s := s.bound key) hc .enc) _ (by simpa using hlen)
  · exact (hdec.outside a ha).trans (henc.outside a ha)

end Sys2Proof.Machine
end

section
/-! The Codec API on several sectors (45_host_sequences.md R194 to R199): the sectors partition the array, and a call
treats them one after the other. -/

namespace Sys2Proof.Machine

/-! ### The partition -/

section Partition

variable {length size i : Nat}

/-- The number of the last sector is the quotient of the number of the last byte. -/
theorem sectorCount_eq (hl : 1 ≤ length) (hs : 1 ≤ size) : sectorCount length size = (length - 1) / size + 1 := by
  rw [sectorCount, show length + size - 1 = length - 1 + size by omega, Nat.add_div_right _ hs]

theorem sectorLength_of_lt (h : i + 1 < sectorCount length size) : sectorLength length size i = size := if_pos h

theorem sectorLength_last (h : i + 1 = sectorCount length size) :
    sectorLength length size i = (length - 1) % size + 1 := if_neg (by omega)

/-- A sector ends where the next begins, and the last one at the end of the array. -/
theorem sector_end (hl : 1 ≤ length) (hs : 1 ≤ size) (hi : i < sectorCount length size) :
    i * size + sectorLength length size i = min ((i + 1) * size) length := by
  have hdiv := Nat.div_add_mod' (length - 1) size
  have hmod := Nat.mod_lt (length - 1) hs
  rw [sectorCount_eq hl hs] at hi
  obtain hlt | rfl := Nat.lt_or_eq_of_le (Nat.le_of_lt_succ hi)
  · have hle : (i + 1) * size ≤ (length - 1) / size * size := Nat.mul_le_mul_right size hlt
    rw [sectorLength_of_lt (by rw [sectorCount_eq hl hs]; omega), min_eq_left (by omega), Nat.succ_mul]
  · rw [sectorLength_last (sectorCount_eq hl hs).symm, min_eq_right (by rw [Nat.succ_mul]; omega)]
    omega

end Partition

/-- Settles O54: the sum is that of the quotient's many full sectors and the remainder. -/
theorem sectorsPartitionTheBuffer : Obligations.SectorsPartitionTheBuffer := by
  intro length size hl hs
  have hcount := sectorCount_eq hl hs
  have hlast := sectorLength_last hcount.symm
  have hfull : ∀ i ∈ List.range ((length - 1) / size), sectorLength length size i = size := fun i hi =>
    sectorLength_of_lt (by rw [hcount]; have := List.mem_range.1 hi; omega)
  have hmod := Nat.mod_lt (length - 1) hs
  refine ⟨hcount ▸ Nat.succ_pos _, ?_, fun i => sectorLength_of_lt, ?_⟩
  · rw [hcount, List.range_succ, List.map_append, List.sum_append, List.map_congr_left hfull]
    simp only [List.map_const', List.length_range, List.sum_replicate, smul_eq_mul, List.map_cons, List.map_nil,
      List.sum_singleton, hlast]
    have := Nat.div_add_mod' (length - 1) size
    omega
  · rw [hcount, Nat.add_sub_cancel, hlast]
    omega

/-! ### The loop -/

/-- A multi-sector call from `s` has left in `u`, with the sectors before number `k` done: each holds `SectorFn` of
what it held, with the tweak of its index, and every other byte is as it was. -/
structure SectorsDone (dir : Dir) (start base length size k : Nat) (s u : State) : Prop extends
    IdleWithKeysOf s u where
  sectors : ∀ i, i < k → u.mem.readBytes (base + i * size) (sectorLength length size i) =
    sectorFn (xex s) dir (tweakGen s (start + i)) (s.mem.readBytes (base + i * size) (sectorLength length size i))
  outside : ∀ a, ¬(base ≤ a ∧ a < base + min (k * size) length) → u.mem.read a = s.mem.read a

section Loop

variable {dir : Dir} {start base length size k : Nat} {s t u : State}

/-- One more sector: it begins where the sectors done end, so their bytes stay and its own are still those of `s`. -/
theorem SectorsDone.succ (hl : 1 ≤ length) (hs : 1 ≤ size) (hk : k < sectorCount length size)
    (h : SectorsDone dir start base length size k s t)
    (h' : SectorDone dir (start + k) (base + k * size) (sectorLength length size k) t u) :
    SectorsDone dir start base length size (k + 1) s u where
  toIdleWithKeysOf := h.trans h'.toIdleWithKeysOf
  sectors i hi := by
    obtain hlt | rfl := Nat.lt_or_eq_of_le (Nat.le_of_lt_succ hi)
    · have hend := sector_end hl hs (hlt.trans hk)
      have hle : (i + 1) * size ≤ k * size := Nat.mul_le_mul_right size hlt
      rw [← h.sectors i hlt]
      exact readBytes_congr fun a _ ha => h'.outside a (by omega)
    · rw [h'.region, h.xex_eq, h.tweakGen_eq]
      congr 1
      exact readBytes_congr fun a ha _ => h.outside a (by omega)
  outside a ha := by
    have hend := sector_end hl hs hk
    rw [← hend] at ha
    have hle : min (k * size) length ≤ k * size := min_le_left _ _
    rw [h'.outside a (by omega), h.outside a (by omega)]

/-- The loop after `k` sectors of at least 16 bytes, whatever the number of sectors still to do. -/
theorem exists_sectorsDone (dir : Dir) (start : Nat) (hl : 1 ≤ length) (hs : 16 ≤ size) (hl32 : length < 2 ^ 32)
    (hb : base + length ≤ 2 ^ 32) (hr : base + length ≤ s.bufBytes) (hp : s.phase = .idle) (hw : s.mem.wf = true) :
    ∀ k ≤ sectorCount length size, (∀ i < k, 16 ≤ sectorLength length size i) →
      ∃ u, SectorsDone dir start base length size k s u ∧
        ∀ n, sectorLoop dir start base length size (k + n) 0 s = sectorLoop dir start base length size n k u
  | 0, _, _ => ⟨s, ⟨⟨hp, hw, rfl, rfl, rfl, rfl⟩, fun _ hi => absurd hi (Nat.not_lt_zero _), fun _ _ => rfl⟩,
      fun n => by rw [Nat.zero_add]⟩
  | k + 1, hk, hlong => by
    obtain ⟨t, ht, hloop⟩ :=
      exists_sectorsDone dir start hl hs hl32 hb hr hp hw k (by omega) fun i hi => hlong i (by omega)
    have hend := sector_end hl (by omega) (Nat.lt_of_succ_le hk)
    have hlen := hlong k (Nat.lt_succ_self k)
    obtain ⟨u, hu, hdone⟩ := sectorCall_done (dir := dir) (index := start + k) (base := base + k * size) ht.idle hlen
      (by omega) (by omega) (by rw [ht.bufBytes]; omega) ht.memWf
    refine ⟨u, ht.succ hl (by omega) (Nat.lt_of_succ_le hk) hdone, fun n => ?_⟩
    rw [Nat.succ_add_eq_add_succ, hloop, sectorLoop, hu]
    rfl

end Loop

/-! ### The calls -/

/-- Settles O57: every sector is long, the last by assumption and the others because they are full. -/
theorem multiSectorCallsTreatSectorsIndependently : Obligations.MultiSectorCallsTreatSectorsIndependently := by
  intro dir key start base length size s hk hp hs hl hlast hl32 hb hr hw
  have hlong : ∀ i < sectorCount length size, 16 ≤ sectorLength length size i := fun i hi => by
    unfold sectorLength
    split <;> omega
  obtain ⟨u, hu, hloop⟩ := exists_sectorsDone (s := s.bound key) dir start hl hs hl32 hb hr hp hw _ le_rfl hlong
  refine ⟨u, ?_, hu.memWf, hu.sectors, fun a ha => hu.outside a fun hin => ha ⟨hin.1, by omega⟩⟩
  rw [cryptSectors_valid hk hp hs hl]
  exact hloop 0

/-- Settles O58: the sectors before the last are full, and the call on the last changes no byte. -/
theorem failedCallsLeaveEarlierSectorsTransformed : Obligations.FailedCallsLeaveEarlierSectorsTransformed := by
  intro dir key start base length size s hk hp hs hl hshort hl32 hb hr hw
  obtain ⟨m, hm⟩ : ∃ m, sectorCount length size = m + 1 := ⟨_, sectorCount_eq hl (by omega)⟩
  have hfull : ∀ i < m, sectorLength length size i = size := fun i hi => sectorLength_of_lt (by omega)
  obtain ⟨t, ht, hloop⟩ := exists_sectorsDone (s := s.bound key) dir start hl hs hl32 hb hr hp hw m (by omega)
    fun i hi => by rwa [hfull i hi]
  obtain ⟨u, hu, hmem⟩ := sectorCall_short (dir := dir) (index := start + m) (base := base + m * size) ht.idle
    (sectorLength_last hm.symm ▸ hshort)
  refine ⟨u, ?_, fun i hi => ?_, fun a ha => ?_⟩
  · rw [cryptSectors_valid hk hp hs hl, hm, hloop 1, sectorLoop, hu]
    rfl
  · have hsector := ht.sectors i (by omega)
    rw [hfull i (by omega)] at hsector
    rw [hmem]
    exact hsector
  · rw [hmem]
    refine ht.outside a fun hin => ha ⟨hin.1, ?_⟩
    rw [hm, Nat.add_sub_cancel]
    omega

end Sys2Proof.Machine
end
